-- ==== Sys2Proof/Word.lean ====
section
/-! DEFINITION. The data types of MBS-CORE's values: bytes, port words, command words and the
floating-point data `F` (`00_scope.md` R8, R9). -/

namespace Sys2Proof

/-- A byte, 8 bits (`00_scope.md` R8); also `U8`, the type of note numbers and parameter indices. -/
abbrev Byte := BitVec 8

/-- A port value `P`: an IEEE 754 binary32 bit pattern, sign in bit 31, exponent in bits 30:23, fraction in
bits 22:0 (`00_scope.md` R9, `20_memory.md` R52). -/
abbrev P := BitVec 32

/-- A word of format `CMD80`, bit 0 least significant (`30_encoding.md` R70). -/
abbrev CmdWord := BitVec 80

/-- A word of format `MIDI3`: `b0 ++ b1 ++ b2` (`30_encoding.md` R72). -/
abbrev MidiWord := BitVec 24

/-- The two formats `FMT` may be (`00_scope.md` R5). -/
inductive Format where
  | binary32
  | binary64
deriving DecidableEq, Repr

/-- What becomes of a subnormal result: the point `93_implementation_defined.md` U10 leaves to `num`. -/
inductive Underflow where
  | gradual
  | flush
deriving DecidableEq, Repr

/-- `F`: the floating-point data, both zeros, the infinities and NaN (`00_scope.md` R9).
`fin neg m e` is `(-1)^neg * m * 2^e`. A datum in canonical form has `m` odd, or `m = 0` and `e = 0`, so equal
values are equal data in either format. There is one NaN: "no rule distinguishes NaNs" (U12). -/
inductive F where
  | nan
  | inf (neg : Bool)
  | fin (neg : Bool) (m : Nat) (e : Int)
deriving DecidableEq, Repr

/-- Which ADSR instance (`00_scope.md` R9 `Env`; `10_state.md` R26). -/
inductive Env where
  | amp
  | mod
deriving DecidableEq, Repr

end Sys2Proof
end

