-- ==== Sys2Proof/Syntax.lean ====
section
/-! DEFINITION. The command set MBS-CMD v1, one constructor per row of `spec/opcode_table.json`
(`30_encoding.md` R76). Operands a command uses are arguments, in the table's order. -/

namespace Sys2Proof

inductive Instr where
  /-- 0x00 NOP (R190). -/
  | nop
  /-- 0x01 RESET (R191). -/
  | reset
  /-- 0x02 SETSR `d0` (R192). -/
  | setsr (sr : P)
  /-- 0x03 PWR `a`, `d0` (R193). -/
  | pwr (i : Byte) (v : P)
  /-- 0x04 PRD `a` (R194). -/
  | prd (i : Byte)
  /-- 0x05 EVT, the three bytes of `d0[23:0]` (R173). -/
  | evt (b0 b1 b2 : Byte)
  /-- 0x06 RENDER `d1`, `d0` (R172). -/
  | render (inL inR : P)
  /-- 0x10 ENV.TICK (R112). -/
  | envTick (e : Env)
  /-- 0x11 ENV.GATE_ON (R113). -/
  | envGateOn (e : Env)
  /-- 0x12 ENV.GATE_OFF (R114). -/
  | envGateOff (e : Env)
  /-- 0x13 ENV.RETRIG (R115). -/
  | envRetrig (e : Env)
  /-- 0x20 VCO.TICK `d0` (R139). -/
  | vcoTick (f : P)
  /-- 0x21 VCO.MOD_PW `d0` (R138). -/
  | vcoModPw (cv : P)
  /-- 0x30 VCF.MOD_FC `d1`, `d0` (R158). -/
  | vcfModFc (cv noteCV : P)
  /-- 0x31 VCF.FILTER `d0` (R159). -/
  | vcfFilter (x : P)
  /-- 0x40 P2F `a` (R170). -/
  | p2f (n : Byte)
  /-- MIDI3, status 0x90: NOTE_ON `b1`; `b2` is never read (R174, R75). -/
  | noteOn (n b2 : Byte)
  /-- MIDI3, status 0x80: NOTE_OFF `b1`; `b2` is never read (R175, R75). -/
  | noteOff (n b2 : Byte)
  /-- MIDI3, any other status: MIDI_IGN (R176). -/
  | midiIgn (b0 b1 b2 : Byte)
deriving DecidableEq, Repr

end Sys2Proof
end

