-- ==== Sys2Proof/WellFormed.lean ====
section
/-! DEFINITION. Which terms of `Instr` stand for a word: all, but a MIDI_IGN whose status byte is that of
NOTE_ON or NOTE_OFF (`30_encoding.md` R74, R76). -/

namespace Sys2Proof

/-- The check of R76's last MIDI row: `b0` is "any other" than 0x90 and 0x80. -/
def Instr.wf : Instr → Bool
  | .nop | .reset | .setsr _ | .pwr _ _ | .prd _ | .evt _ _ _ | .render _ _ => true
  | .envTick _ | .envGateOn _ | .envGateOff _ | .envRetrig _ => true
  | .vcoTick _ | .vcoModPw _ | .vcfModFc _ _ | .vcfFilter _ | .p2f _ => true
  | .noteOn _ _ | .noteOff _ _ => true
  | .midiIgn b0 _ _ => b0 != 0x90 && b0 != 0x80

/-- Well-formed instructions. -/
abbrev WellFormed (i : Instr) : Prop := i.wf = true

end Sys2Proof
end

