-- ==== Sys2Proof/Decode.lean ====
section
/-! DEFINITION. Decoding the formats `CMD80` and `MIDI3`, total on every word, and the encoder
(`30_encoding.md` R70 to R80). No word is rejected: a reserved opcode is a NOP (R78) and every message is one of
the three MIDI forms (R80). -/

namespace Sys2Proof

/-- `w[hi:lo]` with `len = hi - lo + 1` (`00_scope.md` R8). -/
def field {n : Nat} (w : BitVec n) (lo len : Nat) : BitVec len := w.extractLsb' lo len

/-- `op = w[79:72]` (R70). -/
def opOf (w : CmdWord) : Byte := field w 72 8
/-- `a = w[71:64]` (R70). -/
def aOf (w : CmdWord) : Byte := field w 64 8
/-- `d1 = w[63:32]` (R70). -/
def d1Of (w : CmdWord) : P := field w 32 32
/-- `d0 = w[31:0]` (R70). -/
def d0Of (w : CmdWord) : P := field w 0 32
/-- The message of EVT, `m = d0[23:0]` (R72). -/
def msgOf (w : CmdWord) : MidiWord := field w 0 24

/-- `b0 = m[23:16]`, the status byte (R72). -/
def midiB0 (m : MidiWord) : Byte := field m 16 8
/-- `b1 = m[15:8]` (R72). -/
def midiB1 (m : MidiWord) : Byte := field m 8 8
/-- `b2 = m[7:0]` (R72). -/
def midiB2 (m : MidiWord) : Byte := field m 0 8

/-- The envelope select `a[0]`: 0 is `amp`, 1 is `mod`; `a[7:1]` is ignored (R71). -/
def envOf (a : Byte) : Env := if a.getLsbD 0 then .mod else .amp

/-- `decode_midi` of R74: the whole status byte is compared with 144 and 128, no channel mask. -/
def decodeMidiBytes (b0 b1 b2 : Byte) : Instr :=
  if b0 = 0x90 then .noteOn b1 b2
  else if b0 = 0x80 then .noteOff b1 b2
  else .midiIgn b0 b1 b2

/-- A MIDI3 word (R72, R74). -/
def decodeMidi (m : MidiWord) : Instr := decodeMidiBytes (midiB0 m) (midiB1 m) (midiB2 m)

/-- The opcode map R76 by the value of `op`; every other opcode is reserved and is a NOP (R78). Fields a command does
not use are not looked at (R79). -/
def decodeCmd (w : CmdWord) : Instr :=
  match (opOf w).toNat with
  | 0x00 => .nop
  | 0x01 => .reset
  | 0x02 => .setsr (d0Of w)
  | 0x03 => .pwr (aOf w) (d0Of w)
  | 0x04 => .prd (aOf w)
  | 0x05 => .evt (midiB0 (msgOf w)) (midiB1 (msgOf w)) (midiB2 (msgOf w))
  | 0x06 => .render (d1Of w) (d0Of w)
  | 0x10 => .envTick (envOf (aOf w))
  | 0x11 => .envGateOn (envOf (aOf w))
  | 0x12 => .envGateOff (envOf (aOf w))
  | 0x13 => .envRetrig (envOf (aOf w))
  | 0x20 => .vcoTick (d0Of w)
  | 0x21 => .vcoModPw (d0Of w)
  | 0x30 => .vcfModFc (d1Of w) (d0Of w)
  | 0x31 => .vcfFilter (d0Of w)
  | 0x40 => .p2f (aOf w)
  | _ => .nop

/-- A word of one of the two formats. -/
inductive Encoded where
  | cmd80 (w : CmdWord)
  | midi3 (m : MidiWord)
deriving DecidableEq, Repr

/-- Decoding, total (R78, R80). -/
def decode : Encoded → Instr
  | .cmd80 w => decodeCmd w
  | .midi3 m => decodeMidi m

/-! ## The encoder, from the same tables -/

/-- `op[79:72] a[71:64] d1[63:32] d0[31:0]` (R70). -/
def packCmd (op a : Byte) (d1 d0 : P) : CmdWord := op ++ a ++ d1 ++ d0

/-- `m = b0 ++ b1 ++ b2` (R72). -/
def packMidi (b0 b1 b2 : Byte) : MidiWord := b0 ++ b1 ++ b2

/-- `amp` is 0, `mod` is 1 (R71). -/
def envCode : Env → Byte
  | .amp => 0
  | .mod => 1

/-- The word of an instruction; unused fields are zero (R81). -/
def encode : Instr → Encoded
  | .nop => .cmd80 (packCmd 0x00 0 0 0)
  | .reset => .cmd80 (packCmd 0x01 0 0 0)
  | .setsr sr => .cmd80 (packCmd 0x02 0 0 sr)
  | .pwr i v => .cmd80 (packCmd 0x03 i 0 v)
  | .prd i => .cmd80 (packCmd 0x04 i 0 0)
  | .evt b0 b1 b2 => .cmd80 (packCmd 0x05 0 0 ((packMidi b0 b1 b2).setWidth 32))
  | .render inL inR => .cmd80 (packCmd 0x06 0 inL inR)
  | .envTick e => .cmd80 (packCmd 0x10 (envCode e) 0 0)
  | .envGateOn e => .cmd80 (packCmd 0x11 (envCode e) 0 0)
  | .envGateOff e => .cmd80 (packCmd 0x12 (envCode e) 0 0)
  | .envRetrig e => .cmd80 (packCmd 0x13 (envCode e) 0 0)
  | .vcoTick f => .cmd80 (packCmd 0x20 0 0 f)
  | .vcoModPw cv => .cmd80 (packCmd 0x21 0 0 cv)
  | .vcfModFc cv noteCV => .cmd80 (packCmd 0x30 0 cv noteCV)
  | .vcfFilter x => .cmd80 (packCmd 0x31 0 0 x)
  | .p2f n => .cmd80 (packCmd 0x40 n 0 0)
  | .noteOn n b2 => .midi3 (packMidi 0x90 n b2)
  | .noteOff n b2 => .midi3 (packMidi 0x80 n b2)
  | .midiIgn b0 b1 b2 => .midi3 (packMidi b0 b1 b2)

/-- The command word that brings a word to the command port: a MIDI3 message reaches the core as the operand of EVT
(R72). -/
def carry : Encoded → CmdWord
  | .cmd80 w => w
  | .midi3 m => packCmd 0x05 0 0 (m.setWidth 32)

/-- The word the opcode table numbers with `nbits` bits: 24 for a MIDI3 row, 80 for a CMD80 row. -/
def tableWord (nbits w : Nat) : Encoded :=
  if nbits ≤ 24 then .midi3 (BitVec.ofNat 24 w) else .cmd80 (BitVec.ofNat 80 w)

/-- The instruction the decoder reads from a table row's word; nothing is longer than 80 bits. -/
def decodeTableWord (nbits w : Nat) : Option Instr :=
  if nbits ≤ 80 then some (decode (tableWord nbits w)) else none

end Sys2Proof
end

