-- ==== Sys2Proof/Config.lean ====
section
/-! DEFINITION. What an implementation fixes (`00_scope.md` R5, rows OPEN) and the free values: constants with no
body, so that no proof can see one. Each code below is a Nat that the machine folds into the set of values the spec
allows at that point (`Machine/Num.lean`), so every allowed value is some code. -/

namespace Sys2Proof

/-- The OPEN implementation parameters of `00_scope.md` R5, and the underflow treatment of U10.
A state carries one such record and no step writes it, so a claim over every state is a claim over every choice
of the parameters. DESIGN CHOICE, notes/assumptions/8.md. -/
structure Params where
  /-- `FMT`, the format of internal state and arithmetic. -/
  fmt : Format
  /-- Gradual underflow or flush to zero (U10). -/
  underflow : Underflow
  /-- `CNT_W`, the width in bits of `vco.n`. -/
  cntW : Nat
  /-- `NOTE_RESET`, the held note after reset. -/
  noteReset : Byte
  /-- `P_RESET[0..19]`, the parameter store at power-on. -/
  pReset : Vector P 20
deriving DecidableEq, Repr

/-- `NOTE_RESET` of the machine: OPEN, any value 0..255 (R5, D14). DESIGN CHOICE uninterpreted, notes/assumptions/9.md. -/
opaque Config.noteReset : Byte

/-- `P_RESET[0..19]` of the machine: OPEN (R5, D9). DESIGN CHOICE uninterpreted, notes/assumptions/9.md. -/
opaque Config.pReset : Vector P 20

/-- The parameters of the machine at power-on: R5's defaults binary32 and `CNT_W` = 64. DESIGN CHOICE
(unsafe for a machine with other parameters, see notes/assumptions/8.md). -/
def Config.params : Params :=
  { fmt := .binary32, underflow := .gradual, cntW := 64,
    noteReset := Config.noteReset, pReset := Config.pReset }

/-! The primitives of `num` whose accuracy the spec leaves open (`40_numerics.md` R92, R94 to R99; U11), as codes that
depend on the operand alone. UNVERIFIED by design: notes/assumptions/11.md. The code of `tanh` is a non-decreasing function of the
operand's magnitude pattern, the part of R95's "strictly increasing" that a format can hold (notes/assumptions/22.md). -/

opaque Config.exp : Params → F → Nat
opaque Config.tanh : Params → Nat →o Nat
opaque Config.sin : Params → F → Nat
opaque Config.cos : Params → F → Nat
opaque Config.acos : Params → F → Nat
opaque Config.pow2 : Params → F → Nat

/-! The free values, indexed by the plain counter `State.free` (notes/assumptions/7.md). -/

/-- The draws of agent `NZ` (U13): notes/assumptions/6.md. -/
opaque Config.draw : Nat → Nat
/-- How many pending writes of `HU` a racing read counts (U14): notes/assumptions/14.md. -/
opaque Config.race : Nat → Nat
/-- `sign(NaN)` (U4): notes/assumptions/12.md. -/
opaque Config.signOfNaN : Nat → Nat
/-- Sign and payload of a NaN on a port (U12): notes/assumptions/10.md. -/
opaque Config.nanBits : Nat → Nat
/-- What `SR` holds while it has "no value" (U1): notes/assumptions/3.md. -/
opaque Config.srUnwritten : Nat → Nat
/-- What `vco.pw` holds while it has "no value" (U1): notes/assumptions/3.md. -/
opaque Config.pwUnwritten : Nat → Nat
/-- What `vcf.fc` holds while it has "no value" (U1): notes/assumptions/3.md. -/
opaque Config.fcUnwritten : Nat → Nat

end Sys2Proof
end

