-- ==== Sys2Proof/Machine/Num.lean ====
section
/-! DEFINITION. The numeric layer: the record `num` of `40_numerics.md` R92 in the machine reading (R90), for both
formats. Operands are exact numbers, computed exactly and rounded once (R93); nothing traps and no flag is kept (R100).
Evaluation order is the caller's, one operation per operator (R101). -/

namespace Sys2Proof.Machine.Num

/-! ## The two formats (IEEE 754 binary32 and binary64, K1, K2) -/

/-- Significand bits. -/
def prec : Format → Nat
  | .binary32 => 24
  | .binary64 => 53

/-- Fraction bits of the bit pattern. -/
def fracBits : Format → Nat
  | .binary32 => 23
  | .binary64 => 52

/-- Exponent bits of the bit pattern. -/
def expBits : Format → Nat
  | .binary32 => 8
  | .binary64 => 11

/-- Exponent bias. -/
def bias : Format → Nat
  | .binary32 => 127
  | .binary64 => 1023

/-- Exponent of the unit in the last place of subnormal numbers. -/
def minExp : Format → Int
  | .binary32 => -149
  | .binary64 => -1074

/-- Largest `floor(log2)` of a finite number. -/
def maxLog : Format → Int
  | .binary32 => 127
  | .binary64 => 1023

/-! ## Canonical form -/

/-- Halve an even significand, at most `k` times. -/
def strip : Nat → Bool → Nat → Int → F
  | 0, neg, m, e => .fin neg m e
  | k + 1, neg, m, e => if m % 2 = 0 then strip k neg (m / 2) (e + 1) else .fin neg m e

/-- The datum `(-1)^neg * m * 2^e` in canonical form. -/
def mk (neg : Bool) (m : Nat) (e : Int) : F :=
  if m = 0 then .fin neg 0 0 else strip m.log2 neg m e

/-- A datum that format `f` can hold, in canonical form. -/
def representable (f : Format) : F → Bool
  | .nan => true
  | .inf _ => true
  | .fin _ m e =>
    if m = 0 then e == 0
    else m % 2 == 1 && decide (m < 2 ^ prec f) && decide (minExp f ≤ e) && decide ((m.log2 : Int) + e ≤ maxLog f)

/-- Neither an infinity nor a NaN (`60_exceptions.md` R211). -/
def isFinite : F → Bool
  | .fin _ _ _ => true
  | _ => false

/-- NaN. -/
def isNaN : F → Bool
  | .nan => true
  | _ => false

/-! ## Rounding: to nearest, ties to even (R93) -/

/-- The integer nearest to `n / d`, ties to even. -/
def roundHalfEven (n d : Nat) : Nat :=
  let q := n / d
  let r := n % d
  if 2 * r < d ∨ (2 * r = d ∧ q % 2 = 0) then q else q + 1

/-- `floor(log2 (n / d * 2^e))` for positive `n`, `d`. -/
def ilog2 (n d : Nat) (e : Int) : Int :=
  let g : Int := (n.log2 : Int) - (d.log2 : Int)
  (if d <<< g.toNat ≤ n <<< (-g).toNat then g else g - 1) + e

/-- `(-1)^neg * n / d * 2^e` rounded to format `f`: overflow gives an infinity of the sign, and a subnormal result is
kept or becomes a zero of the sign as `u` says (R93, U10). -/
def roundQ (f : Format) (u : Underflow) (neg : Bool) (n d : Nat) (e : Int) : F :=
  if n = 0 then .fin neg 0 0
  else
    let q := max (ilog2 n d e - (prec f - 1 : Nat)) (minExp f)
    let k := roundHalfEven (n <<< (e - q).toNat) (d <<< (q - e).toNat)
    if u = .flush ∧ k < 2 ^ (prec f - 1) then .fin neg 0 0
    else if maxLog f < (k.log2 : Int) + q then .inf neg
    else mk neg k q

/-! ## Bit patterns -/

/-- The datum of sign `neg` and magnitude pattern `mag` (exponent and fraction fields) of format `f`. -/
def ofMag (f : Format) (neg : Bool) (mag : Nat) : F :=
  let ex := mag / 2 ^ fracBits f
  let fr := mag % 2 ^ fracBits f
  if ex = 2 ^ expBits f - 1 then (if fr = 0 then .inf neg else .nan)
  else if ex = 0 then mk neg fr (minExp f)
  else mk neg (2 ^ fracBits f + fr) (minExp f + ex - 1)

/-- Magnitude pattern of `+inf`. -/
def infMag (f : Format) : Nat := (2 ^ expBits f - 1) * 2 ^ fracBits f

/-- Magnitude pattern of `2^k`, a normal number. -/
def pow2Mag (f : Format) (k : Int) : Nat := (k + bias f).toNat * 2 ^ fracBits f

/-- Magnitude pattern of `PI`, the value nearest to pi (R91). -/
def piMag : Format → Nat
  | .binary32 => 0x40490FDB
  | .binary64 => 0x400921FB54442D18

/-- `toF`: a port value as a datum, exact in either format (R9, R52, R99). -/
def toF (w : P) : F := ofMag .binary32 (w.getLsbD 31) (w.toNat % 2 ^ 31)

/-- Magnitude pattern of the positive number `m * 2^e` of format `f`: `ofMag` read backwards. -/
def magOf (f : Format) (m : Nat) (e : Int) : Nat :=
  let l : Int := (m.log2 : Int) + e
  if minExp f + fracBits f ≤ l then (l + bias f).toNat * 2 ^ fracBits f + (m <<< (fracBits f - m.log2) - 2 ^ fracBits f)
  else m <<< (e - minExp f).toNat

/-- A sign bit and a magnitude pattern as a port value (R52). -/
def packP (neg : Bool) (mag : Nat) : P := BitVec.ofNat 32 ((if neg then 2 ^ 31 else 0) + mag)

/-- Some binary32 NaN pattern; which one is free (U12, notes/assumptions/10.md). -/
def nanPattern (code : Nat) : P :=
  packP (code % 2 == 1) (infMag .binary32 + 1 + code / 2 % (2 ^ 23 - 1))

/-- `toP`: rounds to nearest even, overflowing to an infinity, NaN to a NaN (R99). Subnormal port values are kept, so
that `toP(toF(p)) = p` (V-NUM-3). -/
def toP (nanCode : Nat) (x : F) : P :=
  match x with
  | .nan => nanPattern nanCode
  | .inf neg => packP neg (infMag .binary32)
  | .fin neg m e =>
    match roundQ .binary32 .gradual neg m 1 e with
    | .nan => nanPattern nanCode
    | .inf neg' => packP neg' (infMag .binary32)
    | .fin neg' m' e' => if m' = 0 then packP neg' 0 else packP neg' (magOf .binary32 m' e')

/-! ## Values chosen by a code: every value of the named set is some code's -/

/-- Any datum of format `f`. -/
def anyF (f : Format) (code : Nat) : F :=
  ofMag f (code % 2 == 1) (code / 2 % 2 ^ (expBits f + fracBits f))

/-- Any finite datum of format `f`. -/
def anyFinite (f : Format) (code : Nat) : F := ofMag f (code % 2 == 1) (code / 2 % infMag f)

/-- Any datum of sign `neg` with magnitude pattern from `lo` to `hi`. -/
def inMag (f : Format) (neg : Bool) (lo hi code : Nat) : F := ofMag f neg (lo + code % (hi - lo + 1))

/-- Any datum in the closed interval [-1, 1]. -/
def anyUnit (f : Format) (code : Nat) : F := inMag f (code % 2 == 1) 0 (pow2Mag f 0) (code / 2)

/-! ## Constants (R91, R5) -/

/-- A small integer literal; exact in both formats (R91). -/
def lit (n : Nat) : F := mk false n 0
/-- The literal -1 (R116). -/
def minusOne : F := .fin true 1 0
/-- The literal 0.5. -/
def half : F := .fin false 1 (-1)
/-- `+0.0`. -/
def zero : F := .fin false 0 0
/-- `THRESH`: the `FMT` value nearest to 0.98 (R5, R91). -/
def thresh (p : Params) : F := roundQ p.fmt .gradual false 98 100 0
/-- `PI` (R91). -/
def pi (p : Params) : F := ofMag p.fmt false (piMag p.fmt)
/-- `MIX_DIV` (R5). -/
def mixDiv : F := lit 5
/-- `FB_GAIN` (R5). -/
def fbGain : F := lit 14
/-- `COMP_A` (R5). -/
def compA : F := half
/-- `COMP_B` (R5). -/
def compB : F := lit 20
/-- `KBD_SCALE` (R5). -/
def kbdScale : F := lit 10
/-- `A4_HZ` (R5). -/
def a4Hz : F := lit 440
/-- `A4_NOTE` (R5). -/
def a4Note : F := lit 69
/-- `SEMIS` (R5). -/
def semis : F := lit 12

/-! ## Arithmetic (R93) -/

/-- A signed integer from sign and magnitude. -/
def signed (neg : Bool) (m : Nat) : Int := if neg then -(m : Int) else m

/-- The two finite numbers as integers over one power of two. -/
def aligned (neg : Bool) (m : Nat) (e e0 : Int) : Int := signed neg (m <<< (e - e0).toNat)

/-- Change of sign. -/
def negate : F → F
  | .nan => .nan
  | .inf neg => .inf (!neg)
  | .fin neg m e => .fin (!neg) m e

/-- `num.add`. An exact zero sum is +0 unless both operands are negative zeros. -/
def add (p : Params) : F → F → F
  | .nan, _ => .nan
  | _, .nan => .nan
  | .inf a, .inf b => if a = b then .inf a else .nan
  | .inf a, .fin _ _ _ => .inf a
  | .fin _ _ _, .inf b => .inf b
  | .fin a m e, .fin b k d =>
    let e0 := min e d
    let s := aligned a m e e0 + aligned b k d e0
    if s = 0 then .fin (a && b) 0 0
    else roundQ p.fmt p.underflow (decide (s < 0)) s.natAbs 1 e0

/-- `num.sub`: the sum with the second operand's sign changed. -/
def sub (p : Params) (x y : F) : F := add p x (negate y)

/-- `num.mul`. -/
def mul (p : Params) : F → F → F
  | .nan, _ => .nan
  | _, .nan => .nan
  | .inf a, .inf b => .inf (a != b)
  | .inf a, .fin b k _ => if k = 0 then .nan else .inf (a != b)
  | .fin a m _, .inf b => if m = 0 then .nan else .inf (a != b)
  | .fin a m e, .fin b k d => roundQ p.fmt p.underflow (a != b) (m * k) 1 (e + d)

/-- `num.div`. Division by zero gives an infinity of the quotient's sign, or NaN for 0/0. -/
def div (p : Params) : F → F → F
  | .nan, _ => .nan
  | _, .nan => .nan
  | .inf _, .inf _ => .nan
  | .inf a, .fin b _ _ => .inf (a != b)
  | .fin a _ _, .inf b => .fin (a != b) 0 0
  | .fin a m e, .fin b k d =>
    if k = 0 then (if m = 0 then .nan else .inf (a != b))
    else roundQ p.fmt p.underflow (a != b) m k (e - d)

/-! ## Comparisons (R104): false whenever an operand is NaN; +0 == -0 -/

/-- `x < y`. -/
def lt : F → F → Bool
  | .nan, _ => false
  | _, .nan => false
  | .inf a, .inf b => a && !b
  | .inf a, .fin _ _ _ => a
  | .fin _ _ _, .inf b => !b
  | .fin a m e, .fin b k d => decide (aligned a m e (min e d) < aligned b k d (min e d))

/-- `x > y`. -/
def gt (x y : F) : Bool := lt y x

/-- `x == y`. -/
def eq : F → F → Bool
  | .nan, _ => false
  | _, .nan => false
  | .inf a, .inf b => a == b
  | .inf _, .fin _ _ _ => false
  | .fin _ _ _, .inf _ => false
  | .fin a m e, .fin b k d => decide (aligned a m e (min e d) = aligned b k d (min e d))

/-- `x <= y`, as `x < y` or `x == y`. -/
def le (x y : F) : Bool := lt x y || eq x y

/-! ## Conversions and exact functions (R98, R99) -/

/-- `u2f`: the nearest datum to a natural number, ties to even (R99). -/
def u2f (p : Params) (n : Nat) : F := roundQ p.fmt .gradual false n 1 0

/-- `floor`: the largest integer not greater than `x` (R98); a zero result keeps the operand's sign
(PRESUMED IEEE 754, notes/assumptions/21.md). -/
def floor (p : Params) : F → F
  | .nan => .nan
  | .inf neg => .inf neg
  | .fin neg m e =>
    if 0 ≤ e then .fin neg m e
    else
      let s := (-e).toNat
      roundQ p.fmt .gradual neg (if neg then (m + (2 ^ s - 1)) / 2 ^ s else m / 2 ^ s) 1 0

/-- The four values U4 allows for `sign(NaN)` (notes/assumptions/12.md). -/
def signOfNaN (code : Nat) : F :=
  match code % 4 with
  | 0 => minusOne
  | 1 => zero
  | 2 => lit 1
  | _ => .nan

/-- `sign`: +1, -1, +0 for either zero (R99); `nanCode` chooses `sign(NaN)`. -/
def sign (nanCode : Nat) (x : F) : F :=
  match x with
  | .nan => signOfNaN nanCode
  | .inf neg => if neg then minusOne else lit 1
  | .fin neg m _ => if m = 0 then zero else if neg then minusOne else lit 1

/-! ## The uninterpreted functions (notes/assumptions/11.md): free but for what R94 to R99 state of each; what is read into those
rules by inference, and the one property R170 states instead, is named at each function and in notes/assumptions/22.md. -/

/-- `exp` (R94): the special values; for finite `x < 0` a value in [0, 1]; for finite `x > 0`, where R94 states nothing, any value. -/
def exp (p : Params) : F → F
  | .nan => .nan
  | .inf neg => if neg then zero else .inf false
  | .fin neg m e =>
    if m = 0 then lit 1
    else if neg then inMag p.fmt false 0 (pow2Mag p.fmt 0) (Config.exp p (.fin neg m e))
    else anyF p.fmt (Config.exp p (.fin neg m e))

/-- The smallest magnitude pattern `tanh` may give for the operand `m * 2^e`: nonzero (R95: "strictly increasing" from `tanh(+0) = +0`),
but for a subnormal operand, whose result an implementation may flush to zero (U10). -/
def tanhFloor (f : Format) (m : Nat) (e : Int) : Nat :=
  if (m.log2 : Int) + e < minExp f + (prec f - 1 : Nat) then 0 else 1

/-- The magnitude pattern of `tanh` of the number `m * 2^e`: at least `tanhFloor`, at most that of 1, never decreasing. -/
def tanhMag (p : Params) (m : Nat) (e : Int) : Nat :=
  max (tanhFloor p.fmt m e) (min (pow2Mag p.fmt 0) (Config.tanh p (magOf p.fmt m e)))

/-- `tanh` (R95): odd, the special values, and "strictly increasing" as far as a format allows. DEDUCED (notes/assumptions/22.md): no
format has as many values in (0, 1] as above 0, so two operands may share a result; the model keeps `tanh` non-decreasing, of magnitude
at most `tanh(+inf) = 1`, and nonzero for a normal operand. -/
def tanh (p : Params) : F → F
  | .nan => .nan
  | .inf neg => if neg then minusOne else lit 1
  | .fin neg m e =>
    if m = 0 then .fin neg 0 0
    else ofMag p.fmt neg (tanhMag p m e)

/-- `sin` (R96): `sin(+0) = +0`, NaN for an infinite or NaN argument, else a finite value (DEDUCED from U4, notes/assumptions/22.md). -/
def sin (p : Params) : F → F
  | .nan => .nan
  | .inf _ => .nan
  | .fin neg m e => if m = 0 ∧ neg = false then zero else anyFinite p.fmt (Config.sin p (.fin neg m e))

/-- `cos` (R96, R97): `cos(0) = 1`, NaN for an infinite or NaN argument, else a value in [-1, 1]. -/
def cos (p : Params) : F → F
  | .nan => .nan
  | .inf _ => .nan
  | .fin neg m e => if m = 0 then lit 1 else anyUnit p.fmt (Config.cos p (.fin neg m e))

/-- `acos` (R97): `acos(1) = +0`, `acos(-1) = PI`, NaN outside [-1, 1], else a value in [0, PI]. -/
def acos (p : Params) (x : F) : F :=
  if le minusOne x && le x (lit 1) then
    if eq x (lit 1) then zero
    else if eq x minusOne then pi p
    else inMag p.fmt false 0 (piMag p.fmt) (Config.acos p x)
  else .nan

/-- The operand of `pow2` in P2F: `(u2f(n) - 69) / 12` (R170). -/
def pitchOperand (p : Params) (n : Nat) : F := div p (sub p (u2f p n) a4Note) semis

/-- Finite and `> 0`. -/
def positive (x : F) : Bool := isFinite x && lt zero x

/-- `pow2` (R99): `pow2(+0) = 1` and `pow2(1) = 2`, else any value, NaN for NaN among them, which R99 leaves open; except that at the
operands of the 256 pitches the product with 440 is finite and positive (R170: "always finite and `> 0`"; notes/assumptions/22.md).
A code that would break that one property stands for 1. -/
def pow2 (p : Params) (x : F) : F :=
  if x = zero then lit 1
  else if x = lit 1 then lit 2
  else
    let y := anyF p.fmt (Config.pow2 p x)
    if ((List.range 256).any fun n => x = pitchOperand p n) && !positive (mul p y a4Hz) then lit 1 else y

/-- A draw of agent `NZ`: any value in the closed interval [-1, 1] (R10, R135; notes/assumptions/6.md). -/
def draw (p : Params) (k : Nat) : F := anyUnit p.fmt (Config.draw k)

end Sys2Proof.Machine.Num
end

