-- ==== Sys2Proof/Machine/State.lean ====
section
/-! DEFINITION. The state of MBS-CORE (`10_state.md` R20 to R45), the ports beside it, and the state after power-on.
Plain data; there is no program counter (R21) and no byte-addressed memory (`20_memory.md` R50). -/

namespace Sys2Proof.Machine

/-- ADSR phase: exactly three values (R28). -/
inductive Phase where
  | attack
  | decaySustain
  | release
deriving DecidableEq, Repr

/-- The registers of one ADSR instance (R26). -/
structure EnvRegs where
  /-- "boolean signal indicating a note is currently held". -/
  gate : Bool
  phase : Phase
  /-- "output level". -/
  out : F
deriving DecidableEq, Repr

/-- The registers of one LPF1 stage (R30): `y` is `yPrev`, "integrator output"; `u` is `uPrev`, "intermediate value". -/
structure StageRegs where
  y : F
  u : F
deriving DecidableEq, Repr

/-- The eleven filter registers (R30). Entry `i - 1` of `st` is the spec's `st[i]`, in cascade order. -/
structure FilterRegs where
  st : Vector StageRegs 4
  /-- `d[2]`: the output of stage 2 at the previous sample. -/
  d2 : F
  /-- `d[3]`. -/
  d3 : F
  /-- `d[4]`, MBS's `previousLadderOutput` (R156). -/
  d4 : F
deriving DecidableEq, Repr

/-- A register that holds "no value" after RESET until a command writes it (R45): what it holds, and whether a command
has written it since. While `written` is false, `value` is a free value: "what the hardware returns is unspecified" (R45, U1;
notes/assumptions/3.md). -/
structure OpenReg where
  value : F
  written : Bool
deriving DecidableEq, Repr

/-- A parameter write of `HU` that has begun and not ended (`20_memory.md` R56, R57): its index, its value, and whether
it has taken effect already (some read counted it, or a later write has completed). -/
structure Write where
  idx : Fin 20
  val : P
  landed : Bool
deriving DecidableEq, Repr

/-- What arrives at the core, in order (`00_scope.md` R7, `20_memory.md` R50; notes/assumptions/1.md). -/
inductive PortEvent where
  /-- A command word is issued and runs to completion (R7 (a); a PWR or PRD that races with nothing, R7 (b)). -/
  | command (w : CmdWord)
  /-- `HU` begins a parameter write that overlaps the commands up to its end (R56). -/
  | writeBegins (i : Byte) (v : P)
  /-- The oldest parameter write in flight completes (R57). -/
  | writeEnds
  /-- `HU` reads parameter `i` while a command runs, between two of its own writes that the command overlaps (R6, R56). -/
  | readOverlaps (i : Byte)
deriving DecidableEq, Repr

/-- The result port (`30_encoding.md` R73): a command that returns nothing gives no result. -/
inductive Result where
  | none
  /-- `r0` alone; `r1` is not meaningful. -/
  | single (r0 : P)
  /-- `r1` (left) and `r0` (right) of a RENDER. -/
  | stereo (r1 r0 : P)
deriving DecidableEq, Repr

/-- The state: the 22 core registers of R20, the parameter store, the writes in flight, the ports, the parameters of
the implementation, and the model's own index of free values. -/
structure State where
  /-- The implementation parameters (R5), never written by a step. -/
  par : Params
  /-- `SR`, the sample rate in Hz (R23). -/
  sr : OpenReg
  /-- `vco.n`, the sample counter of `CNT_W` bits (R24). -/
  n : Nat
  /-- `vco.pw`, the modulated pulse width (R25). -/
  pw : OpenReg
  /-- `env[amp]` (R26). -/
  amp : EnvRegs
  /-- `env[mod]` (R26). -/
  mod : EnvRegs
  /-- The eleven filter registers (R30). -/
  filt : FilterRegs
  /-- `vcf.fc`, the carried cutoff in Hz (R31). -/
  fc : OpenReg
  /-- `note`, the held note (R32). -/
  note : Byte
  /-- The parameter store `P[0..19]` (R33): what a read that races with nothing returns. -/
  store : Vector P 20
  /-- Parameter writes of `HU` in flight, oldest first (R56 to R58). -/
  inFlight : List Write
  /-- Pending port events, next first (R7, R50). -/
  port : List PortEvent
  /-- The result of the latest command (R73). -/
  res : Result
  /-- The MODEL's own field: the index of the next free value (notes/assumptions/7.md). -/
  free : Nat
deriving DecidableEq, Repr

/-- The hardware raises no exception and signals no fault of any kind (`60_exceptions.md` R210; `93_implementation_defined.md`:
"`fault` ... never used here"), so there is no reason a step could stop with. Nobody raises one; safe. -/
inductive Fault where
deriving DecidableEq, Repr

/-- Why a step could be refused. -/
inductive Refusal where
  /-- Raised only by an arm of `exec` whose instruction has no meaning yet. Safe: the model stops where the hardware goes on.
  No arm raises it: every row of the opcode table has its meaning. -/
  | notModelled (mnemonic : String)
  /-- Item 4 of R213: VCO.TICK or RENDER with `vco.n = 2^CNT_W - 1` (R24). Safe:
  "a model must not compute a result (errs toward unprovable)". -/
  | counterExhausted
deriving DecidableEq, Repr

/-- An envelope at rest: gate false, Release, +0.0 (R45). -/
def EnvRegs.rest : EnvRegs := { gate := false, phase := .release, out := Num.zero }

/-- The filter registers after reset: all eleven +0.0 (R45). -/
def FilterRegs.cleared : FilterRegs :=
  { st := Vector.replicate 4 { y := Num.zero, u := Num.zero }, d2 := Num.zero, d3 := Num.zero, d4 := Num.zero }

/-- A register with "no value": it holds the free value of code `code` (R45, U1; notes/assumptions/3.md). -/
def OpenReg.unwritten (p : Params) (code : Nat) : OpenReg := { value := Num.anyF p.fmt code, written := false }

/-- The machine at power-on with the parameters `par` (R45, `70_reset_and_hazards.md` R230, R231): the store holds `P_RESET`,
nothing is in flight, no event is pending, and no result stands on the port. -/
def State.powerOn (par : Params) : State :=
  { par := par
    sr := .unwritten par (Config.srUnwritten 0)
    n := 0
    pw := .unwritten par (Config.pwUnwritten 0)
    amp := .rest
    mod := .rest
    filt := .cleared
    fc := .unwritten par (Config.fcUnwritten 0)
    note := par.noteReset
    store := par.pReset
    inFlight := []
    port := []
    res := .none
    free := 1 }

/-- The machine right after power-on, with the default parameters of R5 (notes/assumptions/8.md). -/
def State.reset : State := .powerOn Config.params

end Sys2Proof.Machine
end

