-- ==== Sys2Proof/Machine/Ops.lean ====
section
/-! DEFINITION. The shared operations over registers, parameter store and ports. There is no exception to take and none to
return from: "There is no trap entry: no state is saved, no mode changes" (`60_exceptions.md` R217, R218). -/

namespace Sys2Proof.Machine

/-! ## Registers -/

/-- `env[e]` (R26). -/
def State.env (s : State) : Env → EnvRegs
  | .amp => s.amp
  | .mod => s.mod

/-- `env[e] <- r`; the two instances share no state (R26). -/
def State.setEnv (s : State) (e : Env) (r : EnvRegs) : State :=
  match e with
  | .amp => { s with amp := r }
  | .mod => { s with mod := r }

/-- `SR <- v` (R23). -/
def State.setSr (s : State) (v : F) : State := { s with sr := { value := v, written := true } }

/-- `vco.pw <- v` (R25). -/
def State.setPw (s : State) (v : F) : State := { s with pw := { value := v, written := true } }

/-- `vcf.fc <- v` (R31). -/
def State.setFc (s : State) (v : F) : State := { s with fc := { value := v, written := true } }

/-- The filter registers (R30). -/
def State.setFilt (s : State) (r : FilterRegs) : State := { s with filt := r }

/-- `note <- n` (R32). -/
def State.setNote (s : State) (n : Byte) : State := { s with note := n }

/-- `vco.n <- vco.n + 1` (R24, R103). -/
def State.tickCount (s : State) : State := { s with n := s.n + 1 }

/-- The counter is below `2^CNT_W - 1` (R24). -/
def State.canCount (s : State) : Bool := decide (s.n + 1 < 2 ^ s.par.cntW)

/-- `k` indices of free values have been used (notes/assumptions/7.md). -/
def State.useFree (s : State) (k : Nat) : State := { s with free := s.free + k }

/-! ## The parameter store (`20_memory.md` R51 to R60) -/

/-- `PSet(i, v)`: what later reads return (R10). -/
def State.setStore (s : State) (i : Fin 20) (v : P) : State := { s with store := s.store.set i v }

/-- The values of the writes to `i` in flight that have not taken effect, oldest first. -/
def pending (i : Fin 20) (ws : List Write) : List P :=
  (ws.filter fun w => w.idx = i && !w.landed).map (·.val)

/-- The oldest `c` writes to `i` that have not taken effect do so. -/
def land (i : Fin 20) : Nat → List Write → List Write
  | 0, ws => ws
  | _, [] => []
  | c + 1, w :: ws =>
    if w.idx = i && !w.landed then { w with landed := true } :: land i c ws else w :: land i (c + 1) ws

/-- A write of `HU` begins (R56); an index that does not exist is ignored (R51). -/
def State.beginWrite (s : State) (i : Byte) (v : P) : State :=
  if h : i.toNat < 20 then { s with inFlight := s.inFlight ++ [{ idx := ⟨i.toNat, h⟩, val := v, landed := false }] } else s

/-- The oldest write in flight completes: every later read sees it or a later one of the same index (R57). -/
def State.endWrite (s : State) : State :=
  match s.inFlight with
  | [] => s
  | w :: ws =>
    if w.landed then { s with inFlight := ws }
    else { s with inFlight := ws, store := s.store.set w.idx w.val }

/-- A whole parameter write (R193): it completes at once and comes after every write to the same index that has begun (R57,
notes/assumptions/15.md); an index that does not exist is ignored (R51). -/
def State.writeParam (s : State) (i : Byte) (v : P) : State :=
  if h : i.toNat < 20 then
    let j : Fin 20 := ⟨i.toNat, h⟩
    { s with store := s.store.set j v, inFlight := land j (pending j s.inFlight).length s.inFlight }
  else s

/-- How many of the pending writes a racing read counts: any number of the oldest (U14). -/
def raceChoice (m k : Nat) : Nat := Config.race k % (m + 1)

/-- One read event of `P[i]` (R56): old or new. With no write to `i` in flight it returns the stored value and changes nothing
(R55); otherwise it counts some number of the oldest pending writes, freely chosen, and these have then taken effect, so that no
later read returns an older value (R57). -/
def State.readParam (s : State) (i : Fin 20) : P × State :=
  match pending i s.inFlight with
  | [] => (s.store[i], s)
  | v :: vs =>
    let c := raceChoice (vs.length + 1) s.free
    let x := if c = 0 then s.store[i] else (v :: vs).getD (c - 1) v
    (x, { s with store := s.store.set i x, inFlight := land i c s.inFlight, free := s.free + 1 })

/-- What `HU` reads of its own writes: it is one thread, so each of them has completed when it goes on to read (R57), and the latest
to index `i` is what it sees, while a command of `CORE` that runs meanwhile may still see an older one. An index that does not exist
reads as +0.0 (R51). -/
def State.latest (s : State) (i : Byte) : P :=
  if h : i.toNat < 20 then (pending ⟨i.toNat, h⟩ s.inFlight).getLast?.getD s.store[i.toNat] else 0

/-- No write to any index is in flight with an effect still to come: no read races (R58). -/
def State.quiet (s : State) : Bool := s.inFlight.all (·.landed)

/-! ## Ports -/

/-- A value in `r0` (R73). -/
def State.returnOne (s : State) (v : F) : State :=
  { s with res := .single (Num.toP (Config.nanBits s.free) v), free := s.free + 1 }

/-- A parameter value in `r0`, "the stored bit pattern, unchanged" (R194). -/
def State.returnPattern (s : State) (v : P) : State := { s with res := .single v }

/-- The same value in `r1` and `r0` (R73, R172). -/
def State.returnStereo (s : State) (v : F) : State :=
  let o := Num.toP (Config.nanBits s.free) v
  { s with res := .stereo o o, free := s.free + 1 }

/-! ## Completing a tick -/

/-- A command that counts, issued in state `s`, completes in state `t`; with the counter at its maximum "the next VCO.TICK is outside
this spec" (R24), and the command is refused before any state change (`60_exceptions.md` R213 item 4). -/
def State.completeTick (s t : State) : Host.Outcome State Fault Refusal :=
  if s.canCount then .next t else .refused .counterExhausted

/-! ## Fetching -/

/-- What the next port event asks for. -/
inductive Fetched where
  /-- Nothing is pending: the core waits for commands (R232). -/
  | idle
  /-- A command, and the state in which it runs. -/
  | run (i : Instr) (s : State)
  /-- An event of `HU` alone, and the state after it. -/
  | environment (s : State)

/-- The event is taken from the port, and the result of the command before has gone (R73, notes/assumptions/18.md). -/
def State.taken (s : State) (rest : List PortEvent) : State := { s with port := rest, res := .none }

/-- Take the next event (R7, R59). A command word is latched whole (R63) and decoded (R70). -/
def fetch (s : State) : Fetched :=
  match s.port with
  | [] => .idle
  | .command w :: rest => .run (decodeCmd w) (s.taken rest)
  | .writeBegins i v :: rest => .environment ((s.taken rest).beginWrite i v)
  | .writeEnds :: rest => .environment (s.taken rest).endWrite
  | .readOverlaps i :: rest => .environment ((s.taken rest).returnPattern (s.latest i))

/-- Put a word in front of everything pending on the command port; a MIDI3 word is carried by EVT (R72). -/
def State.pushWord (s : State) (w : Encoded) : State := { s with port := .command (carry w) :: s.port }

end Sys2Proof.Machine
end

