-- ==== Sys2Proof/Machine/Operands.lean ====
section
/-! DEFINITION. Operand forms: port floats, parameter indices and parameter reads as floats
(`10_state.md` R35, `30_encoding.md` R71). -/

namespace Sys2Proof.Machine

/-! ## The parameter index map (R35) -/

def pSawRate : Fin 20 := 0
def pTriRate : Fin 20 := 1
def pSquareRate : Fin 20 := 2
def pSubRate : Fin 20 := 3
def pNoiseRate : Fin 20 := 4
def pPulseWidth : Fin 20 := 5
def pPwModDepth : Fin 20 := 6
/-- Stored, read back and read by no core rule (R36). -/
def pOscUnassigned : Fin 20 := 7
def pAmpAttack : Fin 20 := 8
def pAmpDecay : Fin 20 := 9
def pAmpSustain : Fin 20 := 10
def pAmpRelease : Fin 20 := 11
def pCutoff : Fin 20 := 12
def pResonance : Fin 20 := 13
def pCutoffModDepth : Fin 20 := 14
def pKbdFollowDepth : Fin 20 := 15
def pModAttack : Fin 20 := 16
def pModDecay : Fin 20 := 17
def pModSustain : Fin 20 := 18
def pModRelease : Fin 20 := 19

/-- The attack, decay, sustain and release parameters of an instance (`41_adsr.md` R110). -/
def attackIdx : Env → Fin 20
  | .amp => pAmpAttack
  | .mod => pModAttack
def decayIdx : Env → Fin 20
  | .amp => pAmpDecay
  | .mod => pModDecay
def sustainIdx : Env → Fin 20
  | .amp => pAmpSustain
  | .mod => pModSustain
def releaseIdx : Env → Fin 20
  | .amp => pAmpRelease
  | .mod => pModRelease

/-- The time constant a phase uses (R110). -/
def timeIdx (e : Env) : Phase → Fin 20
  | .attack => attackIdx e
  | .decaySustain => decayIdx e
  | .release => releaseIdx e

/-! ## Operands -/

/-- A float operand is converted on entry with `toF` (R71). -/
def floatOperand (d : P) : F := Num.toF d

/-- `P[i]` in a formula: one read event (R56), its value converted with `toF` (R9). -/
def State.readF (s : State) (i : Fin 20) : F × State := (Num.toF (s.readParam i).1, (s.readParam i).2)

/-- The target `beta` of a phase (R110): 1, the sustain level (read here), 0. -/
def State.readTarget (s : State) (e : Env) : Phase → F × State
  | .attack => (Num.lit 1, s)
  | .decaySustain => s.readF (sustainIdx e)
  | .release => (Num.zero, s)

/-- The held note, or a note operand, as a float (R103, R172). -/
def noteF (p : Params) (n : Byte) : F := Num.u2f p n.toNat

/-- What PRD reads: an index that does not exist reads as +0.0 (R51, R194). -/
def State.readIndex (s : State) (i : Byte) : P × State :=
  if h : i.toNat < 20 then s.readParam ⟨i.toNat, h⟩ else (0, s)

end Sys2Proof.Machine
end

