-- ==== Sys2Proof/Machine/HostIf.lean ====
section
/-! DEFINITION. The host interface: NOP, RESET, SETSR, PWR, PRD (`45_host.md`). -/

namespace Sys2Proof.Machine

/-- Every core register takes its reset value (R191, R45); the store, the writes in flight, the ports and the draws go on (R233,
notes/assumptions/23.md). One index of free values gives the three registers without a value (U1). -/
def coreReset (s : State) : State :=
  { s with
    sr := .unwritten s.par (Config.srUnwritten s.free)
    n := 0
    pw := .unwritten s.par (Config.pwUnwritten s.free)
    amp := .rest
    mod := .rest
    filt := .cleared
    fc := .unwritten s.par (Config.fcUnwritten s.free)
    note := s.par.noteReset
    free := s.free + 1 }

/-- NOP (R190), and every reserved opcode (R78). -/
def execNop (s : State) : Host.Outcome State Fault Refusal := .next s

/-- RESET (R191). -/
def execReset (s : State) : Host.Outcome State Fault Refusal := .next (coreReset s)

/-- SETSR (R192): stored unchecked. -/
def execSetsr (sr : P) (s : State) : Host.Outcome State Fault Refusal := .next (s.setSr (floatOperand sr))

/-- PWR (R193): no range check of the value; an unknown index is ignored. -/
def execPwr (i : Byte) (v : P) (s : State) : Host.Outcome State Fault Refusal := .next (s.writeParam i v)

/-- PRD (R194): the stored pattern, +0.0 for an unknown index. -/
def execPrd (i : Byte) (s : State) : Host.Outcome State Fault Refusal :=
  .next ((s.readIndex i).2.returnPattern (s.readIndex i).1)

end Sys2Proof.Machine
end

