-- ==== Sys2Proof/Machine/Flags.lean ====
section
/-! DEFINITION. The only flag-like state: gate and phase of each envelope (`10_state.md` R29). There are no condition codes and no
floating-point status flags (`40_numerics.md` R100). -/

namespace Sys2Proof.Machine

/-- The phase transition, "evaluated each tick, before the numeric update" (`41_adsr.md` R111): MBS's three conditions; a comparison
with a NaN output is false (R104). -/
def nextPhase (p : Params) (gate : Bool) (phase : Phase) (out : F) : Phase :=
  if Num.lt out (Num.thresh p) && gate && phase != .decaySustain then .attack
  else if Num.gt out (Num.thresh p) && gate then .decaySustain
  else if !gate then .release
  else phase

/-- The numbers of the phases in the debug view (R28). -/
def phaseNumber : Phase → Nat
  | .attack => 0
  | .decaySustain => 1
  | .release => 2

end Sys2Proof.Machine
end

