-- ==== Sys2Proof/Machine/Adsr.lean ====
section
/-! DEFINITION. The ADSR family: ENV.TICK, ENV.GATE_ON, ENV.GATE_OFF, ENV.RETRIG (`41_adsr.md`). -/

namespace Sys2Proof.Machine

/-- `alpha = exp(-1 / (SR * tc))`; no floor, no clamp (R116). -/
def alpha (p : Params) (sr tc : F) : F := Num.exp p (Num.div p Num.minusOne (Num.mul p sr tc))

/-- `output*alpha + (1-alpha)*beta` (R112). -/
def approach (p : Params) (o a beta : F) : F :=
  Num.add p (Num.mul p o a) (Num.mul p (Num.sub p (Num.lit 1) a) beta)

/-- The tick of instance `e` (R112): the transition uses the old output; the time constant of the new phase, then the target, are
read; the result is the new output. -/
def envTick (e : Env) (s : State) : F × State :=
  let r := s.env e
  let ph := nextPhase s.par r.gate r.phase r.out
  let tc := s.readF (timeIdx e ph)
  let beta := tc.2.readTarget e ph
  let o := approach s.par r.out (alpha s.par s.sr.value tc.1) beta.1
  (o, beta.2.setEnv e { gate := r.gate, phase := ph, out := o })

/-- `env[e].gate <- b` (R113, R114). -/
def setGate (e : Env) (b : Bool) (s : State) : State := s.setEnv e { s.env e with gate := b }

/-- Gate false, output +0.0, Release (R115). -/
def retrigger (e : Env) (s : State) : State := s.setEnv e .rest

/-- ENV.TICK (R112). -/
def execEnvTick (e : Env) (s : State) : Host.Outcome State Fault Refusal :=
  .next ((envTick e s).2.returnOne (envTick e s).1)

/-- ENV.GATE_ON (R113). -/
def execEnvGateOn (e : Env) (s : State) : Host.Outcome State Fault Refusal := .next (setGate e true s)

/-- ENV.GATE_OFF (R114). -/
def execEnvGateOff (e : Env) (s : State) : Host.Outcome State Fault Refusal := .next (setGate e false s)

/-- ENV.RETRIG (R115). -/
def execEnvRetrig (e : Env) (s : State) : Host.Outcome State Fault Refusal := .next (retrigger e s)

end Sys2Proof.Machine
end

