-- ==== Sys2Proof/Machine/Vcf.lean ====
section
/-! DEFINITION. The VCF family: VCF.MOD_FC, VCF.FILTER and the three layers below (`43_vcf.md`). -/

namespace Sys2Proof.Machine

/-- `lpf_G` (R150): `wa = 2*sr*tanh(PI*fc/sr)`, `g = wa/(2*sr)`, `G = g/(1+g)`. -/
def lpfG (p : Params) (fc sr : F) : F :=
  let wa := Num.mul p (Num.mul p (Num.lit 2) sr) (Num.tanh p (Num.div p (Num.mul p (Num.pi p) fc) sr))
  let g := Num.div p wa (Num.mul p (Num.lit 2) sr)
  Num.div p g (Num.add p (Num.lit 1) g)

/-- The registers of a stage after LPF1.STEP (R152): `v = x - y - u`, `u' = G*v`, `y' = u' + u + y`. -/
def lpf1 (p : Params) (r : StageRegs) (x g : F) : StageRegs :=
  let v := Num.sub p (Num.sub p x r.y) r.u
  let u := Num.mul p g v
  { y := Num.add p (Num.add p u r.u) r.y, u := u }

/-- LADDER.STEP (R154): stages 1, 2, 3 take the mean of the cascade signal and the delayed output of the next stage, stage 4 the
cascade signal alone; the delays are written after all stages. -/
def ladder (p : Params) (r : FilterRegs) (s g : F) : FilterRegs :=
  let half (x y : F) : F := Num.div p (Num.add p x y) (Num.lit 2)
  let s1 := lpf1 p r.st[0] (half s r.d2) g
  let s2 := lpf1 p r.st[1] (half s1.y r.d3) g
  let s3 := lpf1 p r.st[2] (half s2.y r.d4) g
  let s4 := lpf1 p r.st[3] s3.y g
  { st := #v[s1, s2, s3, s4], d2 := s2.y, d3 := s3.y, d4 := s4.y }

/-- `clip(x) = tanh(x)/tanh(1)` (R155); `tanh(1)` is computed from the literal (R91). -/
def clip (p : Params) (x : F) : F := Num.div p (Num.tanh p x) (Num.tanh p (Num.lit 1))

/-- `A = 1 + 0.5*k*20` (R156). -/
def gainComp (p : Params) (k : F) : F :=
  Num.add p (Num.lit 1) (Num.mul p (Num.mul p Num.compA k) Num.compB)

/-- The ladder's input: the clipped input less `k*14*d[4]` (R156). -/
def ladderInput (p : Params) (r : FilterRegs) (x k : F) : F :=
  Num.sub p (clip p x) (Num.mul p (Num.mul p k Num.fbGain) r.d4)

/-- DLLPF.STEP (R156): the returned value, with the gain, and the registers, without it. -/
def dllpf (p : Params) (r : FilterRegs) (x g k : F) : F × FilterRegs :=
  let r' := ladder p r (ladderInput p r x k) g
  (Num.mul p (gainComp p k) r'.d4, r')

/-- VCF.FILTER as an operation (R159): the coefficient is recomputed and the resonance is read once, every sample. -/
def vcfFilter (x : F) (s : State) : F × State :=
  let k := s.readF pResonance
  let y := dllpf s.par s.filt x (lpfG s.par s.fc.value s.sr.value) k.1
  (y.1, k.2.setFilt y.2)

/-- The modulated cutoff (R158): `b*(SR/2) + ((SR/2 - (b'*SR)/2)*cv)*depth + (noteCV*10)*kbd`. -/
def cutoffHz (p : Params) (sr b b' cv depth noteCV kbd : F) : F :=
  let ny := Num.div p sr (Num.lit 2)
  Num.add p
    (Num.add p (Num.mul p b ny)
      (Num.mul p (Num.mul p (Num.sub p ny (Num.div p (Num.mul p b' sr) (Num.lit 2))) cv) depth))
    (Num.mul p (Num.mul p noteCV Num.kbdScale) kbd)

/-- VCF.MOD_FC as an operation (R158). The formula names `cutoff` twice, and each occurrence is a read event of its own (R56, D28;
notes/assumptions/17.md). -/
def vcfModFc (cv noteCV : F) (s : State) : State :=
  let b := s.readF pCutoff
  let b' := b.2.readF pCutoff
  let depth := b'.2.readF pCutoffModDepth
  let kbd := depth.2.readF pKbdFollowDepth
  kbd.2.setFc (cutoffHz s.par s.sr.value b.1 b'.1 cv depth.1 noteCV kbd.1)

/-- VCF.MOD_FC (R158): `cv` in `d1`, `noteCV` in `d0` (R71). -/
def execVcfModFc (cv noteCV : P) (s : State) : Host.Outcome State Fault Refusal :=
  .next (vcfModFc (floatOperand cv) (floatOperand noteCV) s)

/-- VCF.FILTER (R159). -/
def execVcfFilter (x : P) (s : State) : Host.Outcome State Fault Refusal :=
  .next ((vcfFilter (floatOperand x) s).2.returnOne (vcfFilter (floatOperand x) s).1)

end Sys2Proof.Machine
end

