-- ==== Sys2Proof/Machine/Vco.lean ====
section
/-! DEFINITION. The VCO family: VCO.MOD_PW, VCO.TICK and the five generators (`42_vco.md`). -/

namespace Sys2Proof.Machine

/-- The inputs all generators of one tick share: `num`, the counter before its increment, and `SR` (R130, R139). -/
structure Tick where
  par : Params
  n : Nat
  sr : F
deriving DecidableEq, Repr

/-- `targ(theta, f) = u2f(n) + theta*SR / (2*PI*f)` (R130). -/
def targ (t : Tick) (theta f : F) : F :=
  Num.add t.par (Num.u2f t.par t.n)
    (Num.div t.par (Num.mul t.par theta t.sr)
      (Num.mul t.par (Num.mul t.par (Num.lit 2) (Num.pi t.par)) f))

/-- GEN.SAW (R131): `p = t*f/SR`, `2*(p - floor(p + 0.5))`. -/
def genSaw (t : Tick) (x f : F) : F :=
  let p := Num.div t.par (Num.mul t.par x f) t.sr
  Num.mul t.par (Num.lit 2) (Num.sub t.par p (Num.floor t.par (Num.add t.par p Num.half)))

/-- `2*PI*f/SR*t` (R132, R133). -/
def oscPhase (t : Tick) (x f : F) : F :=
  Num.mul t.par (Num.div t.par (Num.mul t.par (Num.mul t.par (Num.lit 2) (Num.pi t.par)) f) t.sr) x

/-- GEN.TRI (R132): `1 - (2/PI)*acos(cos(ph))`. -/
def genTri (t : Tick) (x f : F) : F :=
  Num.sub t.par (Num.lit 1)
    (Num.mul t.par (Num.div t.par (Num.lit 2) (Num.pi t.par)) (Num.acos t.par (Num.cos t.par (oscPhase t x f))))

/-- GEN.SQ (R133): `sign(sin(ph))`; `k` is the code of `sign(NaN)` (U4). -/
def genSq (t : Tick) (k : Nat) (x f : F) : F := Num.sign k (Num.sin t.par (oscPhase t x f))

/-- `f / 2` (R134). -/
def halfFreq (t : Tick) (f : F) : F := Num.div t.par f (Num.lit 2)

/-- GEN.SUB (R134): GEN.SQ with `f/2` everywhere, inside `targ` too. -/
def genSub (t : Tick) (k : Nat) (theta f : F) : F := genSq t k (targ t theta (halfFreq t f)) (halfFreq t f)

/-- The arithmetic mean of two evaluations (R136). -/
def mean (p : Params) (x y : F) : F := Num.div p (Num.add p x y) (Num.lit 2)

/-- `th1 = vco.pw * PI` (R136). -/
def offset (p : Params) (pw : F) : F := Num.mul p pw (Num.pi p)

/-- `dual_saw` (R136): offsets 0 and `th1`. -/
def dualSaw (t : Tick) (th1 f : F) : F :=
  mean t.par (genSaw t (targ t Num.zero f) f) (genSaw t (targ t th1 f) f)

/-- `dual_tri` (R136). -/
def dualTri (t : Tick) (th1 f : F) : F :=
  mean t.par (genTri t (targ t Num.zero f) f) (genTri t (targ t th1 f) f)

/-- `dual_sq` (R136); `k0`, `k1` are the codes of `sign(NaN)` of its two evaluations. -/
def dualSq (t : Tick) (k0 k1 : Nat) (th1 f : F) : F :=
  mean t.par (genSq t k0 (targ t Num.zero f) f) (genSq t k1 (targ t th1 f) f)

/-- `dual_sub` (R136). -/
def dualSub (t : Tick) (k0 k1 : Nat) (th1 f : F) : F :=
  mean t.par (genSub t k0 Num.zero f) (genSub t k1 th1 f)

/-- GEN.NOISE (R135): the draw of index `k`. -/
def genNoise (p : Params) (k : Nat) : F := Num.draw p k

/-- `dual_noise` (R136): two draws. -/
def dualNoise (p : Params) (k : Nat) : F := mean p (genNoise p k) (genNoise p (k + 1))

/-- The five mix levels, read in the order of the sum (R139). -/
structure Levels where
  saw : F
  tri : F
  square : F
  sub : F
  noise : F
deriving DecidableEq, Repr

/-- Five read events (R139, R56). -/
def readLevels (s : State) : Levels × State :=
  let a := s.readF pSawRate
  let b := a.2.readF pTriRate
  let c := b.2.readF pSquareRate
  let d := c.2.readF pSubRate
  let e := d.2.readF pNoiseRate
  ({ saw := a.1, tri := b.1, square := c.1, sub := d.1, noise := e.1 }, e.2)

/-- The scaled sum of the five signals, left to right, then one division by `MIX_DIV` (R139). -/
def mix (p : Params) (l g : Levels) : F :=
  Num.div p
    (Num.add p (Num.add p (Num.add p (Num.add p (Num.mul p l.saw g.saw) (Num.mul p l.tri g.tri))
      (Num.mul p l.square g.square)) (Num.mul p l.sub g.sub)) (Num.mul p l.noise g.noise))
    Num.mixDiv

/-- The five dual signals of a tick whose free values start at index `k` (R136). -/
def signals (t : Tick) (pw : F) (k : Nat) (f : F) : Levels :=
  { saw := dualSaw t (offset t.par pw) f
    tri := dualTri t (offset t.par pw) f
    square := dualSq t (Config.signOfNaN k) (Config.signOfNaN (k + 1)) (offset t.par pw) f
    sub := dualSub t (Config.signOfNaN (k + 2)) (Config.signOfNaN (k + 3)) (offset t.par pw) f
    noise := dualNoise t.par k }

/-- The inputs of a tick in state `s`. -/
def State.tick (s : State) : Tick := { par := s.par, n := s.n, sr := s.sr.value }

/-- VCO.TICK as an operation (R139): all generators use the counter before its increment; the draws are requested whatever the
noise level. A tick uses four indices of free values. -/
def vcoTick (f : F) (s : State) : F × State :=
  let g := signals s.tick s.pw.value s.free f
  let l := readLevels (s.useFree 4)
  (mix s.par l.1 g, l.2.tickCount)

/-- VCO.MOD_PW as an operation (R138): `b + ((1 - b)*cv)*depth`. The formula names `pulse_width` twice, and each occurrence is a read
event of its own (R56, D28; notes/assumptions/17.md). -/
def vcoModPw (cv : F) (s : State) : State :=
  let b := s.readF pPulseWidth
  let b' := b.2.readF pPulseWidth
  let depth := b'.2.readF pPwModDepth
  depth.2.setPw
    (Num.add s.par b.1 (Num.mul s.par (Num.mul s.par (Num.sub s.par (Num.lit 1) b'.1) cv) depth.1))

/-- VCO.TICK (R139); it counts (R213 item 4). -/
def execVcoTick (f : P) (s : State) : Host.Outcome State Fault Refusal :=
  s.completeTick ((vcoTick (floatOperand f) s).2.returnOne (vcoTick (floatOperand f) s).1)

/-- VCO.MOD_PW (R138). -/
def execVcoModPw (cv : P) (s : State) : Host.Outcome State Fault Refusal := .next (vcoModPw (floatOperand cv) s)

end Sys2Proof.Machine
end

