-- ==== Sys2Proof/Machine/Voice.lean ====
section
/-! DEFINITION. The voice: P2F, RENDER, EVT, NOTE_ON, NOTE_OFF, MIDI_IGN (`44_voice.md`). -/

namespace Sys2Proof.Machine

/-- `P2F(n) = pow2((u2f(n) - 69) / 12) * 440` (R170). -/
def pitch (p : Params) (n : Byte) : F :=
  Num.mul p (Num.pow2 p (Num.pitchOperand p n.toNat)) Num.a4Hz

/-- What one sample computes: the amplitude envelope's output, the filter's output, and the state after it. -/
structure Sample where
  amp : F
  filtered : F
  state : State

/-- The body of RENDER (R172), in the spec's order: pitch, both envelopes, both modulations by the modulation envelope's output,
oscillator, filter. -/
def sampleOf (s : State) : Sample :=
  let f := pitch s.par s.note
  let a := envTick .amp s
  let m := envTick .mod a.2
  let sPw := vcoModPw m.1 m.2
  let sFc := vcfModFc m.1 (noteF s.par s.note) sPw
  let x := vcoTick f sFc
  let y := vcfFilter x.1 x.2
  { amp := a.1, filtered := y.1, state := y.2 }

/-- The output `y * a` (R172). -/
def renderSample (s : State) : F := Num.mul s.par (sampleOf s).filtered (sampleOf s).amp

/-- P2F (R170): reads and writes no register. -/
def execP2f (n : Byte) (s : State) : Host.Outcome State Fault Refusal := .next (s.returnOne (pitch s.par n))

/-- RENDER (R172): the input samples are read and discarded; both channels carry the same bits. It counts (R213 item 4). -/
def execRender (_inL _inR : P) (s : State) : Host.Outcome State Fault Refusal :=
  s.completeTick ((sampleOf s).state.returnStereo (renderSample s))

/-- Both envelopes are force-retriggered (R174). -/
def retriggerBoth (s : State) : State := retrigger .mod (retrigger .amp s)

/-- Both gates (R174, R175). -/
def setGates (b : Bool) (s : State) : State := setGate .mod b (setGate .amp b s)

/-- NOTE_ON (R174): the comparison is with the previous held note; `b2` is never read (R75). -/
def execNoteOn (n _b2 : Byte) (s : State) : Host.Outcome State Fault Refusal :=
  .next (setGates true ((if n ≠ s.note then retriggerBoth s else s).setNote n))

/-- NOTE_OFF (R175): honoured only if it names the held note. -/
def execNoteOff (n _b2 : Byte) (s : State) : Host.Outcome State Fault Refusal :=
  .next (if n = s.note then setGates false s else s)

/-- MIDI_IGN (R176): "all else ignored". -/
def execMidiIgn (_b0 _b1 _b2 : Byte) (s : State) : Host.Outcome State Fault Refusal := .next s

/-- EVT (R173): the message is decoded (R74) and its form applied. -/
def execEvt (b0 b1 b2 : Byte) (s : State) : Host.Outcome State Fault Refusal :=
  if b0 = 0x90 then execNoteOn b1 b2 s
  else if b0 = 0x80 then execNoteOff b1 b2 s
  else execMidiIgn b0 b1 b2 s

end Sys2Proof.Machine
end

