-- ==== Sys2Proof/Machine/Dispatch.lean ====
section
/-! DEFINITION. One arm per constructor of `Instr`, each one call of the instruction's meaning. -/

namespace Sys2Proof.Machine

-- One command, to completion (`00_scope.md` R7).
def exec (i : Instr) (s : State) : Host.Outcome State Fault Refusal :=
  match i with
  | .nop => Sys2Proof.Machine.execNop s
  | .reset => Sys2Proof.Machine.execReset s
  | .setsr sr => Sys2Proof.Machine.execSetsr sr s
  | .pwr k v => Sys2Proof.Machine.execPwr k v s
  | .prd k => Sys2Proof.Machine.execPrd k s
  | .evt b0 b1 b2 => Sys2Proof.Machine.execEvt b0 b1 b2 s
  | .render inL inR => Sys2Proof.Machine.execRender inL inR s
  | .envTick e => Sys2Proof.Machine.execEnvTick e s
  | .envGateOn e => Sys2Proof.Machine.execEnvGateOn e s
  | .envGateOff e => Sys2Proof.Machine.execEnvGateOff e s
  | .envRetrig e => Sys2Proof.Machine.execEnvRetrig e s
  | .vcoTick f => Sys2Proof.Machine.execVcoTick f s
  | .vcoModPw cv => Sys2Proof.Machine.execVcoModPw cv s
  | .vcfModFc cv noteCV => Sys2Proof.Machine.execVcfModFc cv noteCV s
  | .vcfFilter x => Sys2Proof.Machine.execVcfFilter x s
  | .p2f n => Sys2Proof.Machine.execP2f n s
  | .noteOn n b2 => Sys2Proof.Machine.execNoteOn n b2 s
  | .noteOff n b2 => Sys2Proof.Machine.execNoteOff n b2 s
  | .midiIgn b0 b1 b2 => Sys2Proof.Machine.execMidiIgn b0 b1 b2 s

end Sys2Proof.Machine
end

