-- ==== Sys2Proof/Machine/Step.lean ====
section
/-! DEFINITION. One step of the machine (`00_scope.md` R7): the next port event. -/

namespace Sys2Proof.Machine

/-- Nothing pending: the core waits for commands and nothing changes (R232, notes/assumptions/2.md). A command runs to completion
(R7 (a)); an event of `HU` is a step of its own (R7 (b)). -/
def step (s : State) : Host.Outcome State Fault Refusal :=
  match fetch s with
  | .idle => .next s
  | .run i t => exec i t
  | .environment t => .next t

/-- `s` with the opcode table's word of `nbits` bits next on the command port; a 24-bit MIDI message is carried by EVT (R72,
notes/assumptions/19.md). -/
def State.withFetchWord (s : State) (nbits w : Nat) : State := s.pushWord (tableWord nbits w)

end Sys2Proof.Machine
end

