-- ==== Sys2Proof/Machine/Assembler.lean ====
section
/-! DEFINITION. The command notation of `30_encoding.md` R81 and the pseudo-commands of R82 and `45_host.md` R197, on terms: what a
line assembles to. The concrete spelling (commas, comments, numerals) is left to the reader of a program text. -/

namespace Sys2Proof.Machine

/-- The mnemonic of R76. -/
def mnemonic : Instr → String
  | .nop => "NOP"
  | .reset => "RESET"
  | .setsr _ => "SETSR"
  | .pwr _ _ => "PWR"
  | .prd _ => "PRD"
  | .evt _ _ _ => "EVT"
  | .render _ _ => "RENDER"
  | .envTick _ => "ENV.TICK"
  | .envGateOn _ => "ENV.GATE_ON"
  | .envGateOff _ => "ENV.GATE_OFF"
  | .envRetrig _ => "ENV.RETRIG"
  | .vcoTick _ => "VCO.TICK"
  | .vcoModPw _ => "VCO.MOD_PW"
  | .vcfModFc _ _ => "VCF.MOD_FC"
  | .vcfFilter _ => "VCF.FILTER"
  | .p2f _ => "P2F"
  | .noteOn _ _ => "NOTE_ON"
  | .noteOff _ _ => "NOTE_OFF"
  | .midiIgn _ _ _ => "MIDI_IGN"

/-- The parameter names of `10_state.md` R35, in index order. -/
def paramNames : List String :=
  ["saw_rate", "tri_rate", "square_rate", "sub_rate", "noise_rate", "pulse_width", "pw_mod_depth", "osc_unassigned",
   "amp_attack", "amp_decay", "amp_sustain", "amp_release"] ++
  ["cutoff", "resonance", "cutoff_mod_depth", "kbd_follow_depth", "mod_attack", "mod_decay", "mod_sustain", "mod_release"]

/-- A decimal literal `digits / 10^scale`, converted to `PORT_FMT` by round-to-nearest-even (R81). -/
def decimal (neg : Bool) (digits scale : Nat) : P :=
  Num.toP 0 (Num.roundQ .binary32 .gradual neg digits (10 ^ scale) 0)

/-- The command word of a line; unused fields assemble to zero (R81). -/
def assemble (i : Instr) : CmdWord := carry (encode i)

/-- `NOTEON n, v` is `EVT 0x90, n, v` (R82). -/
def noteOnLine (n v : Byte) : List Instr := [.evt 0x90 n v]

/-- `NOTEOFF n, v` is `EVT 0x80, n, v` (R82). -/
def noteOffLine (n v : Byte) : List Instr := [.evt 0x80 n v]

/-- `PSET name, v` is `PWR name, v` issued while no command is executing (R82). -/
def psetLine (i : Fin 20) (v : P) : List Instr := [.pwr (BitVec.ofNat 8 i) v]

/-- `REPEAT k (body)` is `body` written `k` times (R82). -/
def repeatLines (k : Nat) (body : List Instr) : List Instr := (List.replicate k body).flatten

/-- `BLOCK k (events)`: the events in order, then `k` times RENDER with inputs 0.0 (R82, R197). -/
def blockLines (k : Nat) (events : List Instr) : List Instr := events ++ repeatLines k [.render 0 0]

/-- A program as the events that `HA` puts on the command port (R59). -/
def programEvents (is : List Instr) : List PortEvent := is.map fun i => .command (assemble i)

end Sys2Proof.Machine
end

