-- ==== Sys2Proof/Machine/Debug.lean ====
section
/-! DEFINITION. The debug view of `30_encoding.md` R84: a notation for test benches, not a command. -/

namespace Sys2Proof.Machine

/-- The state tuple of R84, in its order; an unwritten register shows no value (`-`), a phase its number (R28). -/
structure DebugView where
  sr : Option F
  n : Nat
  pw : Option F
  gateAmp : Bool
  phaseAmp : Nat
  outAmp : F
  gateMod : Bool
  phaseMod : Nat
  outMod : F
  y1 : F
  u1 : F
  y2 : F
  u2 : F
  y3 : F
  u3 : F
  y4 : F
  u4 : F
  d2 : F
  d3 : F
  d4 : F
  fc : Option F
  note : Byte
deriving DecidableEq, Repr

/-- A register as R84 shows it: `-` while it has no value. -/
def OpenReg.shown (r : OpenReg) : Option F := if r.written then some r.value else none

/-- The tuple `S` of R84. -/
def debugView (s : State) : DebugView :=
  { sr := s.sr.shown, n := s.n, pw := s.pw.shown
    gateAmp := s.amp.gate, phaseAmp := phaseNumber s.amp.phase, outAmp := s.amp.out
    gateMod := s.mod.gate, phaseMod := phaseNumber s.mod.phase, outMod := s.mod.out
    y1 := s.filt.st[0].y, u1 := s.filt.st[0].u, y2 := s.filt.st[1].y, u2 := s.filt.st[1].u
    y3 := s.filt.st[2].y, u3 := s.filt.st[2].u, y4 := s.filt.st[3].y, u4 := s.filt.st[3].u
    d2 := s.filt.d2, d3 := s.filt.d3, d4 := s.filt.d4
    fc := s.fc.shown, note := s.note }

end Sys2Proof.Machine
end

