-- ==== Sys2Proof/Safety.lean ====
section
/-! DEFINITION. What counts as a safe run, in the spec's own terms: the well-conditioned domain (`00_scope.md` R12), the closed list
of situations the spec gives no meaning (`60_exceptions.md` R213), the "gone wrong" predicate (R211), the end and the observation of
a run (`45_host.md` R196), and the named properties of `num` that no rule promises (`40_numerics.md` R102).

"A refusal is not something the hardware does" (R213). The machine goes on where the hardware does: over a free value where a register
has none (item 1; notes/assumptions/3.md), by the IEEE rules for item 2, which R213 allows (notes/assumptions/4.md); a tick at the
counter's maximum it refuses (item 4). `strict` is the outcome R213 itself asks of a model, the refusal of item 1 included; a claim that
wants every situation of the list excluded assumes `meaningful`. -/

namespace Sys2Proof.Machine.Safety

/-- In [0, 1] (R12). -/
def inUnit (x : F) : Bool := Num.le Num.zero x && Num.le x (Num.lit 1)

/-- The time constants of R35: "expected `> 0`"; every other parameter is expected in [0, 1] (R12, R35). -/
def isTime (i : Fin 20) : Bool :=
  i = pAmpAttack || i = pAmpDecay || i = pAmpRelease || i = pModAttack || i = pModDecay || i = pModRelease

/-- A parameter value in its expected range (R12, R35). -/
def inRange (i : Fin 20) (v : P) : Bool := if isTime i then Num.positive (Num.toF v) else inUnit (Num.toF v)

/-- Every value a read of `P[i]` may return now is in range (R56). -/
def paramOk (s : State) (i : Fin 20) : Bool := (s.store[i] :: pending i s.inFlight).all (inRange i)

/-- The three reasons of R213 that a command can meet; items 3 and 5 are no moves of the model (notes/assumptions/6.md, 20.md). -/
inductive NoMeaning where
  /-- Item 1: a register with "no value" is read; `exec` runs over a free value. -/
  | noValueRead
  /-- Item 2: inputs outside the well-conditioned domain; `exec` follows the machine reading. -/
  | outsideWCD
  /-- Item 4: a tick with the counter at `2^CNT_W - 1`; `exec` refuses. -/
  | counterExhausted
deriving DecidableEq, Repr

/-- What a command needs: the registers it reads have a value, its inputs are in `WCD`, its counter can advance. -/
structure Needs where
  written : Bool
  wcd : Bool
  count : Bool
deriving DecidableEq, Repr

/-- The parameters of instance `e` that its next tick reads (R112). -/
def envParamsOk (s : State) (e : Env) : Bool :=
  let r := s.env e
  let ph := nextPhase s.par r.gate r.phase r.out
  paramOk s (timeIdx e ph) && (ph != .decaySustain || paramOk s (sustainIdx e))

/-- The five mix levels. -/
def levelsOk (s : State) : Bool :=
  [pSawRate, pTriRate, pSquareRate, pSubRate, pNoiseRate].all (paramOk s)

/-- The parameters VCO.MOD_PW reads (R138). -/
def modPwOk (s : State) : Bool := paramOk s pPulseWidth && paramOk s pPwModDepth

/-- The parameters VCF.MOD_FC reads (R158). -/
def modFcOk (s : State) : Bool := paramOk s pCutoff && paramOk s pCutoffModDepth && paramOk s pKbdFollowDepth

/-- `SR` in `WCD`. -/
def srOk (s : State) : Bool := Num.positive s.sr.value

/-- R213 by command. `noteCV` is neither a cv nor a parameter of R12's list; it counts as a signal operand, finite. -/
def needs (i : Instr) (s : State) : Needs :=
  match i with
  | .nop | .reset | .setsr _ | .pwr _ _ | .prd _ | .evt _ _ _ => ⟨true, true, true⟩
  | .envGateOn _ | .envGateOff _ | .envRetrig _ | .p2f _ => ⟨true, true, true⟩
  | .noteOn _ _ | .noteOff _ _ | .midiIgn _ _ _ => ⟨true, true, true⟩
  | .envTick e => ⟨s.sr.written, srOk s && envParamsOk s e, true⟩
  | .vcoTick f => ⟨s.sr.written && s.pw.written, srOk s && Num.positive (Num.toF f) && levelsOk s, s.canCount⟩
  | .vcoModPw cv => ⟨true, inUnit (Num.toF cv) && modPwOk s, true⟩
  | .vcfModFc cv noteCV =>
    ⟨s.sr.written, srOk s && inUnit (Num.toF cv) && Num.isFinite (Num.toF noteCV) && modFcOk s, true⟩
  | .vcfFilter x => ⟨s.sr.written && s.fc.written, srOk s && Num.isFinite (Num.toF x) && paramOk s pResonance, true⟩
  | .render _ _ =>
    ⟨s.sr.written,
     srOk s && envParamsOk s .amp && envParamsOk s .mod && levelsOk s && modPwOk s && modFcOk s && paramOk s pResonance,
     s.canCount⟩

/-- The items of R213 that hold for a command in a state; the spec says the model may report any of them (R212). -/
def noMeaning (i : Instr) (s : State) : List NoMeaning :=
  (if (needs i s).written then [] else [.noValueRead]) ++
  (if (needs i s).wcd then [] else [.outsideWCD]) ++
  (if (needs i s).count then [] else [.counterExhausted])

/-- The spec gives the command a meaning in this state. -/
def meaningful (i : Instr) (s : State) : Bool := (noMeaning i s).isEmpty

/-- The outcome of a command as R213 and R45 state it for a model: refused before any state change where the command reads a register
with "no value" or counts at the counter's maximum, "the model may report any of them" (R212; notes/assumptions/5.md); else the
command's effect. -/
def strict (i : Instr) (s : State) : Host.Outcome State Fault NoMeaning :=
  if !(needs i s).written then .refused .noValueRead
  else
    match exec i s with
    | .next t => .next t
    | .fault f => .fault f
    | .refused _ => .refused .counterExhausted

/-- The values of a result (R73). -/
def resultValues : Result → List P
  | .none => []
  | .single r0 => [r0]
  | .stereo r1 r0 => [r1, r0]

/-- The `F` registers that hold a value. -/
def registerValues (s : State) : List F :=
  [s.amp.out, s.mod.out, s.filt.d2, s.filt.d3, s.filt.d4] ++
  (s.filt.st.toList.flatMap fun r => [r.y, r.u]) ++
  ([s.sr, s.pw, s.fc].filter (·.written)).map (·.value)

/-- "some `F` register or some returned value is not finite" (R211). -/
def goneWrong (s : State) : Bool :=
  (registerValues s).any (fun x => !Num.isFinite x) || (resultValues s.res).any (fun v => !Num.isFinite (Num.toF v))

/-- The run has ended: the last command of `HA` has completed and `HU` has no write in flight (R196). -/
def finished (s : State) : Bool := s.port.isEmpty && s.inFlight.isEmpty

/-- The observation of a run of at most `k` steps: "the sequence of results the commands returned" and the final state (R196). -/
def observe : Nat → State → List Result × State
  | 0, s => ([], s)
  | k + 1, s =>
    match step s with
    | .next t =>
      let o := observe k t
      match t.res, s.port with
      | .none, _ => o
      | _, [] => o
      | r, _ => (r :: o.1, o.2)
    | .fault _ => ([], s)
    | .refused _ => ([], s)

/-- Every `F` register, with a value or without. -/
def allRegisters (s : State) : List F :=
  [s.sr.value, s.pw.value, s.fc.value, s.amp.out, s.mod.out, s.filt.d2, s.filt.d3, s.filt.d4] ++
  (s.filt.st.toList.flatMap fun r => [r.y, r.u])

/-- What every step keeps: the counter is a value of `Cnt` (R9, R24), every `F` register holds a datum of `FMT` (R9), and the
delay registers hold the outputs of stages 2, 3 and 4 (R30). -/
structure Inv (s : State) : Prop where
  count : s.n < 2 ^ s.par.cntW
  format : ∀ x ∈ allRegisters s, Num.representable s.par.fmt x = true
  delay2 : s.filt.d2 = s.filt.st[1].y
  delay3 : s.filt.d3 = s.filt.st[2].y
  delay4 : s.filt.d4 = s.filt.st[3].y

/-- R102 item 2, `tanh_pos`: `tanh(1) > 0` and finite; it follows from R95 ("strictly increasing" from `tanh(+0) = +0`). -/
def TanhPos (p : Params) : Prop := Num.lt Num.zero (Num.tanh p (Num.lit 1)) = true ∧ Num.isFinite (Num.tanh p (Num.lit 1)) = true

end Sys2Proof.Machine.Safety
end

