-- ==== Sys2Proof/Certificates/Slice0/Obligations.lean ====
section
/-! DEFINITION. The statements for the provers. Where a statement gives a numeric result, the formula is transcribed here again from
the rule, over the primitives of `num` alone, one operation per operator (`40_numerics.md` R101). A statement whose value is free (a
NaN pattern on a port, a draw, `sign(NaN)`) holds for every value of `State.free`. `Claims.Runs` is the premise that a
tick finds the counter below its maximum (`60_exceptions.md` R213 item 4; else it is refused: EveryCommandHasAStep). The statements hold
for every value of `SR`, `vco.pw` and `vcf.fc`, the free value of a register that no command has written included (log 3). -/

namespace Sys2Proof.Machine.Claims

/-! ## Formulas transcribed from the rules -/

/-- `r0 = toP(v)` (R73); a NaN gets the free pattern of the state that returns it. -/
def one (s : State) (v : F) : Result := .single (Num.toP (Config.nanBits s.free) v)

/-- The table of R110: `tc`. -/
def timeConstant (store : Vector P 20) : Env → Phase → F
  | .amp, .attack => Num.toF store[8]
  | .amp, .decaySustain => Num.toF store[9]
  | .amp, .release => Num.toF store[11]
  | .mod, .attack => Num.toF store[16]
  | .mod, .decaySustain => Num.toF store[17]
  | .mod, .release => Num.toF store[19]

/-- The table of R110: `beta`. -/
def beta (store : Vector P 20) : Env → Phase → F
  | _, .attack => .fin false 1 0
  | .amp, .decaySustain => Num.toF store[10]
  | .mod, .decaySustain => Num.toF store[18]
  | _, .release => .fin false 0 0

/-- R116: `exp( div( -1, mul(SR, tc) ) )`. -/
def alphaOf (p : Params) (sr tc : F) : F := Num.exp p (Num.div p (.fin true 1 0) (Num.mul p sr tc))

/-- R112: `o * alpha + (1 - alpha) * beta`. -/
def envOut (p : Params) (sr o tc b : F) : F :=
  Num.add p (Num.mul p o (alphaOf p sr tc)) (Num.mul p (Num.sub p (.fin false 1 0) (alphaOf p sr tc)) b)

/-- R138: `b + (1 - b) * cv * depth`. -/
def width (p : Params) (b cv depth : F) : F :=
  Num.add p b (Num.mul p (Num.mul p (Num.sub p (.fin false 1 0) b) cv) depth)

/-- R130: `u2f(n) + theta * SR / (2 * PI * f)`. -/
def timeArg (p : Params) (n : Nat) (sr theta f : F) : F :=
  Num.add p (Num.u2f p n) (Num.div p (Num.mul p theta sr) (Num.mul p (Num.mul p (Num.lit 2) (Num.pi p)) f))

/-- R131. -/
def saw (p : Params) (sr t f : F) : F :=
  Num.mul p (Num.lit 2)
    (Num.sub p (Num.div p (Num.mul p t f) sr)
      (Num.floor p (Num.add p (Num.div p (Num.mul p t f) sr) Num.half)))

/-- `2 * PI * f / SR * t` (R132, R133). -/
def angle (p : Params) (sr t f : F) : F :=
  Num.mul p (Num.div p (Num.mul p (Num.mul p (Num.lit 2) (Num.pi p)) f) sr) t

/-- R132. -/
def tri (p : Params) (sr t f : F) : F :=
  Num.sub p (Num.lit 1)
    (Num.mul p (Num.div p (Num.lit 2) (Num.pi p)) (Num.acos p (Num.cos p (angle p sr t f))))

/-- R133, with the code that chooses `sign(NaN)` (U4). -/
def square (p : Params) (code : Nat) (sr t f : F) : F := Num.sign code (Num.sin p (angle p sr t f))

/-- R136: the mean of two evaluations. -/
def average (p : Params) (x y : F) : F := Num.div p (Num.add p x y) (Num.lit 2)

/-- R139: the five levels times the five dual signals of R131 to R136, summed left to right, over 5. The free values of the tick have
the indices `k` to `k + 3`. -/
def mixed (p : Params) (n k : Nat) (sr pw f : F) (store : Vector P 20) : F :=
  let th1 := Num.mul p pw (Num.pi p)
  let h := Num.div p f (Num.lit 2)
  let t0 := timeArg p n sr Num.zero f
  let t1 := timeArg p n sr th1 f
  let u0 := timeArg p n sr Num.zero h
  let u1 := timeArg p n sr th1 h
  let s := Num.mul p (Num.toF store[0]) (average p (saw p sr t0 f) (saw p sr t1 f))
  let s := Num.add p s (Num.mul p (Num.toF store[1]) (average p (tri p sr t0 f) (tri p sr t1 f)))
  let s := Num.add p s (Num.mul p (Num.toF store[2])
    (average p (square p (Config.signOfNaN k) sr t0 f) (square p (Config.signOfNaN (k + 1)) sr t1 f)))
  let s := Num.add p s (Num.mul p (Num.toF store[3])
    (average p (square p (Config.signOfNaN (k + 2)) sr u0 h) (square p (Config.signOfNaN (k + 3)) sr u1 h)))
  let s := Num.add p s (Num.mul p (Num.toF store[4]) (average p (Num.draw p k) (Num.draw p (k + 1))))
  Num.div p s (Num.lit 5)

/-- R150. -/
def coefficient (p : Params) (fc sr : F) : F :=
  let wa := Num.mul p (Num.mul p (Num.lit 2) sr) (Num.tanh p (Num.div p (Num.mul p (Num.pi p) fc) sr))
  let g := Num.div p wa (Num.mul p (Num.lit 2) sr)
  Num.div p g (Num.add p (Num.lit 1) g)

/-- R152: `u` after the step. -/
def stageU (p : Params) (r : StageRegs) (x g : F) : F := Num.mul p g (Num.sub p (Num.sub p x r.y) r.u)

/-- R152: `y` after the step, the value it returns. -/
def stageY (p : Params) (r : StageRegs) (x g : F) : F := Num.add p (Num.add p (stageU p r x g) r.u) r.y

/-- R154: the filter registers after a step with input `x`. -/
def ladderAfter (p : Params) (r : FilterRegs) (x g : F) : FilterRegs :=
  let i1 := average p x r.d2
  let y1 := stageY p r.st[0] i1 g
  let i2 := average p y1 r.d3
  let y2 := stageY p r.st[1] i2 g
  let i3 := average p y2 r.d4
  let y3 := stageY p r.st[2] i3 g
  let y4 := stageY p r.st[3] y3 g
  { st := #v[{ y := y1, u := stageU p r.st[0] i1 g }, { y := y2, u := stageU p r.st[1] i2 g },
             { y := y3, u := stageU p r.st[2] i3 g }, { y := y4, u := stageU p r.st[3] y3 g }]
    d2 := y2, d3 := y3, d4 := y4 }

/-- R155: `tanh(x) / tanh(1)`. -/
def saturated (p : Params) (x : F) : F := Num.div p (Num.tanh p x) (Num.tanh p (Num.lit 1))

/-- R156: the clipped input less the feedback `k * 14 * d[4]`. -/
def drive (p : Params) (r : FilterRegs) (x k : F) : F :=
  Num.sub p (saturated p x) (Num.mul p (Num.mul p k (Num.lit 14)) r.d4)

/-- R156: `A = 1 + 0.5 * k * 20`. -/
def gain (p : Params) (k : F) : F := Num.add p (Num.lit 1) (Num.mul p (Num.mul p Num.half k) (Num.lit 20))

/-- R158: `b * (SR/2) + (SR/2 - b'*SR/2) * cv * depth + noteCV * 10 * kbd`, with `b` and `b'` the two reads of `P.cutoff`. -/
def cutoff (p : Params) (sr b b' cv depth noteCV kbd : F) : F :=
  Num.add p
    (Num.add p (Num.mul p b (Num.div p sr (Num.lit 2)))
      (Num.mul p
        (Num.mul p (Num.sub p (Num.div p sr (Num.lit 2)) (Num.div p (Num.mul p b' sr) (Num.lit 2))) cv) depth))
    (Num.mul p (Num.mul p noteCV (Num.lit 10)) kbd)

/-- R170: `pow2((u2f(n) - 69) / 12) * 440`. -/
def pitchOf (p : Params) (n : Byte) : F :=
  Num.mul p (Num.pow2 p (Num.div p (Num.sub p (Num.u2f p n.toNat) (Num.lit 69)) (Num.lit 12))) (Num.lit 440)

/-- The real value of a finite datum; 0 for the others. -/
def val : F → ℚ
  | .fin neg m e => (if neg then -1 else 1) * (m : ℚ) * (2 : ℚ) ^ e
  | _ => 0

/-! ## Tables transcribed from the rules -/

/-- The opcodes of R76. -/
def assigned : List Byte :=
  [0x00, 0x01, 0x02, 0x03, 0x04, 0x05, 0x06, 0x10, 0x11, 0x12, 0x13, 0x20, 0x21, 0x30, 0x31, 0x40]

/-- The form an EVT applies; every other command is itself (R173). -/
def effective : Instr → Instr
  | .evt b0 b1 b2 => decodeMidiBytes b0 b1 b2
  | i => i

/-- The core registers of R20, the filter's eleven as one group. -/
inductive Reg where
  | sr
  | n
  | pw
  | gate (e : Env)
  | phase (e : Env)
  | out (e : Env)
  | filter
  | fc
  | note
deriving DecidableEq, Repr

/-- The register holds the same value in both states. -/
def Same (r : Reg) (s t : State) : Prop :=
  match r with
  | .sr => t.sr = s.sr
  | .n => t.n = s.n
  | .pw => t.pw = s.pw
  | .gate e => (t.env e).gate = (s.env e).gate
  | .phase e => (t.env e).phase = (s.env e).phase
  | .out e => (t.env e).out = (s.env e).out
  | .filter => t.filt = s.filt
  | .fc => t.fc = s.fc
  | .note => t.note = s.note

/-- The columns of R39 marked `w`, by command. -/
def writesOf : Instr → List Reg
  | .nop | .pwr _ _ | .prd _ | .p2f _ | .midiIgn _ _ _ | .evt _ _ _ => []
  | .reset => [.sr, .n, .pw, .gate .amp, .phase .amp, .out .amp, .gate .mod, .phase .mod, .out .mod, .filter, .fc, .note]
  | .setsr _ => [.sr]
  | .envTick e => [.phase e, .out e]
  | .envGateOn e | .envGateOff e => [.gate e]
  | .envRetrig e => [.gate e, .phase e, .out e]
  | .vcoModPw _ => [.pw]
  | .vcoTick _ => [.n]
  | .vcfModFc _ _ => [.fc]
  | .vcfFilter _ => [.filter]
  | .noteOn _ _ => [.note, .gate .amp, .phase .amp, .out .amp, .gate .mod, .phase .mod, .out .mod]
  | .noteOff _ _ => [.gate .amp, .gate .mod]
  | .render _ _ => [.n, .pw, .phase .amp, .out .amp, .phase .mod, .out .mod, .filter, .fc]

/-- The last column of R39, by command: the parameters it reads. -/
def readsOf : Instr → List (Fin 20)
  | .envTick .amp => [8, 9, 10, 11]
  | .envTick .mod => [16, 17, 18, 19]
  | .vcoModPw _ => [5, 6]
  | .vcoTick _ => [0, 1, 2, 3, 4]
  | .vcfModFc _ _ => [12, 14, 15]
  | .vcfFilter _ => [13]
  | .render _ _ => [0, 1, 2, 3, 4, 5, 6, 8, 9, 10, 11, 12, 13, 14, 15, 16, 17, 18, 19]
  | .prd i => if h : i.toNat < 20 then [⟨i.toNat, h⟩] else []
  | _ => []

/-- What read events of the parameters in `is` can do to the store: of each, some number `c` of the oldest pending writes has taken
effect (none for a parameter that is not read), nothing else has changed. -/
def OnlyReads (is : List (Fin 20)) (s t : State) : Prop :=
  t.inFlight.map (fun w => (w.idx, w.val)) = s.inFlight.map (fun w => (w.idx, w.val)) ∧
  ∀ j : Fin 20, ∃ c, c ≤ (pending j s.inFlight).length ∧ (j ∉ is → c = 0) ∧
    t.store[j] = (s.store[j] :: pending j s.inFlight).getD c 0 ∧
    pending j t.inFlight = (pending j s.inFlight).drop c

/-- The registers a command reads that hold "no value" until a command has written them (R39, R45, R213 item 1). -/
def openReads : Instr → List Reg
  | .envTick _ | .vcfModFc _ _ | .render _ _ => [.sr]
  | .vcoTick _ => [.sr, .pw]
  | .vcfFilter _ => [.sr, .fc]
  | _ => []

/-- The register holds a value (R45). -/
def hasValue (s : State) : Reg → Bool
  | .sr => s.sr.written
  | .pw => s.pw.written
  | .fc => s.fc.written
  | _ => true

/-- The command ticks the oscillator (R24, R213 item 4). -/
def ticks : Instr → Bool
  | .vcoTick _ | .render _ _ => true
  | _ => false

/-- The counter can advance if the command ticks: item 4 of R213 does not hold. -/
def Runs (i : Instr) (s : State) : Prop := ticks i = true → s.n + 1 < 2 ^ s.par.cntW

/-- Every register the command reads holds a value: item 1 of R213 does not hold. -/
def HasValues (i : Instr) (s : State) : Prop := ∀ r ∈ openReads i, hasValue s r

/-- What a read of each parameter `i` returns if it counts the oldest `c i` writes pending to it (R56). -/
def seen (s : State) (c : Fin 20 → Nat) : Vector P 20 :=
  Vector.ofFn fun i => (s.store[i] :: pending i s.inFlight).getD (c i) 0

/-- A choice for each parameter of how many pending writes its read counts. -/
abbrev Choice (s : State) (c : Fin 20 → Nat) : Prop := ∀ i, c i ≤ (pending i s.inFlight).length

/-- The states that later read events of `CORE` meet, as long as no PWR to index `k` is issued: after commands, after read events, after
the events of `HU` (a write to another index begins, the oldest write in flight ends), and inside a command or with other ports, where the
store and the writes in flight have changed only in these ways. -/
inductive Later (k : Fin 20) (s : State) : State → Prop where
  | here : Later k s s
  | command {t u : State} (i : Instr) : Later k s t → (∀ j v, i = .pwr j v → j.toNat ≠ k.val) → exec i t = .next u → Later k s u
  | read {t : State} (j : Fin 20) : Later k s t → Later k s (t.readParam j).2
  | begins {t : State} (j : Byte) (v : P) : Later k s t → j.toNat ≠ k.val → Later k s (t.beginWrite j v)
  | ends {t : State} : Later k s t → Later k s t.endWrite
  | inside {t u : State} : Later k s t → u.store = t.store → u.inFlight = t.inFlight → Later k s u

/-- The significand of a datum is even in format `f`: its last bit is above the format's last place at that magnitude (R93). -/
def EvenIn (f : Format) : F → Prop
  | .fin _ m e => m = 0 ∨ max ((m.log2 : Int) + e - (Num.prec f - 1 : Nat)) (Num.minExp f) < e
  | _ => True

/-- Half a last place above the largest finite datum: from here on, rounding to nearest leaves the finite range (R93). -/
def overflowAt (f : Format) : ℚ := ((2 : ℚ) ^ (Num.prec f + 1) - 1) * (2 : ℚ) ^ (Num.maxLog f - (Num.prec f : Int))

/-- `r` is the rounding of the real value `x` to format `f` (R93): below `overflowAt` a finite datum of the format, none nearer than it,
and even if another is as near; from there on the infinity of the sign of `x`. -/
def Rounded (f : Format) (x : ℚ) (r : F) : Prop :=
  (|x| < overflowAt f → Num.isFinite r = true ∧ Num.representable f r = true ∧
    ∀ z, Num.isFinite z = true → Num.representable f z = true →
      |val r - x| ≤ |val z - x| ∧ (|val r - x| = |val z - x| → val z ≠ val r → EvenIn f r)) ∧
  (overflowAt f ≤ |x| → r = .inf (decide (x < 0)))

/-- R73: what stands on the result port after a command. -/
def ResultOf (i : Instr) (r : Result) : Prop :=
  match i with
  | .prd _ | .envTick _ | .vcoTick _ | .vcfFilter _ | .p2f _ => ∃ v, r = .single v
  | .render _ _ => ∃ v, r = .stereo v v
  | _ => r = .none

/-- The tuple of R84 after a reset with the held note `n` (R191's example). -/
def resetView (n : Byte) : DebugView :=
  { sr := none, n := 0, pw := none
    gateAmp := false, phaseAmp := 2, outAmp := Num.zero, gateMod := false, phaseMod := 2, outMod := Num.zero
    y1 := Num.zero, u1 := Num.zero, y2 := Num.zero, u2 := Num.zero
    y3 := Num.zero, u3 := Num.zero, y4 := Num.zero, u4 := Num.zero
    d2 := Num.zero, d3 := Num.zero, d4 := Num.zero, fc := none, note := n }

end Sys2Proof.Machine.Claims

open Sys2Proof Sys2Proof.Machine

/-! ## Encoding -/

/-- Every well-formed instruction, with every operand at every value: its word decodes to it (R70 to R76). -/
def Obligations.DecodeEncodeRoundTrip : Prop :=
  ∀ i : Instr, WellFormed i → decode (encode i) = i

/-- R76 with R70, R71, R79, for every word `op ++ a ++ d1 ++ d0`: the opcode alone selects the command, the used fields are its
operands, and the fields a command does not use have no effect. -/
def Obligations.EveryWordDecodesByItsOpcode : Prop :=
  ∀ (a : Byte) (d1 d0 : P),
    let e : Env := if a.getLsbD 0 then .mod else .amp
    decodeCmd (0x00#8 ++ a ++ d1 ++ d0) = .nop ∧
    decodeCmd (0x01#8 ++ a ++ d1 ++ d0) = .reset ∧
    decodeCmd (0x02#8 ++ a ++ d1 ++ d0) = .setsr d0 ∧
    decodeCmd (0x03#8 ++ a ++ d1 ++ d0) = .pwr a d0 ∧
    decodeCmd (0x04#8 ++ a ++ d1 ++ d0) = .prd a ∧
    (∀ (b0 b1 b2 x : Byte), decodeCmd (0x05#8 ++ a ++ d1 ++ (x ++ b0 ++ b1 ++ b2)) = .evt b0 b1 b2) ∧
    decodeCmd (0x06#8 ++ a ++ d1 ++ d0) = .render d1 d0 ∧
    decodeCmd (0x10#8 ++ a ++ d1 ++ d0) = .envTick e ∧
    decodeCmd (0x11#8 ++ a ++ d1 ++ d0) = .envGateOn e ∧
    decodeCmd (0x12#8 ++ a ++ d1 ++ d0) = .envGateOff e ∧
    decodeCmd (0x13#8 ++ a ++ d1 ++ d0) = .envRetrig e ∧
    decodeCmd (0x20#8 ++ a ++ d1 ++ d0) = .vcoTick d0 ∧
    decodeCmd (0x21#8 ++ a ++ d1 ++ d0) = .vcoModPw d0 ∧
    decodeCmd (0x30#8 ++ a ++ d1 ++ d0) = .vcfModFc d1 d0 ∧
    decodeCmd (0x31#8 ++ a ++ d1 ++ d0) = .vcfFilter d0 ∧
    decodeCmd (0x40#8 ++ a ++ d1 ++ d0) = .p2f a

/-- R78: every opcode outside R76 executes as NOP, from the port too: the state stays, no result; and no word traps (a tick at the
counter's maximum is refused by the model, which is no trap). -/
def Obligations.ReservedOpcodesExecuteAsNop : Prop :=
  (∀ (op a : Byte) (d1 d0 : P) (s : State) (rest : List PortEvent), op ∉ Claims.assigned →
    decodeCmd (op ++ a ++ d1 ++ d0) = .nop ∧
    exec (decodeCmd (op ++ a ++ d1 ++ d0)) s = .next s ∧
    step { s with port := .command (op ++ a ++ d1 ++ d0) :: rest } = .next { s with port := rest, res := .none }) ∧
  (∀ (w : CmdWord) (s : State), (∀ f, exec (decodeCmd w) s ≠ .fault f) ∧
    (Claims.Runs (decodeCmd w) s → ∃ t, exec (decodeCmd w) s = .next t))

/-- R74: the whole status byte is compared with 144 and 128; every other status is MIDI_IGN. -/
def Obligations.MidiStatusSelectsTheForm : Prop :=
  ∀ (b0 b1 b2 : Byte),
    (b0.toNat = 144 → decodeMidi (b0 ++ b1 ++ b2) = .noteOn b1 b2) ∧
    (b0.toNat = 128 → decodeMidi (b0 ++ b1 ++ b2) = .noteOff b1 b2) ∧
    (b0.toNat ≠ 144 → b0.toNat ≠ 128 → decodeMidi (b0 ++ b1 ++ b2) = .midiIgn b0 b1 b2) ∧
    (∀ s, exec (.evt b0 b1 b2) s = exec (decodeMidi (b0 ++ b1 ++ b2)) s)

/-- R75: the note is all eight bits of `b1`, `b2` is never read, and `b2 = 0` is no note-off. -/
def Obligations.NoteByteIsUnmaskedAndVelocityIsNeverRead : Prop :=
  ∀ (n b2 c2 : Byte) (s : State),
    (∃ t, exec (.noteOn n b2) s = .next t ∧ t.note = n) ∧
    exec (.noteOn n b2) s = exec (.noteOn n c2) s ∧
    exec (.noteOff n b2) s = exec (.noteOff n c2) s ∧
    (∀ b0, exec (.evt b0 n b2) s = exec (.evt b0 n c2) s) ∧
    exec (.evt 0x90 n 0) s = exec (.noteOn n 0) s

/-- Words the spec writes out: command words in the examples of R81, R190, R192 and R193, the message of R72's note-on form, and the
message of R176's example (status 176, controller 123). -/
def Obligations.SpecWordsDecode : Prop :=
  decodeCmd 0x00000000000000000000 = .nop ∧
  decodeCmd 0x020000000000472C4400 = .setsr 0x472C4400 ∧
  decodeCmd 0x0300000000003F800000 = .pwr 0 0x3F800000 ∧
  decodeCmd 0x030D000000003F000000 = .pwr 13 0x3F000000 ∧
  decodeCmd 0x05000000000000904564 = .evt 0x90 69 100 ∧
  decodeCmd 0x06000000000000000000 = .render 0 0 ∧
  decodeCmd 0x30003F00000042700000 = .vcfModFc 0x3F000000 0x42700000 ∧
  decodeCmd 0x40450000000000000000 = .p2f 69 ∧
  decodeMidi 0x904564 = .noteOn 69 100 ∧
  decodeMidi 0xB07B00 = .midiIgn 0xB0 123 0

/-- R173: EVT applies the decoded form, completely, before the next command starts: the next state is that of R174, R175 or R176. -/
def Obligations.EventAppliesItsDecodedForm : Prop :=
  ∀ (b0 b1 b2 : Byte) (s : State),
    exec (.evt b0 b1 b2) s = exec (decodeMidiBytes b0 b1 b2) s ∧
    (b0 = 0x90 → exec (.evt b0 b1 b2) s = .next
      (if b1 = s.note then { s with amp := { s.amp with gate := true }, mod := { s.mod with gate := true } }
       else { s with note := b1, amp := { gate := true, phase := .release, out := .fin false 0 0 }
                     mod := { gate := true, phase := .release, out := .fin false 0 0 } })) ∧
    (b0 = 0x80 → exec (.evt b0 b1 b2) s = .next
      (if b1 = s.note then { s with amp := { s.amp with gate := false }, mod := { s.mod with gate := false } } else s)) ∧
    (b0 ≠ 0x90 → b0 ≠ 0x80 → exec (.evt b0 b1 b2) s = .next s) ∧
    (∀ (a x : Byte) (d1 : P) (rest : List PortEvent),
      step { s with port := .command (0x05#8 ++ a ++ d1 ++ (x ++ b0 ++ b1 ++ b2)) :: rest } =
        exec (.evt b0 b1 b2) { s with port := rest, res := .none })

/-! ## Host interface -/

/-- R190: NOP, and with it every reserved opcode, reads, writes and returns nothing. -/
def Obligations.NopDoesNothing : Prop :=
  ∀ (s : State) (rest : List PortEvent),
    exec .nop s = .next s ∧
    (∀ (op a : Byte) (d1 d0 : P), op = 0x00 ∨ op ∉ Claims.assigned → decodeCmd (op ++ a ++ d1 ++ d0) = .nop) ∧
    step { s with port := .command 0 :: rest } = .next { s with port := rest, res := .none }

/-- R45, R191, R231: power-on and RESET leave the tuple of R191's example; RESET leaves the parameter store alone (R233), and in this
model the writes in flight, the pending commands and the result port (log 23). -/
def Obligations.ResetGivesTheResetTuple : Prop :=
  ∀ (s : State) (p : Params),
    (∃ t, exec .reset s = .next t ∧ debugView t = Claims.resetView s.par.noteReset ∧ t.store = s.store ∧
      t.inFlight = s.inFlight ∧ t.port = s.port ∧ t.res = s.res ∧ t.par = s.par) ∧
    debugView (State.powerOn p) = Claims.resetView p.noteReset ∧
    (State.powerOn p).store = p.pReset

/-- R192: `SR <- toF(sr)`, unchecked, and nothing else. -/
def Obligations.SetsrWritesTheSampleRateOnly : Prop :=
  ∀ (v : P) (s : State),
    exec (.setsr v) s = .next { s with sr := { value := Machine.Num.toF v, written := true } } ∧
    (∀ (a : Byte) (d1 : P), decodeCmd (0x02#8 ++ a ++ d1 ++ v) = .setsr v) ∧
    Machine.Num.toF 0x472C4400 = .fin false 11025 2

/-- R193, R57 (with log 15: a whole write comes after every write to the index that has begun): any pattern is stored as it is, and
nothing else changes. -/
def Obligations.ParameterWriteStoresItsPattern : Prop :=
  ∀ (i : Byte) (v : P) (s : State) (h : i.toNat < 20),
    ∃ t, exec (.pwr i v) s = .next t ∧
      t = { s with store := s.store.set i.toNat v, inFlight := t.inFlight } ∧
      (∀ j : Fin 20, pending j t.inFlight = if j = ⟨i.toNat, h⟩ then [] else pending j s.inFlight) ∧
      t.inFlight.map (fun w => (w.idx, w.val)) = s.inFlight.map (fun w => (w.idx, w.val))

/-- R51: an index that does not exist ignores a write and reads +0.0; the others select their control. The events of `HU` that overlap a
command do the same (log 14), and like every event they clear the result before (log 18). -/
def Obligations.UnknownIndicesAreIgnored : Prop :=
  ∀ (i : Byte) (v : P) (s : State),
    (20 ≤ i.toNat →
      exec (.pwr i v) s = .next s ∧
      exec (.prd i) s = .next { s with res := .single 0 } ∧
      step { s with port := .writeBegins i v :: s.port } = .next { s with res := .none } ∧
      step { s with port := .readOverlaps i :: s.port } = .next { s with res := .single 0 }) ∧
    (∀ h : i.toNat < 20, s.quiet = true →
      exec (.pwr i v) s = .next { s with store := s.store.set i.toNat v } ∧
      exec (.prd i) s = .next { s with res := .single s.store[i.toNat] } ∧
      step { s with port := .readOverlaps i :: s.port } = .next { s with res := .single s.store[i.toNat] })

/-- R194, R55: with no pending write to the index, PRD returns the stored pattern unchanged and changes nothing but the result. -/
def Obligations.ParameterReadReturnsTheStoredPattern : Prop :=
  ∀ (i : Byte) (s : State) (h : i.toNat < 20), pending ⟨i.toNat, h⟩ s.inFlight = [] →
    exec (.prd i) s = .next { s with res := .single s.store[i.toNat] }

/-- R54, R56, R57 (the race as log 14 models it): a racing read returns the old value or one of the pending ones, whole; the pending
writes it counted have taken effect; no other index, register or event changes. A read of `HU` that a command overlaps returns the latest
of `HU`'s own writes and leaves what the command may still see as it was (R6). -/
def Obligations.RacingReadReturnsOldOrNew : Prop :=
  ∀ (i : Byte) (s : State) (h : i.toNat < 20),
    let j : Fin 20 := ⟨i.toNat, h⟩
    ∃ t c, exec (.prd i) s = .next t ∧ c ≤ (pending j s.inFlight).length ∧
      t.res = .single ((s.store[j] :: pending j s.inFlight).getD c 0) ∧
      t.store = s.store.set j ((s.store[j] :: pending j s.inFlight).getD c 0) ∧
      pending j t.inFlight = (pending j s.inFlight).drop c ∧
      (∀ k, k ≠ j → pending k t.inFlight = pending k s.inFlight) ∧
      t = { s with store := t.store, inFlight := t.inFlight, res := t.res, free := t.free } ∧
      (∀ rest, s.port = .readOverlaps i :: rest →
        step s = .next { s with port := rest, res := .single ((s.store[j] :: pending j s.inFlight).getLastD 0) })

/-- R57: a read never returns a value older than an earlier read of the same index returned. -/
def Obligations.ReadsNeverGoBack : Prop :=
  ∀ (i : Byte) (s : State) (h : i.toNat < 20),
    let vs := s.store[i.toNat] :: pending ⟨i.toNat, h⟩ s.inFlight
    ∃ t u c d, exec (.prd i) s = .next t ∧ exec (.prd i) t = .next u ∧ c ≤ d ∧ d < vs.length ∧
      t.res = .single (vs.getD c 0) ∧ u.res = .single (vs.getD d 0)

/-- R193, R194, R57 (log 15): a completed write is seen by the next read, whatever else is in flight. -/
def Obligations.WriteIsReadBack : Prop :=
  ∀ (i : Byte) (v : P) (s : State), i.toNat < 20 →
    ∃ t u, exec (.pwr i v) s = .next t ∧ exec (.prd i) t = .next u ∧ u.res = .single v

/-- R57, R56 (the completion of a write as log 14 models it): when the oldest write in flight completes, every later read event of its
index, before the next PWR to that index, returns its value or a newer one: the value that had replaced it already, or that of a write
begun after it. With no newer write pending, PRD returns exactly that value. -/
def Obligations.EndedWriteIsSeen : Prop :=
  ∀ (s : State) (w : Write) (ws : List Write) (rest : List PortEvent),
    s.inFlight = w :: ws → s.port = .writeEnds :: rest →
      let v := if w.landed then s.store[w.idx] else w.val
      ∃ t, step s = .next t ∧ t.inFlight = ws ∧ t.port = rest ∧
        (∀ u, Claims.Later w.idx t u → (u.readParam w.idx).1 ∈ v :: pending w.idx ws) ∧
        (∃ u, exec (.prd (BitVec.ofNat 8 w.idx)) t = .next u ∧
          (pending w.idx ws = [] → u.res = .single v))

/-- R36, R62, R39: no command but PWR writes the store; the parameters a command does not name are not even read. -/
def Obligations.CommandsNeverWriteTheStore : Prop :=
  ∀ (i : Instr) (s : State), Claims.Runs i s → (∀ k v, i ≠ .pwr k v) →
    ∃ t, exec i s = .next t ∧ Claims.OnlyReads (Claims.readsOf i) s t

/-- R39, R234: a parameter outside the last column of R39 has no effect on a command. In particular entry 7 affects nothing
(R36), and VCO.TICK and VCF.FILTER do not see the parameters that the MOD commands carry. -/
def Obligations.UnreadParametersHaveNoEffect : Prop :=
  ∀ (i : Instr) (j : Fin 20) (v : P) (s : State),
    Claims.Runs i s → j ∉ Claims.readsOf i → (∀ k x, i = .pwr k x → k.toNat ≠ j.val) →
      ∃ t, exec i s = .next t ∧ exec i (s.setStore j v) = .next (t.setStore j v)

/-! ## ADSR -/

/-- R111: the complete table, for every state, also under a race; the gate is not written. -/
def Obligations.PhaseTransitionTable : Prop :=
  ∀ (e : Env) (s : State),
    let r := s.env e
    let th := Machine.Num.thresh s.par
    ∃ t, exec (.envTick e) s = .next t ∧ (t.env e).gate = r.gate ∧
      (r.gate = false → (t.env e).phase = .release) ∧
      (r.gate = true → Machine.Num.lt r.out th = true →
        (t.env e).phase = if r.phase = .decaySustain then .decaySustain else .attack) ∧
      (r.gate = true → Machine.Num.eq r.out th = true → (t.env e).phase = r.phase) ∧
      (r.gate = true → Machine.Num.gt r.out th = true → (t.env e).phase = .decaySustain) ∧
      (r.gate = true → r.out = .nan → (t.env e).phase = r.phase)

/-- R112 with R110 and R116: the numeric update, with the time constant and the target of the new phase; nothing else changes. Under a
race the two parameters are each read old or new (R56). -/
def Obligations.EnvTickComputesTheNextOutput : Prop :=
  ∀ (e : Env) (s : State),
    let ph := nextPhase s.par (s.env e).gate (s.env e).phase (s.env e).out
    let o (P : Vector P 20) := Claims.envOut s.par s.sr.value (s.env e).out (Claims.timeConstant P e ph) (Claims.beta P e ph)
    let after (v : F) := s.setEnv e { gate := (s.env e).gate, phase := ph, out := v }
    (s.quiet = true → exec (.envTick e) s = .next { after (o s.store) with res := Claims.one s (o s.store), free := s.free + 1 }) ∧
    (∃ t c k, exec (.envTick e) s = .next t ∧ Claims.Choice s c ∧
      t = { after (o (Claims.seen s c)) with
              res := .single (Machine.Num.toP (Config.nanBits k) (o (Claims.seen s c)))
              store := t.store, inFlight := t.inFlight, free := t.free })

/-- R113: the gate becomes true, nothing else; twice is once; a gate already true stays as it is; the phase moves at the next tick,
from rest to Attack. -/
def Obligations.GateOnSetsTheGateOnly : Prop :=
  (∀ (e : Env) (s : State),
    exec (.envGateOn e) s = .next (s.setEnv e { s.env e with gate := true }) ∧
    exec (.envGateOn e) (s.setEnv e { s.env e with gate := true }) = .next (s.setEnv e { s.env e with gate := true }) ∧
    ((s.env e).gate = true → exec (.envGateOn e) s = .next s) ∧
    (∃ t, exec (.envTick e) (s.setEnv e { s.env e with gate := true }) = .next t ∧
      (t.env e).phase = nextPhase s.par true (s.env e).phase (s.env e).out) ∧
    (s.env e = EnvRegs.rest → ∃ t u, exec (.envGateOn e) s = .next t ∧
      t.env e = { gate := true, phase := .release, out := .fin false 0 0 } ∧
      exec (.envTick e) t = .next u ∧ (u.env e).phase = .attack)) ∧
  (∀ (a : Byte) (d1 d0 : P), decodeCmd (0x11#8 ++ a ++ d1 ++ d0) = .envGateOn (if a.getLsbD 0 then .mod else .amp))

/-- R114: the gate becomes false, nothing else; twice is once; the next tick is a Release tick, from any phase and output; from 0.5 it
returns `0.5 * alpha` (in WCD). -/
def Obligations.GateOffSetsTheGateOnly : Prop :=
  (∀ (e : Env) (s : State),
    exec (.envGateOff e) s = .next (s.setEnv e { s.env e with gate := false }) ∧
    exec (.envGateOff e) (s.setEnv e { s.env e with gate := false }) = .next (s.setEnv e { s.env e with gate := false }) ∧
    (∃ t, exec (.envTick e) (s.setEnv e { s.env e with gate := false }) = .next t ∧ (t.env e).phase = .release ∧
      (t.env e).gate = false ∧
      ((s.env e).out = Machine.Num.half → s.quiet = true → Machine.Num.positive s.sr.value = true →
        Safety.paramOk s (releaseIdx e) = true →
        (t.env e).out = Machine.Num.mul s.par Machine.Num.half
          (Claims.alphaOf s.par s.sr.value (Claims.timeConstant s.store e .release))))) ∧
  (∀ (a : Byte) (d1 d0 : P), decodeCmd (0x12#8 ++ a ++ d1 ++ d0) = .envGateOff (if a.getLsbD 0 then .mod else .amp))

/-- R115: gate false, output +0.0, Release, whatever they were (a NaN too); this is the instance's reset state; on an instance at rest
it is a no-op; the next tick keeps the envelope silent as long as no gate-on comes (in WCD). -/
def Obligations.RetrigGivesTheRestState : Prop :=
  (∀ (e : Env) (s : State),
    exec (.envRetrig e) s = .next (s.setEnv e { gate := false, phase := .release, out := .fin false 0 0 }) ∧
    (∃ t, exec .reset s = .next t ∧ t.env e = { gate := false, phase := .release, out := .fin false 0 0 }) ∧
    (s.env e = { gate := false, phase := .release, out := .fin false 0 0 } → exec (.envRetrig e) s = .next s) ∧
    (Machine.Num.positive s.sr.value = true → Safety.paramOk s (releaseIdx e) = true →
      ∃ t, exec (.envTick e) (s.setEnv e { gate := false, phase := .release, out := .fin false 0 0 }) = .next t ∧
        t.env e = { gate := false, phase := .release, out := .fin false 0 0 } ∧ t.res = .single 0)) ∧
  (∀ (a : Byte) (d1 d0 : P), decodeCmd (0x13#8 ++ a ++ d1 ++ d0) = .envRetrig (if a.getLsbD 0 then .mod else .amp))

/-- R112 corner case 3: at rest every tick returns 0 and leaves the envelope as it is, under any race, in WCD. -/
def Obligations.EnvelopeAtRestStaysSilent : Prop :=
  ∀ (e : Env) (s : State), s.env e = EnvRegs.rest → Machine.Num.positive s.sr.value = true →
    Safety.paramOk s (releaseIdx e) = true →
      ∃ t, exec (.envTick e) s = .next t ∧ t.env e = EnvRegs.rest ∧ t.res = .single 0

/-- R112 corner case 2: a Release tick from a non-negative output returns `o * alpha`. -/
def Obligations.ReleaseTickScalesTheOutput : Prop :=
  ∀ (e : Env) (s : State) (m : Nat) (x : Int),
    (s.env e).gate = false → (s.env e).out = .fin false m x →
    Machine.Num.representable s.par.fmt (.fin false m x) = true →
    s.quiet = true → Machine.Num.positive s.sr.value = true → Safety.paramOk s (releaseIdx e) = true →
      ∃ t, exec (.envTick e) s = .next t ∧ (t.env e).phase = .release ∧
        (t.env e).out = Machine.Num.mul s.par (.fin false m x)
          (Claims.alphaOf s.par s.sr.value (Claims.timeConstant s.store e .release))

/-- R100, R112 corner case 4: a NaN output stays until RESET or ENV.RETRIG (also the one inside a NOTE_ON of another note). -/
def Obligations.NaNEnvelopeStaysUntilRetrig : Prop :=
  ∀ (e : Env) (i : Instr) (s : State), Claims.Runs i s → (s.env e).out = .nan →
    Claims.effective i ≠ .reset → Claims.effective i ≠ .envRetrig e →
    (∀ n b2, Claims.effective i = .noteOn n b2 → n = s.note) →
      ∃ t, exec i s = .next t ∧ (t.env e).out = .nan

/-! ## VCO -/

/-- R138: the carried width, and nothing else. -/
def Obligations.ModPwComputesTheCarriedWidth : Prop :=
  ∀ (cv : P) (s : State), s.quiet = true →
    exec (.vcoModPw cv) s = .next
      { s with pw := { value := Claims.width s.par (Machine.Num.toF s.store[5]) (Machine.Num.toF cv) (Machine.Num.toF s.store[6])
                       written := true } }

/-- R56, R138, R158, R237: under any race each occurrence of a parameter in the two modulation formulas is a read of its own, old or
new, the second occurrence of a parameter never older than the first (log 17); no other register changes. -/
def Obligations.RacingModulationReadsEachOccurrence : Prop :=
  ∀ (cv noteCV : P) (s : State),
    let value (i : Fin 20) (c : Nat) : F := Machine.Num.toF ((s.store[i] :: pending i s.inFlight).getD c 0)
    (∃ t b b' d, exec (.vcoModPw cv) s = .next t ∧ b ≤ b' ∧ b' ≤ (pending 5 s.inFlight).length ∧
      d ≤ (pending 6 s.inFlight).length ∧
      t = { s with store := t.store, inFlight := t.inFlight, free := t.free
                   pw := { value := Machine.Num.add s.par (value 5 b)
                             (Machine.Num.mul s.par (Machine.Num.mul s.par
                               (Machine.Num.sub s.par (.fin false 1 0) (value 5 b')) (Machine.Num.toF cv)) (value 6 d))
                           written := true } }) ∧
    (∃ t b b' d k, exec (.vcfModFc cv noteCV) s = .next t ∧ b ≤ b' ∧ b' ≤ (pending 12 s.inFlight).length ∧
      d ≤ (pending 14 s.inFlight).length ∧ k ≤ (pending 15 s.inFlight).length ∧
      t = { s with store := t.store, inFlight := t.inFlight, free := t.free
                   fc := { value := Claims.cutoff s.par s.sr.value (value 12 b) (value 12 b') (Machine.Num.toF cv) (value 14 d)
                             (Machine.Num.toF noteCV) (value 15 k)
                           written := true } })

/-- R138 corner case 2: a zero cv or a zero depth gives the base width exactly (a base width of sign +, gradual underflow). -/
def Obligations.ZeroModulationKeepsTheBaseWidth : Prop :=
  ∀ (cv : P) (s : State) (m : Nat) (x : Int), s.quiet = true → s.par.underflow = .gradual →
    Machine.Num.toF s.store[5] = .fin false m x → Safety.inUnit (.fin false m x) = true →
    Machine.Num.isFinite (Machine.Num.toF cv) = true → Machine.Num.isFinite (Machine.Num.toF s.store[6]) = true →
    (Machine.Num.eq (Machine.Num.toF cv) Machine.Num.zero = true ∨
      Machine.Num.eq (Machine.Num.toF s.store[6]) Machine.Num.zero = true) →
      exec (.vcoModPw cv) s = .next { s with pw := { value := .fin false m x, written := true } }

/-- R139 with R130 to R136: the sample, computed with the counter before its increment; then the counter; nothing else. The tick uses
four indices of the model's free values, the result port a fifth. Under a race each mix level is read old or new (R56). -/
def Obligations.VcoTickComputesTheMix : Prop :=
  ∀ (f : P) (s : State), s.n + 1 < 2 ^ s.par.cntW →
    let v := Claims.mixed s.par s.n s.free s.sr.value s.pw.value (Machine.Num.toF f)
    (s.quiet = true → exec (.vcoTick f) s = .next
      { s with n := s.n + 1, res := .single (Machine.Num.toP (Config.nanBits (s.free + 4)) (v s.store)), free := s.free + 5 }) ∧
    (∃ t c k, exec (.vcoTick f) s = .next t ∧ Claims.Choice s c ∧
      t = { s with n := s.n + 1, res := .single (Machine.Num.toP (Config.nanBits k) (v (Claims.seen s c)))
                   store := t.store, inFlight := t.inFlight, free := t.free })

/-- The examples of R131 to R134 at `t = 0`, averaged by R136: at counter 0 and width 0 the saw, square and sub signals are +0 and the
triangle is 1, when the frequencies and angular rates involved are positive and finite. -/
def Obligations.SignalsAtCounterZero : Prop :=
  ∀ (p : Params) (sr f : F) (k : Nat),
    let twoPi := Machine.Num.mul p (Machine.Num.lit 2) (Machine.Num.pi p)
    let h := Machine.Num.div p f (Machine.Num.lit 2)
    Machine.Num.positive sr = true → Machine.Num.positive f = true → Machine.Num.positive h = true →
    Machine.Num.positive (Machine.Num.mul p twoPi f) = true → Machine.Num.positive (Machine.Num.mul p twoPi h) = true →
    Machine.Num.isFinite (Machine.Num.div p (Machine.Num.mul p twoPi f) sr) = true →
    Machine.Num.isFinite (Machine.Num.div p (Machine.Num.mul p twoPi h) sr) = true →
      let g := signals { par := p, n := 0, sr := sr } Machine.Num.zero k f
      g.saw = Machine.Num.zero ∧ g.tri = Machine.Num.lit 1 ∧ g.square = Machine.Num.zero ∧ g.sub = Machine.Num.zero

/-- R24, R221: RESET sets the counter to 0, VCO.TICK and RENDER add 1, nothing else writes it; at its maximum these two are refused. -/
def Obligations.CounterCountsOscillatorTicks : Prop :=
  ∀ (i : Instr) (s : State),
    (Claims.ticks i = true → s.n + 1 = 2 ^ s.par.cntW → exec i s = .refused .counterExhausted) ∧
    (Claims.Runs i s → ∃ t, exec i s = .next t ∧
      (i = .reset → t.n = 0) ∧
      ((∃ f, i = .vcoTick f) ∨ (∃ l r, i = .render l r) → t.n = s.n + 1) ∧
      (i ≠ .reset → (∀ f, i ≠ .vcoTick f) → (∀ l r, i ≠ .render l r) → t.n = s.n))

/-! ## VCF -/

/-- R158: the carried cutoff, and nothing else. -/
def Obligations.ModFcComputesTheCarriedCutoff : Prop :=
  ∀ (cv noteCV : P) (s : State), s.quiet = true →
    exec (.vcfModFc cv noteCV) s = .next
      { s with fc := { value := Claims.cutoff s.par s.sr.value (Machine.Num.toF s.store[12]) (Machine.Num.toF s.store[12]) (Machine.Num.toF cv)
                         (Machine.Num.toF s.store[14]) (Machine.Num.toF noteCV) (Machine.Num.toF s.store[15])
                       written := true } }

/-- R159 with R150 to R156: the coefficient from the present `SR` and `vcf.fc`, the ladder on the clipped input less the feedback, the
gain on the returned value alone; nothing but the filter registers and the result changes. Under a race the resonance is read old or new
(R56), once (R159). -/
def Obligations.FilterComputesTheLadder : Prop :=
  ∀ (x : P) (s : State),
    let r (k : F) := Claims.ladderAfter s.par s.filt (Claims.drive s.par s.filt (Machine.Num.toF x) k)
      (Claims.coefficient s.par s.fc.value s.sr.value)
    let v (k : F) := Machine.Num.mul s.par (Claims.gain s.par k) (r k).d4
    let old := Machine.Num.toF s.store[13]
    (s.quiet = true → exec (.vcfFilter x) s = .next
      { s with filt := r old, res := Claims.one s (v old), free := s.free + 1 }) ∧
    (∃ t c j, exec (.vcfFilter x) s = .next t ∧ Claims.Choice s c ∧
      let k := Machine.Num.toF (Claims.seen s c)[13]
      t = { s with filt := r k, res := .single (Machine.Num.toP (Config.nanBits j) (v k))
                   store := t.store, inFlight := t.inFlight, free := t.free })

/-- R150, R152, R159 corner case 3: a zero cutoff gives a zero coefficient, and a cleared filter then returns 0 and stays cleared in
every output and delay register, whatever the input, as long as the clipped input is finite. -/
def Obligations.ZeroCutoffFreezesTheClearedFilter : Prop :=
  ∀ (x : P) (s : State), s.quiet = true → s.filt = FilterRegs.cleared → s.fc.value = Machine.Num.zero →
    Machine.Num.positive s.sr.value = true →
    Machine.Num.positive (Machine.Num.mul s.par (Machine.Num.lit 2) s.sr.value) = true →
    Safety.inUnit (Machine.Num.toF s.store[13]) = true →
    Machine.Num.isFinite (Claims.saturated s.par (Machine.Num.toF x)) = true →
      Claims.coefficient s.par s.fc.value s.sr.value = Machine.Num.zero ∧
      ∃ t, exec (.vcfFilter x) s = .next t ∧ t.res = .single 0 ∧
        (∀ i : Fin 4, t.filt.st[i].y = Machine.Num.zero) ∧
        t.filt.d2 = Machine.Num.zero ∧ t.filt.d3 = Machine.Num.zero ∧ t.filt.d4 = Machine.Num.zero

/-- R100, R211: a NaN in a stage or delay register stays there until RESET. -/
def Obligations.NaNInTheFilterStaysUntilReset : Prop :=
  ∀ (i : Instr) (s : State), Claims.Runs i s → i ≠ .reset →
    ∃ t, exec i s = .next t ∧
      (∀ k : Fin 4, (s.filt.st[k].y = .nan → t.filt.st[k].y = .nan) ∧ (s.filt.st[k].u = .nan → t.filt.st[k].u = .nan)) ∧
      (s.filt.d2 = .nan → t.filt.d2 = .nan) ∧ (s.filt.d3 = .nan → t.filt.d3 = .nan) ∧ (s.filt.d4 = .nan → t.filt.d4 = .nan)

/-! ## Voice -/

/-- R170: P2F reads and writes no register; its value is the formula's. -/
def Obligations.P2fComputesThePitch : Prop :=
  ∀ (n : Byte) (s : State),
    exec (.p2f n) s = .next { s with res := Claims.one s (Claims.pitchOf s.par n), free := s.free + 1 }

/-- R170, R99: 440 Hz for note 69 and 880 Hz for note 81, exactly, whatever the parameters of the implementation. -/
def Obligations.PitchIsExactAtA4AndItsOctave : Prop :=
  ∀ s : State,
    (∃ t, exec (.p2f 69) s = .next t ∧ t.res = .single 0x43DC0000) ∧
    (∃ t, exec (.p2f 81) s = .next t ∧ t.res = .single 0x445C0000)

/-- R170: the pitch is finite and positive for all 256 notes (the one limit the model sets on `pow2` beyond R99: log 22). -/
def Obligations.PitchIsFiniteAndPositive : Prop :=
  ∀ (p : Params) (n : Byte), Machine.Num.positive (pitch p n) = true

/-- R172: the order of the operations of a sample, each invoked once; both channels carry `toP(y * a)`. -/
def Obligations.RenderComposesTheSample : Prop :=
  ∀ (inL inR : P) (s : State), s.n + 1 < 2 ^ s.par.cntW →
    let a := envTick .amp s
    let m := envTick .mod a.2
    let sPw := vcoModPw m.1 m.2
    let sFc := vcfModFc m.1 (Machine.Num.u2f s.par s.note.toNat) sPw
    let x := vcoTick (Claims.pitchOf s.par s.note) sFc
    let y := vcfFilter x.1 x.2
    let o := Machine.Num.toP (Config.nanBits y.2.free) (Machine.Num.mul s.par y.1 a.1)
    exec (.render inL inR) s = .next { y.2 with res := .stereo o o, free := y.2.free + 1 }

/-- R65: the input samples influence no state and no output; the same value stands on both channels. -/
def Obligations.RenderDiscardsItsInputs : Prop :=
  ∀ (inL inR inL' inR' : P) (s : State),
    exec (.render inL inR) s = exec (.render inL' inR') s ∧
    (s.n + 1 < 2 ^ s.par.cntW → ∃ t o, exec (.render inL inR) s = .next t ∧ t.res = .stereo o o)

/-- R172 corner case 1, R233: while the amplitude envelope is at rest it stays at rest, and the sample is a zero of either sign, or the
filter's output was not finite. -/
def Obligations.RenderAtRestIsSilent : Prop :=
  ∀ (inL inR : P) (s : State), s.amp = EnvRegs.rest → Machine.Num.positive s.sr.value = true →
    s.n + 1 < 2 ^ s.par.cntW → Safety.paramOk s pAmpRelease = true →
      ∃ t, exec (.render inL inR) s = .next t ∧ t.amp = EnvRegs.rest ∧
        (t.res = .stereo 0 0 ∨ t.res = .stereo 0x80000000 0x80000000 ∨ Machine.Num.isFinite (sampleOf s).filtered = false)

/-- R174: the comparison is with the previous held note; a different note restarts both envelopes from 0 before gating them on; no
oscillator or filter state is touched; after a reset the result does not depend on the held note. -/
def Obligations.NoteOnSetsTheHeldNote : Prop :=
  ∀ (n b2 : Byte) (s : State),
    (n ≠ s.note → exec (.noteOn n b2) s = .next
      { s with note := n, amp := { gate := true, phase := .release, out := .fin false 0 0 }
               mod := { gate := true, phase := .release, out := .fin false 0 0 } }) ∧
    (n = s.note → exec (.noteOn n b2) s = .next
      { s with amp := { s.amp with gate := true }, mod := { s.mod with gate := true } }) ∧
    (s.amp = EnvRegs.rest → s.mod = EnvRegs.rest →
      ∀ k, exec (.noteOn n b2) { s with note := k } = exec (.noteOn n b2) s)

/-- R175: only the held note's note-off gates off, and it changes the gates alone. -/
def Obligations.NoteOffReleasesTheHeldNoteOnly : Prop :=
  ∀ (n b2 : Byte) (s : State),
    (n = s.note → exec (.noteOff n b2) s = .next
      { s with amp := { s.amp with gate := false }, mod := { s.mod with gate := false } }) ∧
    (n ≠ s.note → exec (.noteOff n b2) s = .next s)

/-- R176: any other status reads, writes, returns and raises nothing. -/
def Obligations.OtherStatusIsIgnored : Prop :=
  ∀ (b0 b1 b2 : Byte) (s : State), b0 ≠ 0x90 → b0 ≠ 0x80 →
    exec (.midiIgn b0 b1 b2) s = .next s ∧ exec (.evt b0 b1 b2) s = .next s ∧
    decodeMidi (b0 ++ b1 ++ b2) = .midiIgn b0 b1 b2

/-- R178: no note stack: the second note replaces the first, its note-off releases the voice, and the first note's late note-off is
ignored. -/
def Obligations.OneNoteIsHeld : Prop :=
  ∀ (n n' b2 : Byte) (s : State), n ≠ n' →
    ∃ t u v, exec (.noteOn n b2) s = .next t ∧ t.note = n ∧ exec (.noteOn n' b2) t = .next u ∧ u.note = n' ∧
      u.amp.gate = true ∧ u.mod.gate = true ∧ exec (.noteOff n b2) u = .next u ∧
      exec (.noteOff n' b2) u = .next v ∧ v.note = n' ∧ v.amp.gate = false ∧ v.mod.gate = false ∧
      exec (.noteOff n b2) v = .next v

/-! ## The whole machine -/

/-- R60: no command blocks, waits or fails, whatever `HU` has in flight: a command has a step in every state, over a free value where a
register it reads has none (log 3), except that a tick at the counter's maximum is refused by name (R24, R213 item 4); with nothing
pending (log 2) or an event of `HU` the machine has a step too. The outcome R213 asks of a model, `Safety.strict`, refuses in exactly the
situations of its items 1 and 4, before any state change, and is the command's effect in all others. -/
def Obligations.EveryCommandHasAStep : Prop :=
  (∀ (i : Instr) (s : State),
    (Claims.Runs i s → ∃ t, exec i s = .next t ∧ (Claims.HasValues i s → Safety.strict i s = .next t)) ∧
    (¬ Claims.Runs i s → exec i s = .refused .counterExhausted) ∧
    (¬ (Claims.HasValues i s ∧ Claims.Runs i s) → ∃ r, Safety.strict i s = .refused r ∧ r ∈ Safety.noMeaning i s)) ∧
  (∀ s : State, (∀ w rest, s.port = .command w :: rest → Claims.Runs (decodeCmd w) s) → ∃ t, step s = .next t)

/-- R7, R63, R232: a step runs the decoded command that is next on the port, in the state without it and without the result before;
with nothing pending nothing changes (log 2); the events of `HU` are steps of their own (log 14). -/
def Obligations.StepRunsTheDecodedCommand : Prop :=
  ∀ s : State,
    (∀ w rest, s.port = .command w :: rest → step s = exec (decodeCmd w) { s with port := rest, res := .none }) ∧
    (∀ w : CmdWord, step (s.withFetchWord 80 w.toNat) = exec (decodeCmd w) { s with res := .none }) ∧
    (∀ m : MidiWord, step (s.withFetchWord 24 m.toNat) =
      exec (.evt (m.extractLsb' 16 8) (m.extractLsb' 8 8) (m.extractLsb' 0 8)) { s with res := .none }) ∧
    (s.port = [] → step s = .next s) ∧
    (∀ (i : Byte) v rest (h : i.toNat < 20), s.port = .writeBegins i v :: rest →
      step s = .next { s with port := rest, res := .none, inFlight := s.inFlight ++ [⟨⟨i.toNat, h⟩, v, false⟩] }) ∧
    (∀ i rest, s.port = .readOverlaps i :: rest → step s = .next { s with port := rest, res := .single (s.latest i) }) ∧
    (∀ rest, s.port = .writeEnds :: rest →
      (s.inFlight = [] → step s = .next { s with port := rest, res := .none }) ∧
      (∀ w ws, s.inFlight = w :: ws → step s = .next
        { s with port := rest, res := .none, inFlight := ws,
                 store := if w.landed then s.store else s.store.set w.idx w.val }))

/-- The word of any well-formed instruction, put on the command port, runs that instruction; a MIDI3 word is carried by EVT (R72). -/
def Obligations.AssembledInstructionRuns : Prop :=
  ∀ (i : Instr) (s : State) (rest : List PortEvent), WellFormed i →
    step { s with port := .command (assemble i) :: rest } = exec i { s with port := rest, res := .none }

/-- R59, R38: a step takes exactly one event from the port, in order, and never writes the parameters of the implementation. -/
def Obligations.StepConsumesOneEvent : Prop :=
  ∀ s t : State, step s = .next t → t.port = s.port.tail ∧ t.par = s.par

/-- Every step keeps the counter below `2^CNT_W`, every `F` register a datum of `FMT`, and the delay registers equal to the outputs of
stages 2, 3 and 4 (R9, R24, R30). -/
def Obligations.StepKeepsTheInvariant : Prop :=
  ∀ s t : State, Safety.Inv s → step s = .next t → Safety.Inv t

/-- The invariant holds after power-on, whatever the parameters, and at `State.reset`. -/
def Obligations.PowerOnMeetsTheInvariant : Prop :=
  (∀ p : Params, Safety.Inv (State.powerOn p)) ∧ Safety.Inv State.reset

/-- R39: a command leaves every register alone that its row does not mark `w` (for EVT the row of the decoded form). -/
def Obligations.CommandsWriteOnlyTheirRegisters : Prop :=
  ∀ (i : Instr) (s : State), Claims.Runs i s → ∃ t, exec i s = .next t ∧
    (∀ r, r ∉ Claims.writesOf (Claims.effective i) → Claims.Same r s t) ∧ t.port = s.port ∧ t.par = s.par

/-- R73: after a step the result port holds one value, two equal values, or no result, by the command (which values: the statements
about each command). -/
def Obligations.ResultPortByCommand : Prop :=
  ∀ (s : State) (w : CmdWord) (rest : List PortEvent), s.port = .command w :: rest → Claims.Runs (decodeCmd w) s →
    ∃ t, step s = .next t ∧ Claims.ResultOf (decodeCmd w) t.res

/-! ## Numbers -/

/-- R93: on finite operands the four operations give the rounding of the exact result: a datum of `FMT` with none of the format's finite
data nearer, the even one of two as near, or, on overflow, the infinity of its sign (gradual underflow; division by zero is in the corner
cases). -/
def Obligations.RoundingIsToNearest : Prop :=
  ∀ (p : Params) (x y : F), p.underflow = .gradual → Machine.Num.isFinite x = true → Machine.Num.isFinite y = true →
    Claims.Rounded p.fmt (Claims.val x + Claims.val y) (Machine.Num.add p x y) ∧
    Claims.Rounded p.fmt (Claims.val x - Claims.val y) (Machine.Num.sub p x y) ∧
    Claims.Rounded p.fmt (Claims.val x * Claims.val y) (Machine.Num.mul p x y) ∧
    (Claims.val y ≠ 0 → Claims.Rounded p.fmt (Claims.val x / Claims.val y) (Machine.Num.div p x y))

/-- The corner cases of R93: `x - x`, `0 * x`, `0 * inf`, division by zero, `inf - inf`, overflow, NaN operands. -/
def Obligations.ArithmeticCornerCases : Prop :=
  ∀ (p : Params) (a b : Bool) (m : Nat) (e : Int) (x : F),
    Machine.Num.sub p (.fin a m e) (.fin a m e) = .fin false 0 0 ∧
    Machine.Num.mul p (.fin b 0 0) (.fin a m e) = .fin (b != a) 0 0 ∧
    Machine.Num.mul p (.fin b 0 0) (.inf a) = .nan ∧
    (m ≠ 0 → Machine.Num.div p (.fin a m e) (.fin b 0 0) = .inf (a != b)) ∧
    Machine.Num.div p (.fin a 0 0) (.fin b 0 0) = .nan ∧
    Machine.Num.sub p (.inf a) (.inf a) = .nan ∧
    Machine.Num.mul p (.fin a 1 1023) (.fin b 1 1023) = .inf (a != b) ∧
    (Machine.Num.add p .nan x = .nan ∧ Machine.Num.add p x .nan = .nan) ∧
    (Machine.Num.sub p .nan x = .nan ∧ Machine.Num.sub p x .nan = .nan) ∧
    (Machine.Num.mul p .nan x = .nan ∧ Machine.Num.mul p x .nan = .nan) ∧
    (Machine.Num.div p .nan x = .nan ∧ Machine.Num.div p x .nan = .nan)

/-- R98: `floor` is the largest integer not greater than its operand, exact for every finite datum of the format. -/
def Obligations.FloorIsExact : Prop :=
  ∀ (p : Params) (x : F), Machine.Num.isFinite x = true → Machine.Num.representable p.fmt x = true →
    Machine.Num.isFinite (Machine.Num.floor p x) = true ∧ Claims.val (Machine.Num.floor p x) = (⌊Claims.val x⌋ : ℚ)

/-- The named properties 1 to 6 of R102, `tanh` odd and never decreasing (what a format can hold of R95's "strictly increasing"),
`clip(1) = 1` (R155) and the range of a draw (R10), as the model's limits of its uninterpreted functions give them (log 6, 11, 22). -/
def Obligations.NamedPropertiesOfNum : Prop :=
  ∀ (p : Params) (x : F), Machine.Num.isFinite x = true →
    (Machine.Num.lt x Machine.Num.zero = true →
      Machine.Num.le Machine.Num.zero (Machine.Num.exp p x) = true ∧
      Machine.Num.le (Machine.Num.exp p x) (Machine.Num.lit 1) = true) ∧
    (Machine.Num.le Machine.Num.zero x = true →
      Machine.Num.le Machine.Num.zero (Machine.Num.tanh p x) = true ∧
      Machine.Num.le (Machine.Num.tanh p x) (Machine.Num.lit 1) = true) ∧
    Safety.TanhPos p ∧ Claims.saturated p (Machine.Num.lit 1) = Machine.Num.lit 1 ∧
    Machine.Num.tanh p (Machine.Num.negate x) = Machine.Num.negate (Machine.Num.tanh p x) ∧
    (∀ y, Machine.Num.representable p.fmt x = true → Machine.Num.representable p.fmt y = true → Machine.Num.le x y = true →
      Machine.Num.le (Machine.Num.tanh p x) (Machine.Num.tanh p y) = true) ∧
    Machine.Num.le Machine.Num.minusOne (Machine.Num.cos p x) = true ∧
    Machine.Num.le (Machine.Num.cos p x) (Machine.Num.lit 1) = true ∧
    Machine.Num.pow2 p Machine.Num.zero = Machine.Num.lit 1 ∧
    Machine.Num.pow2 p (Machine.Num.lit 1) = Machine.Num.lit 2 ∧
    Machine.Num.sin p Machine.Num.zero = Machine.Num.zero ∧
    (∀ k, Machine.Num.le Machine.Num.minusOne (Machine.Num.draw p k) = true ∧
      Machine.Num.le (Machine.Num.draw p k) (Machine.Num.lit 1) = true)

/-- R9, R99 (vector V-NUM-3): `toF` is exact and `toP` gives the pattern back; a NaN stays a NaN. -/
def Obligations.PortFloatRoundTrip : Prop :=
  ∀ (w : P) (code : Nat),
    (Machine.Num.toF w ≠ .nan → Machine.Num.toP code (Machine.Num.toF w) = w) ∧
    Machine.Num.toF (Machine.Num.toP code .nan) = .nan
end

