-- ==== Sys2Proof/Laws/Encode.lean ====
section
/-! SUPPORT. Each field of a packed word reads back as it was packed (`30_encoding.md` R70, R72). -/

namespace Sys2Proof

/-- A packed command word, bit by bit. -/
theorem getLsbD_packCmd (op a : Byte) (d1 d0 : P) (i : Nat) :
    (packCmd op a d1 d0).getLsbD i =
      if i < 32 then d0.getLsbD i
      else if i < 64 then d1.getLsbD (i - 32)
      else if i < 72 then a.getLsbD (i - 64) else op.getLsbD (i - 72) := by
  change BitVec.getLsbD (w := 8 + 8 + 32 + 32) (op ++ a ++ d1 ++ d0) i = _
  simp only [BitVec.getLsbD_append, Nat.sub_sub]
  by_cases h1 : i < 32
  · rw [if_pos h1, if_pos h1]
  · by_cases h2 : i < 64
    · rw [if_neg h1, if_neg h1, if_pos h2, if_pos (by omega)]
    · by_cases h3 : i < 72
      · rw [if_neg h1, if_neg h1, if_neg h2, if_neg (by omega), if_pos h3, if_pos (by omega)]
      · rw [if_neg h1, if_neg h1, if_neg h2, if_neg (by omega), if_neg h3, if_neg (by omega)]

/-- A packed message, bit by bit. -/
theorem getLsbD_packMidi (b0 b1 b2 : Byte) (i : Nat) :
    (packMidi b0 b1 b2).getLsbD i =
      if i < 8 then b2.getLsbD i else if i < 16 then b1.getLsbD (i - 8) else b0.getLsbD (i - 16) := by
  change BitVec.getLsbD (w := 8 + 8 + 8) (b0 ++ b1 ++ b2) i = _
  simp only [BitVec.getLsbD_append, Nat.sub_sub]
  by_cases h1 : i < 8
  · rw [if_pos h1, if_pos h1]
  · by_cases h2 : i < 16
    · rw [if_neg h1, if_neg h1, if_pos h2, if_pos (by omega)]
    · rw [if_neg h1, if_neg h1, if_neg h2, if_neg (by omega)]

@[simp] theorem opOf_packCmd (op a : Byte) (d1 d0 : P) : opOf (packCmd op a d1 d0) = op := by
  apply BitVec.eq_of_getLsbD_eq
  intro i hi
  rw [opOf, field, BitVec.getLsbD_extractLsb', getLsbD_packCmd]
  simp [hi, show ¬ 72 + i < 32 by omega, show ¬ 72 + i < 64 by omega, show ¬ 72 + i < 72 by omega]

@[simp] theorem aOf_packCmd (op a : Byte) (d1 d0 : P) : aOf (packCmd op a d1 d0) = a := by
  apply BitVec.eq_of_getLsbD_eq
  intro i hi
  rw [aOf, field, BitVec.getLsbD_extractLsb', getLsbD_packCmd]
  simp [hi, show ¬ 64 + i < 32 by omega, show ¬ 64 + i < 64 by omega, show 64 + i < 72 by omega]

@[simp] theorem d1Of_packCmd (op a : Byte) (d1 d0 : P) : d1Of (packCmd op a d1 d0) = d1 := by
  apply BitVec.eq_of_getLsbD_eq
  intro i hi
  rw [d1Of, field, BitVec.getLsbD_extractLsb', getLsbD_packCmd]
  simp [hi, show ¬ 32 + i < 32 by omega, show 32 + i < 64 by omega]

@[simp] theorem d0Of_packCmd (op a : Byte) (d1 d0 : P) : d0Of (packCmd op a d1 d0) = d0 := by
  apply BitVec.eq_of_getLsbD_eq
  intro i hi
  rw [d0Of, field, BitVec.getLsbD_extractLsb', getLsbD_packCmd]
  simp [hi]

/-- The message of a word is the low 24 bits of its `d0` (R72). -/
@[simp] theorem msgOf_packCmd (op a : Byte) (d1 d0 : P) : msgOf (packCmd op a d1 d0) = d0.setWidth 24 := by
  apply BitVec.eq_of_getLsbD_eq
  intro i hi
  rw [msgOf, field, BitVec.getLsbD_extractLsb', getLsbD_packCmd]
  simp [hi]
  omega

@[simp] theorem midiB0_packMidi (b0 b1 b2 : Byte) : midiB0 (packMidi b0 b1 b2) = b0 := by
  apply BitVec.eq_of_getLsbD_eq
  intro i hi
  rw [midiB0, field, BitVec.getLsbD_extractLsb', getLsbD_packMidi]
  simp [hi, show ¬ 16 + i < 8 by omega, show ¬ 16 + i < 16 by omega]

@[simp] theorem midiB1_packMidi (b0 b1 b2 : Byte) : midiB1 (packMidi b0 b1 b2) = b1 := by
  apply BitVec.eq_of_getLsbD_eq
  intro i hi
  rw [midiB1, field, BitVec.getLsbD_extractLsb', getLsbD_packMidi]
  simp [hi, show ¬ 8 + i < 8 by omega, show 8 + i < 16 by omega]

@[simp] theorem midiB2_packMidi (b0 b1 b2 : Byte) : midiB2 (packMidi b0 b1 b2) = b2 := by
  apply BitVec.eq_of_getLsbD_eq
  intro i hi
  rw [midiB2, field, BitVec.getLsbD_extractLsb', getLsbD_packMidi]
  simp [hi]

/-- `d0` of an EVT holds its message in the low 24 bits. -/
@[simp] theorem setWidth_setWidth_midi (m : MidiWord) : (m.setWidth 32).setWidth 24 = m := by
  apply BitVec.eq_of_getLsbD_eq
  intro i hi
  simp [hi]

end Sys2Proof
end

