-- ==== Sys2Proof/Laws/Num.lean ====
section
/-! SUPPORT. What the rounding operation can do, and that every numeric primitive gives a datum its format can hold. -/

namespace Sys2Proof.Machine.Num

/-! ## Canonical form -/

/-- Halving an even positive number takes one from its logarithm. -/
theorem log2_half {m : Nat} (h0 : m ≠ 0) (h : m % 2 = 0) : m.log2 = (m / 2).log2 + 1 := by
  have h2 : m / 2 ≠ 0 := by omega
  have hm : m = 2 * (m / 2) := by omega
  have : (2 * (m / 2)).log2 = (m / 2).log2 + 1 := Nat.log2_two_mul h2
  rw [← hm] at this
  exact this

/-- What `strip` gives: an odd significand, the same value, the same logarithm of the value. -/
theorem strip_spec (k : Nat) (neg : Bool) (m : Nat) (e : Int) (h0 : m ≠ 0) (hk : m.log2 ≤ k) :
    ∃ m' j : Nat, strip k neg m e = .fin neg m' (e + j) ∧ m' % 2 = 1 ∧ m = m' * 2 ^ j ∧ m.log2 = m'.log2 + j := by
  induction k generalizing m e with
  | zero =>
    have h1 : m = 1 := by
      have h2 := Nat.lt_log2_self (n := m)
      rw [Nat.le_zero.mp hk] at h2
      omega
    subst h1
    exact ⟨1, 0, by simp [strip], by decide, by simp, by simp⟩
  | succ k ih =>
    by_cases hm : m % 2 = 0
    · have hl := log2_half h0 hm
      obtain ⟨m', j, hs, ho, hv, hg⟩ := ih (m / 2) (e + 1) (by omega) (by omega)
      refine ⟨m', j + 1, ?_, ho, ?_, by omega⟩
      · rw [strip, if_pos hm, hs]
        simp only [F.fin.injEq, true_and]
        push_cast
        omega
      · rw [pow_succ, ← mul_assoc, ← hv]
        omega
    · exact ⟨m, 0, by simp [strip, hm], by omega, by simp, by simp⟩

/-- `mk` gives a canonical datum, representable when its significand and exponent fit. -/
theorem mk_representable (f : Format) (neg : Bool) (m : Nat) (e : Int) (hm : m ≤ 2 ^ prec f)
    (he : m ≠ 0 → minExp f ≤ e) (hl : m ≠ 0 → (m.log2 : Int) + e ≤ maxLog f) :
    representable f (mk neg m e) = true := by
  unfold mk
  split
  · simp [representable]
  next h0 =>
    obtain ⟨m', j, hs, ho, hv, hg⟩ := strip_spec m.log2 neg m e h0 le_rfl
    rw [hs]
    have h1 := he h0
    have h2 := hl h0
    have hlt : m' < 2 ^ prec f := by
      rcases j with _ | j
      · have : m' = m := by simpa using hv.symm
        have hp : 2 ^ prec f % 2 = 0 := by cases f <;> decide
        rcases Nat.lt_or_ge m' (2 ^ prec f) with h | h
        · exact h
        · have : m' = 2 ^ prec f := by omega
          omega
      · have : m' * 2 ≤ m := by
          rw [hv, pow_succ]
          have : 1 ≤ 2 ^ j := Nat.one_le_two_pow
          nlinarith
        have : 0 < m' := by omega
        omega
    have hne : m' ≠ 0 := by omega
    simp only [representable, hne, if_false, Bool.and_eq_true, beq_iff_eq, decide_eq_true_eq]
    refine ⟨⟨⟨ho, hlt⟩, ?_⟩, ?_⟩
    · omega
    · push_cast [hg] at h2
      omega

/-- `mk` of an odd significand is the datum itself. -/
theorem mk_odd (neg : Bool) (m : Nat) (e : Int) (h : m % 2 = 1) : mk neg m e = .fin neg m e := by
  have h0 : m ≠ 0 := by omega
  rw [mk, if_neg h0]
  cases hk : m.log2 with
  | zero => rfl
  | succ k => rw [strip, if_neg (by omega)]


/-- The significand and exponent of a product by a power of two of an odd number are unique. -/
theorem odd_mul_two_pow_inj {a b i j : Nat} (ha : a % 2 = 1) (hb : b % 2 = 1) (h : a * 2 ^ i = b * 2 ^ j) :
    a = b ∧ i = j := by
  have key : ∀ {a b i j : Nat}, a % 2 = 1 → b % 2 = 1 → a * 2 ^ i = b * 2 ^ j → i ≤ j → a = b ∧ i = j := by
    intro a b i j ha hb h hij
    obtain ⟨k, rfl⟩ := Nat.exists_eq_add_of_le hij
    have hp : 0 < 2 ^ i := Nat.two_pow_pos i
    have h' : a = b * 2 ^ k := by
      have : a * 2 ^ i = (b * 2 ^ k) * 2 ^ i := by rw [h, pow_add]; ring
      exact Nat.eq_of_mul_eq_mul_right hp this
    cases k with
    | zero => exact ⟨by simpa using h', rfl⟩
    | succ k => rw [pow_succ, ← mul_assoc] at h'; omega
  rcases Nat.le_total i j with hij | hij
  · exact key ha hb h hij
  · obtain ⟨h1, h2⟩ := key hb ha h.symm hij
    exact ⟨h1.symm, h2.symm⟩

/-- Only the value matters to `mk`. -/
theorem mk_shift (neg : Bool) (m : Nat) (e : Int) (j : Nat) (h : m % 2 = 1) :
    mk neg (m * 2 ^ j) e = .fin neg m (e + j) := by
  have h0 : m * 2 ^ j ≠ 0 := Nat.mul_ne_zero (by omega) (Nat.two_pow_pos j).ne'
  rw [mk, if_neg h0]
  obtain ⟨m', i, hs, ho, hv, -⟩ := strip_spec _ neg _ e h0 le_rfl
  obtain ⟨rfl, rfl⟩ := odd_mul_two_pow_inj h ho hv
  exact hs

/-! ## Rounding -/

/-- Rounding to an integer stays at or below a bound that the quotient is below. -/
theorem roundHalfEven_le {n d b : Nat} (h : n < d * b) : roundHalfEven n d ≤ b := by
  have hq : n / d < b := Nat.div_lt_of_lt_mul h
  simp only [roundHalfEven]
  split <;> omega

/-- An exact quotient is its own rounding. -/
theorem roundHalfEven_exact {n d k : Nat} (hd : 0 < d) (h : n = d * k) : roundHalfEven n d = k := by
  subst h
  simp [roundHalfEven, Nat.mul_div_cancel_left k hd, hd]

/-- The logarithm that `roundQ` takes: the value is at least that power of two and below the next. -/
theorem ilog2_spec {n d : Nat} (e : Int) (hn : n ≠ 0) (hd : d ≠ 0) :
    (2 : ℚ) ^ ilog2 n d e ≤ (n : ℚ) / d * 2 ^ e ∧ (n : ℚ) / d * 2 ^ e < 2 ^ (ilog2 n d e + 1) := by
  have hn1 := Nat.log2_self_le hn
  have hn2 := Nat.lt_log2_self (n := n)
  have hd1 := Nat.log2_self_le hd
  have hd2 := Nat.lt_log2_self (n := d)
  have two : (2 : ℚ) ≠ 0 := by norm_num
  have hdq : (0 : ℚ) < d := by exact_mod_cast Nat.pos_of_ne_zero hd
  have he : (0 : ℚ) < 2 ^ e := by positivity
  set g : Int := (n.log2 : Int) - (d.log2 : Int) with hg
  have n1 : (2 : ℚ) ^ (n.log2 : Int) ≤ n := by rw [zpow_natCast]; exact_mod_cast hn1
  have n2 : (n : ℚ) < 2 ^ ((n.log2 : Int) + 1) := by
    have : (n : ℚ) < 2 ^ (n.log2 + 1) := by exact_mod_cast hn2
    exact_mod_cast this
  have d1 : (2 : ℚ) ^ (d.log2 : Int) ≤ d := by rw [zpow_natCast]; exact_mod_cast hd1
  have d2 : (d : ℚ) < 2 ^ ((d.log2 : Int) + 1) := by
    have : (d : ℚ) < 2 ^ (d.log2 + 1) := by exact_mod_cast hd2
    exact_mod_cast this
  -- the test compares the quotient with `2^g`
  have test : d <<< g.toNat ≤ n <<< (-g).toNat ↔ (2 : ℚ) ^ g ≤ n / d := by
    rw [le_div_iff₀ hdq, Nat.shiftLeft_eq, Nat.shiftLeft_eq]
    rcases le_total 0 g with h | h
    · have h1 : (-g).toNat = 0 := by omega
      have h2 : (2 : ℚ) ^ g = 2 ^ g.toNat := by
        rw [← zpow_natCast, Int.toNat_of_nonneg h]
      rw [h1, h2, mul_comm ((2 : ℚ) ^ g.toNat)]
      simp only [pow_zero, mul_one]
      exact_mod_cast Iff.rfl
    · have h1 : g.toNat = 0 := by omega
      have h2 : (2 : ℚ) ^ g * 2 ^ (-g).toNat = 1 := by
        rw [← zpow_natCast, Int.toNat_of_nonneg (by omega), ← zpow_add₀ two]
        simp
      rw [h1]
      simp only [pow_zero, mul_one]
      have hp : (0 : ℚ) < 2 ^ (-g).toNat := by positivity
      have h3 : (2 : ℚ) ^ g * d ≤ n ↔ (2 : ℚ) ^ g * d * 2 ^ (-g).toNat ≤ n * 2 ^ (-g).toNat :=
        (mul_le_mul_iff_left₀ hp).symm
      rw [h3, mul_right_comm, h2, one_mul]
      exact_mod_cast Iff.rfl
  have up : (n : ℚ) / d < 2 ^ (g + 1) := by
    rw [div_lt_iff₀ hdq]
    calc (n : ℚ) < 2 ^ ((n.log2 : Int) + 1) := n2
      _ = 2 ^ (g + 1) * 2 ^ (d.log2 : Int) := by rw [← zpow_add₀ two]; congr 1; omega
      _ ≤ 2 ^ (g + 1) * d := by gcongr
  have low : (2 : ℚ) ^ (g - 1) ≤ n / d := by
    rw [le_div_iff₀ hdq]
    calc (2 : ℚ) ^ (g - 1) * d ≤ 2 ^ (g - 1) * 2 ^ ((d.log2 : Int) + 1) := by gcongr
      _ = 2 ^ (n.log2 : Int) := by rw [← zpow_add₀ two]; congr 1; omega
      _ ≤ n := n1
  have all : ∀ t : Int, (2 : ℚ) ^ t ≤ n / d → (n : ℚ) / d < 2 ^ (t + 1) →
      (2 : ℚ) ^ (t + e) ≤ (n : ℚ) / d * 2 ^ e ∧ (n : ℚ) / d * 2 ^ e < 2 ^ (t + e + 1) := by
    intro t h1 h2
    constructor
    · rw [zpow_add₀ two]; gcongr
    · rw [add_right_comm, zpow_add₀ two]; gcongr
  simp only [ilog2, ← hg]
  split
  next h => exact all g (test.mp h) up
  next h =>
    have h' := not_le.mp (fun hh => h (test.mpr hh))
    exact all (g - 1) low (by rwa [sub_add_cancel])

/-- A shift by a difference of exponents, as a power of two. -/
theorem shift_ratio {n d : Nat} (e q : Int) (hd : d ≠ 0) :
    ((n <<< (e - q).toNat : Nat) : ℚ) = (n : ℚ) / d * 2 ^ e / 2 ^ q * ((d <<< (q - e).toNat : Nat) : ℚ) := by
  have two : (2 : ℚ) ≠ 0 := by norm_num
  have hdq : (d : ℚ) ≠ 0 := by exact_mod_cast hd
  simp only [Nat.shiftLeft_eq, Nat.cast_mul, Nat.cast_pow, Nat.cast_ofNat]
  rw [mul_div_assoc, ← zpow_sub₀ two]
  rcases le_total q e with h | h
  · have h1 : (q - e).toNat = 0 := by omega
    have h2 : (2 : ℚ) ^ (e - q) = 2 ^ (e - q).toNat := by rw [← zpow_natCast, Int.toNat_of_nonneg (by omega)]
    rw [h1, h2]
    field_simp
  · have h1 : (e - q).toNat = 0 := by omega
    have h2 : (2 : ℚ) ^ (e - q) * 2 ^ (q - e).toNat = 1 := by
      rw [← zpow_natCast, Int.toNat_of_nonneg (by omega), ← zpow_add₀ two]
      simp
    rw [h1, show (n : ℚ) / d * 2 ^ (e - q) * (d * 2 ^ (q - e).toNat) =
      n / d * d * (2 ^ (e - q) * 2 ^ (q - e).toNat) by ring, h2]
    field_simp

/-- Rounding gives a datum the format can hold. -/
theorem roundQ_representable (f : Format) (u : Underflow) (neg : Bool) (n d : Nat) (e : Int) (hd : d ≠ 0) :
    representable f (roundQ f u neg n d e) = true := by
  unfold roundQ
  split
  · simp [representable]
  next hn =>
    set q := max (ilog2 n d e - (prec f - 1 : Nat)) (minExp f) with hq
    have hk : roundHalfEven (n <<< (e - q).toNat) (d <<< (q - e).toNat) ≤ 2 ^ prec f := by
      have hpos : 0 < d <<< (q - e).toNat := by
        rw [Nat.shiftLeft_eq]
        exact Nat.mul_pos (Nat.pos_of_ne_zero hd) (Nat.two_pow_pos _)
      refine roundHalfEven_le ?_
      have h1 := (ilog2_spec e hn hd).2
      have hp : 1 ≤ prec f := by cases f <;> decide
      have h2 : ilog2 n d e + 1 ≤ q + (prec f : Int) := by omega
      have h3 : (n : ℚ) / d * 2 ^ e < 2 ^ q * 2 ^ (prec f : Int) := by
        rw [← zpow_add₀ (by norm_num : (2 : ℚ) ≠ 0)]
        exact lt_of_lt_of_le h1 (zpow_le_zpow_right₀ (by norm_num) h2)
      have hq0 : (0 : ℚ) < 2 ^ q := by positivity
      have h4 : (n : ℚ) / d * 2 ^ e / 2 ^ q < 2 ^ prec f := by
        rw [div_lt_iff₀ hq0, mul_comm ((2 : ℚ) ^ prec f)]
        rwa [zpow_natCast] at h3
      have h5 : ((n <<< (e - q).toNat : Nat) : ℚ) < ((d <<< (q - e).toNat * 2 ^ prec f : Nat) : ℚ) := by
        rw [shift_ratio e q hd, mul_comm, Nat.cast_mul]
        have : (0 : ℚ) < ((d <<< (q - e).toNat : Nat) : ℚ) := by exact_mod_cast hpos
        push_cast
        gcongr
      exact_mod_cast h5
    dsimp only
    split
    · simp [representable]
    · split
      · simp [representable]
      next hu ho => exact mk_representable f neg _ q hk (fun _ => le_max_right _ _) (fun _ => by omega)

/-- A datum the format can hold is its own rounding. -/
theorem roundQ_exact (f : Format) (neg : Bool) (m : Nat) (e : Int) (hm : m ≠ 0)
    (h : representable f (.fin neg m e) = true) : roundQ f .gradual neg m 1 e = .fin neg m e := by
  simp only [representable, hm, if_false, Bool.and_eq_true, beq_iff_eq, decide_eq_true_eq] at h
  obtain ⟨⟨⟨ho, hlt⟩, he⟩, hl⟩ := h
  have hil : ilog2 m 1 e = m.log2 + e := by
    have h1 : (1 : Nat) <<< m.log2 ≤ m := by
      rw [Nat.shiftLeft_eq, one_mul]
      exact Nat.log2_self_le hm
    simp [ilog2, h1, show Nat.log2 1 = 0 from by decide]
  have hlog : m.log2 < prec f := (Nat.log2_lt hm).mpr hlt
  have hp : 1 ≤ prec f := by cases f <;> decide
  rw [roundQ, if_neg hm, hil]
  set q := max ((m.log2 : Int) + e - (prec f - 1 : Nat)) (minExp f) with hq
  have hqe : q ≤ e := by omega
  obtain ⟨j, hj⟩ := Int.eq_ofNat_of_zero_le (show 0 ≤ e - q by omega)
  have hk : roundHalfEven (m <<< (e - q).toNat) (1 <<< (q - e).toNat) = m * 2 ^ j := by
    rw [show (q - e).toNat = 0 by omega, show (e - q).toNat = j by omega]
    exact roundHalfEven_exact (by decide) (by simp [Nat.shiftLeft_eq])
  have hlk : (m * 2 ^ j).log2 = m.log2 + j := by
    obtain ⟨m', i, hs, ho', hv, hg⟩ :=
      strip_spec _ neg (m * 2 ^ j) e (Nat.mul_ne_zero hm (Nat.two_pow_pos j).ne') le_rfl
    obtain ⟨rfl, rfl⟩ := odd_mul_two_pow_inj ho ho' hv
    exact hg
  dsimp only
  rw [hk, if_neg (by simp), if_neg (by push_cast [hlk]; omega), mk_shift neg m q j ho]
  congr 1
  omega

/-! ## Bit patterns -/

/-- A pattern within the format's width is a datum of the format. -/
theorem ofMag_representable (f : Format) (neg : Bool) (mag : Nat) (h : mag < 2 ^ (expBits f + fracBits f)) :
    representable f (ofMag f neg mag) = true := by
  have hex : mag / 2 ^ fracBits f < 2 ^ expBits f := by
    rw [Nat.div_lt_iff_lt_mul (Nat.two_pow_pos _), ← pow_add]
    exact h
  have hfr : mag % 2 ^ fracBits f < 2 ^ fracBits f := Nat.mod_lt _ (Nat.two_pow_pos _)
  have hp : prec f = fracBits f + 1 := by cases f <;> rfl
  unfold ofMag
  dsimp only
  split
  · split <;> simp [representable]
  next h1 =>
    split
    next h2 =>
      refine mk_representable f neg _ _ ?_ (fun _ => le_rfl) (fun h0 => ?_)
      · rw [hp, pow_succ]; omega
      · have : (mag % 2 ^ fracBits f).log2 < fracBits f := (Nat.log2_lt h0).mpr hfr
        cases f <;> simp only [fracBits, minExp, maxLog] at * <;> omega
    next h2 =>
      refine mk_representable f neg _ _ ?_ (fun _ => ?_) (fun h0 => ?_)
      · rw [hp, pow_succ]; omega
      · generalize mag / 2 ^ fracBits f = ex at h2
        omega
      · have h3 : (2 ^ fracBits f + mag % 2 ^ fracBits f).log2 < fracBits f + 1 :=
          (Nat.log2_lt h0).mpr (by rw [pow_succ]; omega)
        cases f <;> simp only [fracBits, expBits, minExp, maxLog] at * <;> omega

/-- Binary32 is a subset of binary64 (R9). -/
theorem representable_of_binary32 (f : Format) (x : F) (h : representable .binary32 x = true) :
    representable f x = true := by
  cases f with
  | binary32 => exact h
  | binary64 =>
    cases x with
    | nan => rfl
    | inf _ => rfl
    | fin neg m e =>
      by_cases h0 : m = 0
      · simpa [representable, h0] using h
      · simp only [representable, h0, if_false, Bool.and_eq_true, beq_iff_eq, decide_eq_true_eq] at h ⊢
        simp only [prec, minExp, maxLog] at h ⊢
        refine ⟨⟨⟨h.1.1.1, ?_⟩, ?_⟩, ?_⟩
        · exact lt_of_lt_of_le h.1.1.2 (by decide)
        · omega
        · omega

/-- A port value is a datum of either format (R9). -/
@[simp] theorem toF_representable (f : Format) (w : P) : representable f (toF w) = true := by
  apply representable_of_binary32
  apply ofMag_representable
  simp only [expBits, fracBits]
  omega

/-- Every code chooses a datum of the format. -/
@[simp] theorem anyF_representable (f : Format) (code : Nat) : representable f (anyF f code) = true :=
  ofMag_representable f _ _ (Nat.mod_lt _ (Nat.two_pow_pos _))

/-- A magnitude range within the format's width. -/
theorem inMag_representable (f : Format) (neg : Bool) (lo hi code : Nat) (hle : lo ≤ hi)
    (h : hi < 2 ^ (expBits f + fracBits f)) : representable f (inMag f neg lo hi code) = true := by
  apply ofMag_representable
  have := Nat.mod_lt code (show 0 < hi - lo + 1 by omega)
  omega

/-- A nonzero significand stays nonzero. -/
theorem mk_ne_zero (neg : Bool) (m : Nat) (e : Int) (h : m ≠ 0) : ∃ m' e', mk neg m e = .fin neg m' e' ∧ m' ≠ 0 := by
  obtain ⟨m', j, hs, ho, -⟩ := strip_spec m.log2 neg m e h le_rfl
  exact ⟨m', e + j, by rw [mk, if_neg h, hs], by omega⟩

/-- A magnitude pattern below that of the infinity is a finite datum of its sign. -/
theorem ofMag_finite (f : Format) (neg : Bool) (mag : Nat) (h : mag < infMag f) :
    ∃ m e, ofMag f neg mag = .fin neg m e ∧ (mag ≠ 0 → m ≠ 0) := by
  have hex : mag / 2 ^ fracBits f < 2 ^ expBits f - 1 :=
    (Nat.div_lt_iff_lt_mul (Nat.two_pow_pos _)).mpr h
  have hdm := Nat.div_add_mod mag (2 ^ fracBits f)
  unfold ofMag
  dsimp only
  rw [if_neg (by omega)]
  split
  next h0 =>
    rw [h0, Nat.mul_zero, Nat.zero_add] at hdm
    rw [hdm]
    by_cases hm : mag = 0
    · exact ⟨0, 0, by rw [mk, if_pos hm], fun h => absurd hm h⟩
    · obtain ⟨m', e', h1, h2⟩ := mk_ne_zero neg mag (minExp f) hm
      exact ⟨m', e', h1, fun _ => h2⟩
  next h0 =>
    have := Nat.two_pow_pos (fracBits f)
    obtain ⟨m', e', h1, h2⟩ := mk_ne_zero neg (2 ^ fracBits f + mag % 2 ^ fracBits f) (minExp f + ↑(mag / 2 ^ fracBits f) - 1) (by omega)
    exact ⟨m', e', h1, fun _ => h2⟩

/-! ## Magnitude patterns are ordered as their values -/

/-- The comparison of two numbers of sign +, on their values. -/
theorem lt_pos {m k : Nat} {e d : Int} : lt (.fin false m e) (.fin false k d) = true ↔ (m : ℚ) * 2 ^ e < k * 2 ^ d := by
  have two : (2 : ℚ) ≠ 0 := by norm_num
  have key : ∀ (a : Nat) (x c : Int), c ≤ x → ((a <<< (x - c).toNat : Nat) : ℚ) = a * 2 ^ x / 2 ^ c := by
    intro a x c h
    rw [Nat.shiftLeft_eq, mul_div_assoc, ← zpow_sub₀ two, Nat.cast_mul, Nat.cast_pow, ← zpow_natCast,
      Int.toNat_of_nonneg (by omega)]
    norm_num
  have hc : (0 : ℚ) < 2 ^ min e d := by positivity
  simp only [lt, aligned, signed, Bool.false_eq_true, if_false, decide_eq_true_eq]
  rw [← div_lt_div_iff_of_pos_right hc, ← key m e _ (min_le_left _ _), ← key k d _ (min_le_right _ _)]
  exact_mod_cast Iff.rfl

/-- Canonical form keeps the value. -/
theorem mk_pos (m : Nat) (e : Int) : ∃ m' e', mk false m e = .fin false m' e' ∧ (m' : ℚ) * 2 ^ e' = m * 2 ^ e := by
  by_cases h0 : m = 0
  · exact ⟨0, 0, by rw [mk, if_pos h0], by simp [h0]⟩
  · obtain ⟨m', j, hs, -, hv, -⟩ := strip_spec m.log2 false m e h0 le_rfl
    refine ⟨m', e + j, by rw [mk, if_neg h0, hs], ?_⟩
    rw [hv, zpow_add₀ (by norm_num), zpow_natCast]
    push_cast
    ring

/-- The significand and exponent that a finite magnitude pattern stands for. -/
theorem ofMag_pos (f : Format) (k : Nat) (h : k < infMag f) :
    ∃ m e, ofMag f false k = .fin false m e ∧
      (m : ℚ) * 2 ^ e = if k / 2 ^ fracBits f = 0 then ((k % 2 ^ fracBits f : Nat) : ℚ) * 2 ^ minExp f
        else ((2 ^ fracBits f + k % 2 ^ fracBits f : Nat) : ℚ) * 2 ^ (minExp f + (k / 2 ^ fracBits f : Nat) - 1) := by
  have hex : k / 2 ^ fracBits f < 2 ^ expBits f - 1 := (Nat.div_lt_iff_lt_mul (Nat.two_pow_pos _)).mpr h
  unfold ofMag
  dsimp only
  rw [if_neg (by omega)]
  split <;> exact mk_pos _ _

/-- Of two finite magnitude patterns the greater stands for the greater number. -/
theorem ofMag_lt (f : Format) {j k : Nat} (hjk : j < k) (h : k < infMag f) : lt (ofMag f false j) (ofMag f false k) = true := by
  obtain ⟨m, e, hm, hv⟩ := ofMag_pos f j (by omega)
  obtain ⟨n, d, hn, hw⟩ := ofMag_pos f k h
  rw [hm, hn, lt_pos, hv, hw]
  have hp := Nat.two_pow_pos (fracBits f)
  have hj := Nat.mod_lt j hp
  have hle : j / 2 ^ fracBits f ≤ k / 2 ^ fracBits f := Nat.div_le_div_right hjk.le
  set B := 2 ^ fracBits f with hB
  set x := j / B
  set y := k / B
  have hdj : B * x + j % B = j := Nat.div_add_mod j B
  have hdk : B * y + k % B = k := Nat.div_add_mod k B
  have pos : ∀ c : Int, (0 : ℚ) < 2 ^ c := fun c => by positivity
  rcases Nat.lt_or_ge x y with hxy | hxy
  · have hy : y ≠ 0 := Nat.ne_zero_of_lt hxy
    rw [if_neg hy]
    have up : ((B : ℚ)) * 2 ^ (minExp f + (y : Nat) - 1) ≤ ((B + k % B : Nat) : ℚ) * 2 ^ (minExp f + (y : Nat) - 1) := by
      gcongr
      omega
    refine lt_of_lt_of_le ?_ up
    split
    next hx =>
      calc ((j % B : Nat) : ℚ) * 2 ^ minExp f < (B : ℚ) * 2 ^ minExp f := by
            have : ((j % B : Nat) : ℚ) < B := by exact_mod_cast hj
            exact mul_lt_mul_of_pos_right this (pos _)
        _ ≤ _ := by
            gcongr
            · norm_num
            · omega
    next hx =>
      calc ((B + j % B : Nat) : ℚ) * 2 ^ (minExp f + (x : Nat) - 1) < ((B * 2 : Nat) : ℚ) * 2 ^ (minExp f + (x : Nat) - 1) := by
            have : ((B + j % B : Nat) : ℚ) < ((B * 2 : Nat) : ℚ) := by exact_mod_cast (by omega : B + j % B < B * 2)
            exact mul_lt_mul_of_pos_right this (pos _)
        _ = (B : ℚ) * 2 ^ (minExp f + (x : Nat)) := by
            rw [show minExp f + (x : Int) = (minExp f + x - 1) + 1 by ring, zpow_add₀ (by norm_num)]
            push_cast
            ring_nf
        _ ≤ _ := by
            gcongr
            · norm_num
            · omega
  · have hxy' : x = y := le_antisymm hle hxy
    have hlt : j % B < k % B := by
      rw [hxy'] at hdj
      omega
    rw [hxy']
    split
    · exact mul_lt_mul_of_pos_right (by exact_mod_cast hlt) (pos _)
    · exact mul_lt_mul_of_pos_right (by exact_mod_cast Nat.add_lt_add_left hlt B) (pos _)

/-- `magOf` reads the pattern of a datum of the format back, for either sign. -/
theorem ofMag_magOf (f : Format) (neg : Bool) {m : Nat} {e : Int} (h0 : m ≠ 0) (h : representable f (.fin neg m e) = true) :
    ofMag f neg (magOf f m e) = .fin neg m e ∧ magOf f m e < infMag f := by
  simp only [representable, h0, if_false, Bool.and_eq_true, beq_iff_eq, decide_eq_true_eq] at h
  obtain ⟨⟨⟨ho, hlt⟩, he⟩, hl⟩ := h
  have hlog : m.log2 < prec f := (Nat.log2_lt h0).mpr hlt
  have hpf : prec f = fracBits f + 1 := by cases f <;> rfl
  have hbias : minExp f = 1 - bias f - fracBits f := by cases f <;> rfl
  have hmax : maxLog f = bias f := by cases f <;> rfl
  have hexp : 2 * bias f + 1 = 2 ^ expBits f - 1 := by cases f <;> rfl
  have hp := Nat.two_pow_pos (fracBits f)
  unfold magOf
  dsimp only
  split
  next hn =>
    obtain ⟨c, hc⟩ := Int.eq_ofNat_of_zero_le (show 0 ≤ (m.log2 : Int) + e + bias f by omega)
    have hs : m <<< (fracBits f - m.log2) = m * 2 ^ (fracBits f - m.log2) := Nat.shiftLeft_eq _ _
    have lo : 2 ^ fracBits f ≤ m * 2 ^ (fracBits f - m.log2) := by
      calc 2 ^ fracBits f = 2 ^ m.log2 * 2 ^ (fracBits f - m.log2) := by rw [← pow_add]; congr 1; omega
        _ ≤ _ := Nat.mul_le_mul_right _ (Nat.log2_self_le h0)
    have hi : m * 2 ^ (fracBits f - m.log2) < 2 * 2 ^ fracBits f := by
      calc m * 2 ^ (fracBits f - m.log2) < 2 ^ (m.log2 + 1) * 2 ^ (fracBits f - m.log2) :=
            Nat.mul_lt_mul_of_pos_right Nat.lt_log2_self (Nat.two_pow_pos _)
        _ = 2 * 2 ^ fracBits f := by rw [← pow_add, ← pow_succ']; congr 1; omega
    rw [hs, hc, Int.toNat_natCast]
    set B := 2 ^ fracBits f
    set M := m * 2 ^ (fracBits f - m.log2) with hM
    have hdiv : (c * B + (M - B)) / B = c := by
      rw [mul_comm, Nat.mul_add_div hp, Nat.div_eq_of_lt (by omega), Nat.add_zero]
    have hmod : (c * B + (M - B)) % B = M - B := by
      rw [mul_comm, Nat.mul_add_mod, Nat.mod_eq_of_lt (by omega)]
    have hc1 : c ≤ 2 * bias f := by omega
    constructor
    · unfold ofMag
      dsimp only
      rw [hdiv, hmod, if_neg (by omega), if_neg (by omega), Nat.add_sub_cancel' lo, hM, mk_shift neg m _ _ ho]
      congr 1
      omega
    · unfold infMag
      rw [← hexp]
      calc c * B + (M - B) < c * B + B := by omega
        _ = (c + 1) * B := by ring
        _ ≤ (2 * bias f + 1) * B := Nat.mul_le_mul_right _ (by omega)
  next hn =>
    obtain ⟨c, hc⟩ := Int.eq_ofNat_of_zero_le (show 0 ≤ e - minExp f by omega)
    rw [hc, Int.toNat_natCast, Nat.shiftLeft_eq]
    have hi : m * 2 ^ c < 2 ^ fracBits f := by
      calc m * 2 ^ c < 2 ^ (m.log2 + 1) * 2 ^ c := Nat.mul_lt_mul_of_pos_right Nat.lt_log2_self (Nat.two_pow_pos _)
        _ = 2 ^ (m.log2 + 1 + c) := by rw [← pow_add]
        _ ≤ _ := Nat.pow_le_pow_right (by decide) (by omega)
    have hone : 1 ≤ 2 * bias f + 1 := by omega
    constructor
    · unfold ofMag
      dsimp only
      rw [Nat.div_eq_of_lt hi, Nat.mod_eq_of_lt hi, if_neg (by omega), if_pos rfl, mk_shift neg m _ _ ho]
      congr 1
      omega
    · unfold infMag
      rw [← hexp]
      calc m * 2 ^ c < 2 ^ fracBits f := hi
        _ = 1 * 2 ^ fracBits f := (Nat.one_mul _).symm
        _ ≤ _ := Nat.mul_le_mul_right _ hone

/-- The pattern of the greater of two positive numbers of the format is the greater. -/
theorem magOf_le (f : Format) {m k : Nat} {e d : Int} (h0 : m ≠ 0) (hk : k ≠ 0) (hm : representable f (.fin false m e) = true)
    (hr : representable f (.fin false k d) = true) (h : (m : ℚ) * 2 ^ e ≤ k * 2 ^ d) : magOf f m e ≤ magOf f k d := by
  obtain ⟨h1, h2⟩ := ofMag_magOf f false h0 hm
  obtain ⟨h3, -⟩ := ofMag_magOf f false hk hr
  by_contra hc
  have := ofMag_lt f (Nat.lt_of_not_le hc) h2
  rw [h1, h3, lt_pos] at this
  exact absurd this (not_lt.mpr h)

/-- The least pattern that `tanh` may give does not decrease. -/
theorem tanhFloor_mono (f : Format) {m k : Nat} {e d : Int} (h0 : m ≠ 0) (h : (m : ℚ) * 2 ^ e ≤ k * 2 ^ d) :
    tanhFloor f m e ≤ tanhFloor f k d := by
  have hlog : (m.log2 : Int) + e ≤ k.log2 + d := by
    have h1 : (2 : ℚ) ^ ((m.log2 : Int) + e) ≤ m * 2 ^ e := by
      rw [zpow_add₀ (by norm_num), zpow_natCast]
      gcongr
      exact_mod_cast Nat.log2_self_le h0
    have h2 : (k : ℚ) * 2 ^ d < 2 ^ ((k.log2 : Int) + d + 1) := by
      rw [add_right_comm, zpow_add₀ (by norm_num)]
      have : (k : ℚ) < 2 ^ ((k.log2 : Int) + 1) := by exact_mod_cast (Nat.lt_log2_self (n := k))
      gcongr
    have h3 := lt_of_le_of_lt (h1.trans h) h2
    have := (zpow_lt_zpow_iff_right₀ (by norm_num : (1 : ℚ) < 2)).mp h3
    omega
  unfold tanhFloor
  split <;> split <;> omega

/-- `tanh` never decreases: in patterns. -/
theorem tanhMag_mono (p : Params) {m k : Nat} {e d : Int} (h0 : m ≠ 0) (hk : k ≠ 0)
    (hm : representable p.fmt (.fin false m e) = true) (hr : representable p.fmt (.fin false k d) = true)
    (h : (m : ℚ) * 2 ^ e ≤ k * 2 ^ d) : tanhMag p m e ≤ tanhMag p k d :=
  max_le_max (tanhFloor_mono _ h0 h) (min_le_min_left _ ((Config.tanh p).monotone (magOf_le _ h0 hk hm hr h)))

/-- `tanh` gives at most 1. -/
theorem tanhMag_le (p : Params) (m : Nat) (e : Int) : tanhMag p m e ≤ pow2Mag p.fmt 0 := by
  have h1 : 1 ≤ pow2Mag p.fmt 0 := by cases p.fmt <;> decide
  have h2 : tanhFloor p.fmt m e ≤ 1 := by unfold tanhFloor; split <;> omega
  exact max_le (h2.trans h1) (min_le_left _ _)

/-- `tanh` of 1 is a positive finite datum (R95). -/
theorem tanh_one (p : Params) : ∃ m e, tanh p (lit 1) = .fin false m e ∧ m ≠ 0 := by
  have h1 : lit 1 = .fin false 1 0 := by decide
  have hlo : tanhFloor p.fmt 1 0 = 1 := by cases p.fmt <;> decide
  have hlt : pow2Mag p.fmt 0 < infMag p.fmt := by cases p.fmt <;> decide
  rw [h1]
  simp only [tanh, one_ne_zero, if_false]
  have hle := tanhMag_le p 1 0
  have hpos : 1 ≤ tanhMag p 1 0 := (show 1 ≤ tanhFloor p.fmt 1 0 by rw [hlo]).trans (le_max_left _ _)
  obtain ⟨m, e, h, h0⟩ := ofMag_finite p.fmt false (tanhMag p 1 0) (by omega)
  exact ⟨m, e, h, h0 (by omega)⟩

/-- A draw is finite. -/
theorem draw_finite (p : Params) (k : Nat) : ∃ neg m e, draw p k = .fin neg m e := by
  have hlt : pow2Mag p.fmt 0 < infMag p.fmt := by cases p.fmt <;> decide
  have := Nat.mod_lt (Config.draw k / 2) (show 0 < pow2Mag p.fmt 0 - 0 + 1 by omega)
  obtain ⟨m, e, h, -⟩ := ofMag_finite p.fmt (Config.draw k % 2 == 1) (0 + Config.draw k / 2 % (pow2Mag p.fmt 0 - 0 + 1)) (by omega)
  exact ⟨_, m, e, h⟩

/-! ## Every arithmetic operation gives a datum of its format, whatever its operands -/

@[simp] theorem add_representable (p : Params) (x y : F) : representable p.fmt (add p x y) = true := by
  cases x <;> cases y <;> simp only [add] <;> (try split) <;>
    first | rfl | exact roundQ_representable _ _ _ _ _ _ (by decide)

@[simp] theorem sub_representable (p : Params) (x y : F) : representable p.fmt (sub p x y) = true :=
  add_representable p x (negate y)

@[simp] theorem mul_representable (p : Params) (x y : F) : representable p.fmt (mul p x y) = true := by
  cases x <;> cases y <;> simp only [mul] <;> (try split) <;>
    first | rfl | exact roundQ_representable _ _ _ _ _ _ (by decide)

@[simp] theorem div_representable (p : Params) (x y : F) : representable p.fmt (div p x y) = true := by
  cases x <;> cases y <;> simp only [div] <;> (try split) <;> (try split) <;>
    first | rfl | (next h => exact roundQ_representable _ _ _ _ _ _ h)

@[simp] theorem u2f_representable (p : Params) (n : Nat) : representable p.fmt (u2f p n) = true :=
  roundQ_representable _ _ _ _ _ _ (by decide)

@[simp] theorem thresh_representable (p : Params) : representable p.fmt (thresh p) = true :=
  roundQ_representable _ _ _ _ _ _ (by decide)

@[simp] theorem pi_representable (p : Params) : representable p.fmt (pi p) = true := by
  unfold pi
  exact ofMag_representable _ _ _ (by cases p.fmt <;> decide)

@[simp] theorem zero_representable (f : Format) : representable f zero = true := by cases f <;> rfl

end Sys2Proof.Machine.Num
end

