-- ==== Sys2Proof/Laws/State.lean ====
section
/-! SUPPORT. What each update leaves in each field, so that no proof unfolds a record update. -/

namespace Sys2Proof.Machine

/-! ### `State.setSr` -/

@[simp] theorem State.setSr_par (s : State) (v : F) : (s.setSr v).par = s.par := rfl
@[simp] theorem State.setSr_sr (s : State) (v : F) : (s.setSr v).sr = { value := v, written := true } := rfl
@[simp] theorem State.setSr_n (s : State) (v : F) : (s.setSr v).n = s.n := rfl
@[simp] theorem State.setSr_pw (s : State) (v : F) : (s.setSr v).pw = s.pw := rfl
@[simp] theorem State.setSr_amp (s : State) (v : F) : (s.setSr v).amp = s.amp := rfl
@[simp] theorem State.setSr_mod (s : State) (v : F) : (s.setSr v).mod = s.mod := rfl
@[simp] theorem State.setSr_filt (s : State) (v : F) : (s.setSr v).filt = s.filt := rfl
@[simp] theorem State.setSr_fc (s : State) (v : F) : (s.setSr v).fc = s.fc := rfl
@[simp] theorem State.setSr_note (s : State) (v : F) : (s.setSr v).note = s.note := rfl
@[simp] theorem State.setSr_store (s : State) (v : F) : (s.setSr v).store = s.store := rfl
@[simp] theorem State.setSr_inFlight (s : State) (v : F) : (s.setSr v).inFlight = s.inFlight := rfl
@[simp] theorem State.setSr_port (s : State) (v : F) : (s.setSr v).port = s.port := rfl
@[simp] theorem State.setSr_res (s : State) (v : F) : (s.setSr v).res = s.res := rfl
@[simp] theorem State.setSr_free (s : State) (v : F) : (s.setSr v).free = s.free := rfl

/-! ### `State.setPw` -/

@[simp] theorem State.setPw_par (s : State) (v : F) : (s.setPw v).par = s.par := rfl
@[simp] theorem State.setPw_sr (s : State) (v : F) : (s.setPw v).sr = s.sr := rfl
@[simp] theorem State.setPw_n (s : State) (v : F) : (s.setPw v).n = s.n := rfl
@[simp] theorem State.setPw_pw (s : State) (v : F) : (s.setPw v).pw = { value := v, written := true } := rfl
@[simp] theorem State.setPw_amp (s : State) (v : F) : (s.setPw v).amp = s.amp := rfl
@[simp] theorem State.setPw_mod (s : State) (v : F) : (s.setPw v).mod = s.mod := rfl
@[simp] theorem State.setPw_filt (s : State) (v : F) : (s.setPw v).filt = s.filt := rfl
@[simp] theorem State.setPw_fc (s : State) (v : F) : (s.setPw v).fc = s.fc := rfl
@[simp] theorem State.setPw_note (s : State) (v : F) : (s.setPw v).note = s.note := rfl
@[simp] theorem State.setPw_store (s : State) (v : F) : (s.setPw v).store = s.store := rfl
@[simp] theorem State.setPw_inFlight (s : State) (v : F) : (s.setPw v).inFlight = s.inFlight := rfl
@[simp] theorem State.setPw_port (s : State) (v : F) : (s.setPw v).port = s.port := rfl
@[simp] theorem State.setPw_res (s : State) (v : F) : (s.setPw v).res = s.res := rfl
@[simp] theorem State.setPw_free (s : State) (v : F) : (s.setPw v).free = s.free := rfl

/-! ### `State.setFc` -/

@[simp] theorem State.setFc_par (s : State) (v : F) : (s.setFc v).par = s.par := rfl
@[simp] theorem State.setFc_sr (s : State) (v : F) : (s.setFc v).sr = s.sr := rfl
@[simp] theorem State.setFc_n (s : State) (v : F) : (s.setFc v).n = s.n := rfl
@[simp] theorem State.setFc_pw (s : State) (v : F) : (s.setFc v).pw = s.pw := rfl
@[simp] theorem State.setFc_amp (s : State) (v : F) : (s.setFc v).amp = s.amp := rfl
@[simp] theorem State.setFc_mod (s : State) (v : F) : (s.setFc v).mod = s.mod := rfl
@[simp] theorem State.setFc_filt (s : State) (v : F) : (s.setFc v).filt = s.filt := rfl
@[simp] theorem State.setFc_fc (s : State) (v : F) : (s.setFc v).fc = { value := v, written := true } := rfl
@[simp] theorem State.setFc_note (s : State) (v : F) : (s.setFc v).note = s.note := rfl
@[simp] theorem State.setFc_store (s : State) (v : F) : (s.setFc v).store = s.store := rfl
@[simp] theorem State.setFc_inFlight (s : State) (v : F) : (s.setFc v).inFlight = s.inFlight := rfl
@[simp] theorem State.setFc_port (s : State) (v : F) : (s.setFc v).port = s.port := rfl
@[simp] theorem State.setFc_res (s : State) (v : F) : (s.setFc v).res = s.res := rfl
@[simp] theorem State.setFc_free (s : State) (v : F) : (s.setFc v).free = s.free := rfl

/-! ### `State.setFilt` -/

@[simp] theorem State.setFilt_par (s : State) (r : FilterRegs) : (s.setFilt r).par = s.par := rfl
@[simp] theorem State.setFilt_sr (s : State) (r : FilterRegs) : (s.setFilt r).sr = s.sr := rfl
@[simp] theorem State.setFilt_n (s : State) (r : FilterRegs) : (s.setFilt r).n = s.n := rfl
@[simp] theorem State.setFilt_pw (s : State) (r : FilterRegs) : (s.setFilt r).pw = s.pw := rfl
@[simp] theorem State.setFilt_amp (s : State) (r : FilterRegs) : (s.setFilt r).amp = s.amp := rfl
@[simp] theorem State.setFilt_mod (s : State) (r : FilterRegs) : (s.setFilt r).mod = s.mod := rfl
@[simp] theorem State.setFilt_filt (s : State) (r : FilterRegs) : (s.setFilt r).filt = r := rfl
@[simp] theorem State.setFilt_fc (s : State) (r : FilterRegs) : (s.setFilt r).fc = s.fc := rfl
@[simp] theorem State.setFilt_note (s : State) (r : FilterRegs) : (s.setFilt r).note = s.note := rfl
@[simp] theorem State.setFilt_store (s : State) (r : FilterRegs) : (s.setFilt r).store = s.store := rfl
@[simp] theorem State.setFilt_inFlight (s : State) (r : FilterRegs) : (s.setFilt r).inFlight = s.inFlight := rfl
@[simp] theorem State.setFilt_port (s : State) (r : FilterRegs) : (s.setFilt r).port = s.port := rfl
@[simp] theorem State.setFilt_res (s : State) (r : FilterRegs) : (s.setFilt r).res = s.res := rfl
@[simp] theorem State.setFilt_free (s : State) (r : FilterRegs) : (s.setFilt r).free = s.free := rfl

/-! ### `State.setNote` -/

@[simp] theorem State.setNote_par (s : State) (k : Byte) : (s.setNote k).par = s.par := rfl
@[simp] theorem State.setNote_sr (s : State) (k : Byte) : (s.setNote k).sr = s.sr := rfl
@[simp] theorem State.setNote_n (s : State) (k : Byte) : (s.setNote k).n = s.n := rfl
@[simp] theorem State.setNote_pw (s : State) (k : Byte) : (s.setNote k).pw = s.pw := rfl
@[simp] theorem State.setNote_amp (s : State) (k : Byte) : (s.setNote k).amp = s.amp := rfl
@[simp] theorem State.setNote_mod (s : State) (k : Byte) : (s.setNote k).mod = s.mod := rfl
@[simp] theorem State.setNote_filt (s : State) (k : Byte) : (s.setNote k).filt = s.filt := rfl
@[simp] theorem State.setNote_fc (s : State) (k : Byte) : (s.setNote k).fc = s.fc := rfl
@[simp] theorem State.setNote_note (s : State) (k : Byte) : (s.setNote k).note = k := rfl
@[simp] theorem State.setNote_store (s : State) (k : Byte) : (s.setNote k).store = s.store := rfl
@[simp] theorem State.setNote_inFlight (s : State) (k : Byte) : (s.setNote k).inFlight = s.inFlight := rfl
@[simp] theorem State.setNote_port (s : State) (k : Byte) : (s.setNote k).port = s.port := rfl
@[simp] theorem State.setNote_res (s : State) (k : Byte) : (s.setNote k).res = s.res := rfl
@[simp] theorem State.setNote_free (s : State) (k : Byte) : (s.setNote k).free = s.free := rfl

/-! ### `State.tickCount` -/

@[simp] theorem State.tickCount_par (s : State) : (s.tickCount).par = s.par := rfl
@[simp] theorem State.tickCount_sr (s : State) : (s.tickCount).sr = s.sr := rfl
@[simp] theorem State.tickCount_n (s : State) : (s.tickCount).n = s.n + 1 := rfl
@[simp] theorem State.tickCount_pw (s : State) : (s.tickCount).pw = s.pw := rfl
@[simp] theorem State.tickCount_amp (s : State) : (s.tickCount).amp = s.amp := rfl
@[simp] theorem State.tickCount_mod (s : State) : (s.tickCount).mod = s.mod := rfl
@[simp] theorem State.tickCount_filt (s : State) : (s.tickCount).filt = s.filt := rfl
@[simp] theorem State.tickCount_fc (s : State) : (s.tickCount).fc = s.fc := rfl
@[simp] theorem State.tickCount_note (s : State) : (s.tickCount).note = s.note := rfl
@[simp] theorem State.tickCount_store (s : State) : (s.tickCount).store = s.store := rfl
@[simp] theorem State.tickCount_inFlight (s : State) : (s.tickCount).inFlight = s.inFlight := rfl
@[simp] theorem State.tickCount_port (s : State) : (s.tickCount).port = s.port := rfl
@[simp] theorem State.tickCount_res (s : State) : (s.tickCount).res = s.res := rfl
@[simp] theorem State.tickCount_free (s : State) : (s.tickCount).free = s.free := rfl

/-! ### `State.useFree` -/

@[simp] theorem State.useFree_par (s : State) (k : Nat) : (s.useFree k).par = s.par := rfl
@[simp] theorem State.useFree_sr (s : State) (k : Nat) : (s.useFree k).sr = s.sr := rfl
@[simp] theorem State.useFree_n (s : State) (k : Nat) : (s.useFree k).n = s.n := rfl
@[simp] theorem State.useFree_pw (s : State) (k : Nat) : (s.useFree k).pw = s.pw := rfl
@[simp] theorem State.useFree_amp (s : State) (k : Nat) : (s.useFree k).amp = s.amp := rfl
@[simp] theorem State.useFree_mod (s : State) (k : Nat) : (s.useFree k).mod = s.mod := rfl
@[simp] theorem State.useFree_filt (s : State) (k : Nat) : (s.useFree k).filt = s.filt := rfl
@[simp] theorem State.useFree_fc (s : State) (k : Nat) : (s.useFree k).fc = s.fc := rfl
@[simp] theorem State.useFree_note (s : State) (k : Nat) : (s.useFree k).note = s.note := rfl
@[simp] theorem State.useFree_store (s : State) (k : Nat) : (s.useFree k).store = s.store := rfl
@[simp] theorem State.useFree_inFlight (s : State) (k : Nat) : (s.useFree k).inFlight = s.inFlight := rfl
@[simp] theorem State.useFree_port (s : State) (k : Nat) : (s.useFree k).port = s.port := rfl
@[simp] theorem State.useFree_res (s : State) (k : Nat) : (s.useFree k).res = s.res := rfl
@[simp] theorem State.useFree_free (s : State) (k : Nat) : (s.useFree k).free = s.free + k := rfl

/-! ### `State.setStore` -/

@[simp] theorem State.setStore_par (s : State) (i : Fin 20) (v : P) : (s.setStore i v).par = s.par := rfl
@[simp] theorem State.setStore_sr (s : State) (i : Fin 20) (v : P) : (s.setStore i v).sr = s.sr := rfl
@[simp] theorem State.setStore_n (s : State) (i : Fin 20) (v : P) : (s.setStore i v).n = s.n := rfl
@[simp] theorem State.setStore_pw (s : State) (i : Fin 20) (v : P) : (s.setStore i v).pw = s.pw := rfl
@[simp] theorem State.setStore_amp (s : State) (i : Fin 20) (v : P) : (s.setStore i v).amp = s.amp := rfl
@[simp] theorem State.setStore_mod (s : State) (i : Fin 20) (v : P) : (s.setStore i v).mod = s.mod := rfl
@[simp] theorem State.setStore_filt (s : State) (i : Fin 20) (v : P) : (s.setStore i v).filt = s.filt := rfl
@[simp] theorem State.setStore_fc (s : State) (i : Fin 20) (v : P) : (s.setStore i v).fc = s.fc := rfl
@[simp] theorem State.setStore_note (s : State) (i : Fin 20) (v : P) : (s.setStore i v).note = s.note := rfl
@[simp] theorem State.setStore_store (s : State) (i : Fin 20) (v : P) : (s.setStore i v).store = s.store.set i v := rfl
@[simp] theorem State.setStore_inFlight (s : State) (i : Fin 20) (v : P) : (s.setStore i v).inFlight = s.inFlight := rfl
@[simp] theorem State.setStore_port (s : State) (i : Fin 20) (v : P) : (s.setStore i v).port = s.port := rfl
@[simp] theorem State.setStore_res (s : State) (i : Fin 20) (v : P) : (s.setStore i v).res = s.res := rfl
@[simp] theorem State.setStore_free (s : State) (i : Fin 20) (v : P) : (s.setStore i v).free = s.free := rfl

/-! ### `State.returnOne` -/

@[simp] theorem State.returnOne_par (s : State) (v : F) : (s.returnOne v).par = s.par := rfl
@[simp] theorem State.returnOne_sr (s : State) (v : F) : (s.returnOne v).sr = s.sr := rfl
@[simp] theorem State.returnOne_n (s : State) (v : F) : (s.returnOne v).n = s.n := rfl
@[simp] theorem State.returnOne_pw (s : State) (v : F) : (s.returnOne v).pw = s.pw := rfl
@[simp] theorem State.returnOne_amp (s : State) (v : F) : (s.returnOne v).amp = s.amp := rfl
@[simp] theorem State.returnOne_mod (s : State) (v : F) : (s.returnOne v).mod = s.mod := rfl
@[simp] theorem State.returnOne_filt (s : State) (v : F) : (s.returnOne v).filt = s.filt := rfl
@[simp] theorem State.returnOne_fc (s : State) (v : F) : (s.returnOne v).fc = s.fc := rfl
@[simp] theorem State.returnOne_note (s : State) (v : F) : (s.returnOne v).note = s.note := rfl
@[simp] theorem State.returnOne_store (s : State) (v : F) : (s.returnOne v).store = s.store := rfl
@[simp] theorem State.returnOne_inFlight (s : State) (v : F) : (s.returnOne v).inFlight = s.inFlight := rfl
@[simp] theorem State.returnOne_port (s : State) (v : F) : (s.returnOne v).port = s.port := rfl
@[simp] theorem State.returnOne_res (s : State) (v : F) : (s.returnOne v).res = .single (Num.toP (Config.nanBits s.free) v) := rfl
@[simp] theorem State.returnOne_free (s : State) (v : F) : (s.returnOne v).free = s.free + 1 := rfl

/-! ### `State.returnPattern` -/

@[simp] theorem State.returnPattern_par (s : State) (v : P) : (s.returnPattern v).par = s.par := rfl
@[simp] theorem State.returnPattern_sr (s : State) (v : P) : (s.returnPattern v).sr = s.sr := rfl
@[simp] theorem State.returnPattern_n (s : State) (v : P) : (s.returnPattern v).n = s.n := rfl
@[simp] theorem State.returnPattern_pw (s : State) (v : P) : (s.returnPattern v).pw = s.pw := rfl
@[simp] theorem State.returnPattern_amp (s : State) (v : P) : (s.returnPattern v).amp = s.amp := rfl
@[simp] theorem State.returnPattern_mod (s : State) (v : P) : (s.returnPattern v).mod = s.mod := rfl
@[simp] theorem State.returnPattern_filt (s : State) (v : P) : (s.returnPattern v).filt = s.filt := rfl
@[simp] theorem State.returnPattern_fc (s : State) (v : P) : (s.returnPattern v).fc = s.fc := rfl
@[simp] theorem State.returnPattern_note (s : State) (v : P) : (s.returnPattern v).note = s.note := rfl
@[simp] theorem State.returnPattern_store (s : State) (v : P) : (s.returnPattern v).store = s.store := rfl
@[simp] theorem State.returnPattern_inFlight (s : State) (v : P) : (s.returnPattern v).inFlight = s.inFlight := rfl
@[simp] theorem State.returnPattern_port (s : State) (v : P) : (s.returnPattern v).port = s.port := rfl
@[simp] theorem State.returnPattern_res (s : State) (v : P) : (s.returnPattern v).res = .single v := rfl
@[simp] theorem State.returnPattern_free (s : State) (v : P) : (s.returnPattern v).free = s.free := rfl

/-! ### `State.returnStereo` -/

@[simp] theorem State.returnStereo_par (s : State) (v : F) : (s.returnStereo v).par = s.par := rfl
@[simp] theorem State.returnStereo_sr (s : State) (v : F) : (s.returnStereo v).sr = s.sr := rfl
@[simp] theorem State.returnStereo_n (s : State) (v : F) : (s.returnStereo v).n = s.n := rfl
@[simp] theorem State.returnStereo_pw (s : State) (v : F) : (s.returnStereo v).pw = s.pw := rfl
@[simp] theorem State.returnStereo_amp (s : State) (v : F) : (s.returnStereo v).amp = s.amp := rfl
@[simp] theorem State.returnStereo_mod (s : State) (v : F) : (s.returnStereo v).mod = s.mod := rfl
@[simp] theorem State.returnStereo_filt (s : State) (v : F) : (s.returnStereo v).filt = s.filt := rfl
@[simp] theorem State.returnStereo_fc (s : State) (v : F) : (s.returnStereo v).fc = s.fc := rfl
@[simp] theorem State.returnStereo_note (s : State) (v : F) : (s.returnStereo v).note = s.note := rfl
@[simp] theorem State.returnStereo_store (s : State) (v : F) : (s.returnStereo v).store = s.store := rfl
@[simp] theorem State.returnStereo_inFlight (s : State) (v : F) : (s.returnStereo v).inFlight = s.inFlight := rfl
@[simp] theorem State.returnStereo_port (s : State) (v : F) : (s.returnStereo v).port = s.port := rfl
@[simp] theorem State.returnStereo_res (s : State) (v : F) : (s.returnStereo v).res = .stereo (Num.toP (Config.nanBits s.free) v) (Num.toP (Config.nanBits s.free) v) := rfl
@[simp] theorem State.returnStereo_free (s : State) (v : F) : (s.returnStereo v).free = s.free + 1 := rfl

/-! ### `State.taken` -/

@[simp] theorem State.taken_par (s : State) (l : List PortEvent) : (s.taken l).par = s.par := rfl
@[simp] theorem State.taken_sr (s : State) (l : List PortEvent) : (s.taken l).sr = s.sr := rfl
@[simp] theorem State.taken_n (s : State) (l : List PortEvent) : (s.taken l).n = s.n := rfl
@[simp] theorem State.taken_pw (s : State) (l : List PortEvent) : (s.taken l).pw = s.pw := rfl
@[simp] theorem State.taken_amp (s : State) (l : List PortEvent) : (s.taken l).amp = s.amp := rfl
@[simp] theorem State.taken_mod (s : State) (l : List PortEvent) : (s.taken l).mod = s.mod := rfl
@[simp] theorem State.taken_filt (s : State) (l : List PortEvent) : (s.taken l).filt = s.filt := rfl
@[simp] theorem State.taken_fc (s : State) (l : List PortEvent) : (s.taken l).fc = s.fc := rfl
@[simp] theorem State.taken_note (s : State) (l : List PortEvent) : (s.taken l).note = s.note := rfl
@[simp] theorem State.taken_store (s : State) (l : List PortEvent) : (s.taken l).store = s.store := rfl
@[simp] theorem State.taken_inFlight (s : State) (l : List PortEvent) : (s.taken l).inFlight = s.inFlight := rfl
@[simp] theorem State.taken_port (s : State) (l : List PortEvent) : (s.taken l).port = l := rfl
@[simp] theorem State.taken_res (s : State) (l : List PortEvent) : (s.taken l).res = .none := rfl
@[simp] theorem State.taken_free (s : State) (l : List PortEvent) : (s.taken l).free = s.free := rfl

/-! ### `State.setEnv` and `State.env` -/

@[simp] theorem State.setEnv_par (s : State) (e : Env) (r : EnvRegs) : (s.setEnv e r).par = s.par := by cases e <;> rfl
@[simp] theorem State.setEnv_sr (s : State) (e : Env) (r : EnvRegs) : (s.setEnv e r).sr = s.sr := by cases e <;> rfl
@[simp] theorem State.setEnv_n (s : State) (e : Env) (r : EnvRegs) : (s.setEnv e r).n = s.n := by cases e <;> rfl
@[simp] theorem State.setEnv_pw (s : State) (e : Env) (r : EnvRegs) : (s.setEnv e r).pw = s.pw := by cases e <;> rfl
@[simp] theorem State.setEnv_filt (s : State) (e : Env) (r : EnvRegs) : (s.setEnv e r).filt = s.filt := by cases e <;> rfl
@[simp] theorem State.setEnv_fc (s : State) (e : Env) (r : EnvRegs) : (s.setEnv e r).fc = s.fc := by cases e <;> rfl
@[simp] theorem State.setEnv_note (s : State) (e : Env) (r : EnvRegs) : (s.setEnv e r).note = s.note := by cases e <;> rfl
@[simp] theorem State.setEnv_store (s : State) (e : Env) (r : EnvRegs) : (s.setEnv e r).store = s.store := by cases e <;> rfl
@[simp] theorem State.setEnv_inFlight (s : State) (e : Env) (r : EnvRegs) : (s.setEnv e r).inFlight = s.inFlight := by cases e <;> rfl
@[simp] theorem State.setEnv_port (s : State) (e : Env) (r : EnvRegs) : (s.setEnv e r).port = s.port := by cases e <;> rfl
@[simp] theorem State.setEnv_res (s : State) (e : Env) (r : EnvRegs) : (s.setEnv e r).res = s.res := by cases e <;> rfl
@[simp] theorem State.setEnv_free (s : State) (e : Env) (r : EnvRegs) : (s.setEnv e r).free = s.free := by cases e <;> rfl
@[simp] theorem State.setEnv_amp_amp (s : State) (r : EnvRegs) : (s.setEnv .amp r).amp = r := rfl
@[simp] theorem State.setEnv_amp_mod (s : State) (r : EnvRegs) : (s.setEnv .amp r).mod = s.mod := rfl
@[simp] theorem State.setEnv_mod_amp (s : State) (r : EnvRegs) : (s.setEnv .mod r).amp = s.amp := rfl
@[simp] theorem State.setEnv_mod_mod (s : State) (r : EnvRegs) : (s.setEnv .mod r).mod = r := rfl
@[simp] theorem State.env_amp (s : State) : s.env .amp = s.amp := rfl
@[simp] theorem State.env_mod (s : State) : s.env .mod = s.mod := rfl

/-- Reading back the instance just written. -/
@[simp] theorem State.env_setEnv_self (s : State) (e : Env) (r : EnvRegs) : (s.setEnv e r).env e = r := by cases e <;> rfl

/-- "The two instances share no state" (R26). -/
theorem State.env_setEnv_other (s : State) {e d : Env} (r : EnvRegs) (h : d ≠ e) : (s.setEnv e r).env d = s.env d := by
  cases e <;> cases d <;> first | rfl | exact absurd rfl h

/-- Reading the register file of an instance through another update. -/
@[simp] theorem State.env_useFree (s : State) (k : Nat) (e : Env) : (s.useFree k).env e = s.env e := by cases e <;> rfl
@[simp] theorem State.env_setStore (s : State) (i : Fin 20) (v : P) (e : Env) : (s.setStore i v).env e = s.env e := by
  cases e <;> rfl

end Sys2Proof.Machine
end

