-- ==== Sys2Proof/Laws/Ops.lean ====
section
/-! SUPPORT. One lemma per shared operation that says what it can do. -/

namespace Sys2Proof.Machine

/-! ## The parameter store -/

/-- With no write to `i` in flight, a read returns the stored value and has no side effect (R55). -/
theorem State.readParam_of_pending_nil {s : State} {i : Fin 20} (h : pending i s.inFlight = []) :
    s.readParam i = (s.store[i], s) := by
  unfold State.readParam
  rw [h]

/-- In a quiet state nothing is pending. -/
theorem State.pending_of_quiet {s : State} (h : s.quiet = true) (i : Fin 20) : pending i s.inFlight = [] := by
  simp only [State.quiet, List.all_eq_true] at h
  simp only [pending, List.map_eq_nil_iff, List.filter_eq_nil_iff]
  intro w hw
  simp [h w hw]

/-- In a quiet state a read returns the stored value and changes nothing. -/
theorem State.readParam_of_quiet {s : State} (h : s.quiet = true) (i : Fin 20) : s.readParam i = (s.store[i], s) :=
  State.readParam_of_pending_nil (State.pending_of_quiet h i)

/-- The same, converted. -/
theorem State.readF_of_quiet {s : State} (h : s.quiet = true) (i : Fin 20) : s.readF i = (Num.toF s.store[i], s) := by
  simp [State.readF, State.readParam_of_quiet h]

/-- The state after some read events: only the store, the writes in flight and the index of free values differ. -/
def ReadsFrom (s t : State) : Prop := t = { s with store := t.store, inFlight := t.inFlight, free := t.free }

theorem ReadsFrom.refl (s : State) : ReadsFrom s s := rfl

theorem ReadsFrom.trans {s t u : State} (h : ReadsFrom s t) (k : ReadsFrom t u) : ReadsFrom s u := by
  unfold ReadsFrom at *
  rw [k, h]

/-- Everything a read event can do to a state. -/
theorem State.readParam_readsFrom (s : State) (i : Fin 20) : ReadsFrom s (s.readParam i).2 := by
  unfold State.readParam
  split <;> rfl

theorem State.readF_readsFrom (s : State) (i : Fin 20) : ReadsFrom s (s.readF i).2 := s.readParam_readsFrom i

theorem State.readTarget_readsFrom (s : State) (e : Env) (ph : Phase) : ReadsFrom s (s.readTarget e ph).2 := by
  cases ph
  · rfl
  · exact s.readF_readsFrom _
  · rfl

/-- Read events leave every register, the ports and the parameters of the implementation alone. -/
theorem ReadsFrom.fields {s t : State} (h : ReadsFrom s t) :
    t.par = s.par ∧ t.sr = s.sr ∧ t.n = s.n ∧ t.pw = s.pw ∧ t.amp = s.amp ∧ t.mod = s.mod ∧ t.filt = s.filt ∧
      t.fc = s.fc ∧ t.note = s.note ∧ t.port = s.port ∧ t.res = s.res := by
  rw [h]
  exact ⟨rfl, rfl, rfl, rfl, rfl, rfl, rfl, rfl, rfl, rfl, rfl⟩

/-- The envelopes among them. -/
theorem ReadsFrom.env {s t : State} (h : ReadsFrom s t) (e : Env) : t.env e = s.env e := by
  cases e
  · exact h.fields.2.2.2.2.1
  · exact h.fields.2.2.2.2.2.1

/-- `land` never changes an index or a value. -/
theorem land_map_key (i : Fin 20) (c : Nat) (ws : List Write) :
    (land i c ws).map (fun w => (w.idx, w.val)) = ws.map (fun w => (w.idx, w.val)) := by
  induction ws generalizing c with
  | nil => cases c <;> rfl
  | cons w ws ih =>
    cases c with
    | zero => rfl
    | succ c =>
      simp only [land]
      split <;> simp [ih]

/-- The oldest `c` pending writes to `i` are pending no more. -/
theorem pending_land_self (i : Fin 20) (c : Nat) (ws : List Write) :
    pending i (land i c ws) = (pending i ws).drop c := by
  induction ws generalizing c with
  | nil => cases c <;> simp [land, pending]
  | cons w ws ih =>
    cases c with
    | zero => rfl
    | succ c =>
      simp only [pending] at ih ⊢
      simp only [land]
      by_cases h : (w.idx = i && !w.landed) = true
      · simp [h, ih]
      · simp only [h, if_false, List.filter_cons, Bool.false_eq_true]
        exact ih (c + 1)

/-- The pending writes to other indices stay as they are (R58). -/
theorem pending_land_other {i j : Fin 20} (h : j ≠ i) (c : Nat) (ws : List Write) :
    pending j (land i c ws) = pending j ws := by
  induction ws generalizing c with
  | nil => cases c <;> rfl
  | cons w ws ih =>
    cases c with
    | zero => rfl
    | succ c =>
      simp only [pending] at ih ⊢
      simp only [land]
      by_cases h1 : (w.idx = i && !w.landed) = true
      · have h2 : ¬ w.idx = j := by
          intro hj
          simp only [Bool.and_eq_true, decide_eq_true_eq] at h1
          exact h (hj.symm.trans h1.1)
        rw [if_pos h1]
        simp [h2, ih]
      · simp only [h1, if_false, List.filter_cons, Bool.false_eq_true]
        split <;> simp [ih]

/-- Everything a read event does: it counts some number `c` of the oldest pending writes, returns the value it then sees, and makes
them take effect. -/
theorem State.readParam_spec (s : State) (i : Fin 20) :
    ∃ c, c ≤ (pending i s.inFlight).length ∧
      (s.readParam i).1 = (s.store[i] :: pending i s.inFlight).getD c 0 ∧
      (s.readParam i).2.store = s.store.set i ((s.store[i] :: pending i s.inFlight).getD c 0) ∧
      (s.readParam i).2.inFlight = land i c s.inFlight := by
  unfold State.readParam
  split
  · exact ⟨0, by simp, by simp, by simp, by cases s.inFlight <;> rfl⟩
  next v vs hp =>
    rw [hp]
    have hlt : raceChoice (vs.length + 1) s.free < vs.length + 2 := Nat.mod_lt _ (by omega)
    refine ⟨raceChoice (vs.length + 1) s.free, ?_, ?_, ?_, rfl⟩
    · simp only [List.length_cons]
      omega
    all_goals
      generalize raceChoice (vs.length + 1) s.free = c at *
      cases c with
      | zero => simp
      | succ c =>
        have : c < (v :: vs).length := by
          simp only [List.length_cons]
          omega
        simp [List.getElem?_eq_getElem this]

/-! ## Completing a tick (R213 item 4) -/

/-- A tick with the counter below its maximum completes. -/
theorem State.completeTick_next {s : State} (t : State) (h : s.n + 1 < 2 ^ s.par.cntW) : s.completeTick t = .next t := by
  simp [State.completeTick, State.canCount, h]

/-- A tick with the counter at its maximum is refused. -/
theorem State.completeTick_refused {s : State} (t : State) (h : ¬ s.n + 1 < 2 ^ s.par.cntW) :
    s.completeTick t = .refused .counterExhausted := by
  simp [State.completeTick, State.canCount, h]

/-- A tick that completes does so in the state given, and the counter was below its maximum. -/
theorem State.completeTick_eq_next {s t u : State} (h : s.completeTick t = .next u) : u = t ∧ s.n + 1 < 2 ^ s.par.cntW := by
  by_cases hc : s.n + 1 < 2 ^ s.par.cntW
  · rw [State.completeTick_next t hc] at h
    cases h
    exact ⟨rfl, hc⟩
  · rw [State.completeTick_refused t hc] at h
    cases h

/-! ## Overlapped reads -/

/-- The overlapped read of `HU` with nothing pending returns the stored value. -/
theorem State.latest_of_pending_nil {s : State} {i : Byte} (h : i.toNat < 20) (hp : pending ⟨i.toNat, h⟩ s.inFlight = []) :
    s.latest i = s.store[i.toNat] := by
  simp [State.latest, h, hp]

/-! ## The families -/

/-- Everything an envelope tick can do: reads, then the new registers of its instance. -/
theorem envTick_spec (e : Env) (s : State) :
    ∃ t, ReadsFrom s t ∧ (envTick e s).2 = t.setEnv e
      { gate := (s.env e).gate, phase := nextPhase s.par (s.env e).gate (s.env e).phase (s.env e).out,
        out := (envTick e s).1 } :=
  ⟨_, (s.readF_readsFrom _).trans (State.readTarget_readsFrom _ _ _), rfl⟩

/-- Everything VCO.MOD_PW can do. -/
theorem vcoModPw_spec (cv : F) (s : State) : ∃ t v, ReadsFrom s t ∧ vcoModPw cv s = t.setPw v :=
  ⟨_, _, ((s.readF_readsFrom _).trans (State.readF_readsFrom _ _)).trans (State.readF_readsFrom _ _), rfl⟩

/-- Everything VCF.MOD_FC can do. -/
theorem vcfModFc_spec (cv noteCV : F) (s : State) : ∃ t v, ReadsFrom s t ∧ vcfModFc cv noteCV s = t.setFc v :=
  ⟨_, _, (((s.readF_readsFrom _).trans (State.readF_readsFrom _ _)).trans (State.readF_readsFrom _ _)).trans
    (State.readF_readsFrom _ _), rfl⟩

/-- Reading the five levels. -/
theorem readLevels_readsFrom (s : State) : ReadsFrom s (readLevels s).2 :=
  ((((s.readF_readsFrom _).trans (State.readF_readsFrom _ _)).trans (State.readF_readsFrom _ _)).trans
    (State.readF_readsFrom _ _)).trans (State.readF_readsFrom _ _)

/-- Everything an oscillator tick can do: reads and draws, then the counter. -/
theorem vcoTick_spec (f : F) (s : State) :
    ∃ t, ReadsFrom s t ∧ (vcoTick f s).2 = t.tickCount :=
  ⟨_, ReadsFrom.trans (t := s.useFree 4) rfl (readLevels_readsFrom _), rfl⟩

/-- Everything a filter step can do: a read, then the filter registers. -/
theorem vcfFilter_spec (x : F) (s : State) :
    ∃ t k, ReadsFrom s t ∧
      (vcfFilter x s).2 = t.setFilt (ladder s.par s.filt (ladderInput s.par s.filt x k) (lpfG s.par s.fc.value s.sr.value)) :=
  ⟨_, _, s.readF_readsFrom _, rfl⟩

/-- After a ladder step the delay registers hold the outputs of stages 2, 3 and 4 (R30). -/
theorem ladder_delays (p : Params) (r : FilterRegs) (x g : F) :
    (ladder p r x g).d2 = (ladder p r x g).st[1].y ∧ (ladder p r x g).d3 = (ladder p r x g).st[2].y ∧
      (ladder p r x g).d4 = (ladder p r x g).st[3].y := ⟨rfl, rfl, rfl⟩

end Sys2Proof.Machine
end

