-- ==== Sys2Proof/Laws/PerInstr.lean ====
section
/-! SUPPORT. A fact of every constructor of `Instr`: its encoding matches its row of `spec/opcode_table.json`. -/

namespace Sys2Proof.Laws.EncodingMatchesTable

/-- A CMD80 word in a row: its opcode byte is the row's match (every CMD80 row masks bits 79:72 alone). -/
def cmdRow (op : Byte) : Encoded → Prop
  | .cmd80 w => opOf w = op
  | .midi3 _ => False

/-- A MIDI3 word in a row: its status byte is the row's match (R76). -/
def midiRow (b0 : Byte) : Encoded → Prop
  | .cmd80 _ => False
  | .midi3 m => midiB0 m = b0

/-- The default row of MIDI3: neither of the two other rows matches. -/
def midiDefault : Encoded → Prop
  | .cmd80 _ => False
  | .midi3 m => midiB0 m ≠ 0x90 ∧ midiB0 m ≠ 0x80

/-- The encoding of a well-formed instruction lies in its own row of the table (R76). -/
def Statement (i : Instr) : Prop :=
  WellFormed i →
    match i with
    | .nop => cmdRow 0x00 (encode i)
    | .reset => cmdRow 0x01 (encode i)
    | .setsr _ => cmdRow 0x02 (encode i)
    | .pwr _ _ => cmdRow 0x03 (encode i)
    | .prd _ => cmdRow 0x04 (encode i)
    | .evt _ _ _ => cmdRow 0x05 (encode i)
    | .render _ _ => cmdRow 0x06 (encode i)
    | .envTick _ => cmdRow 0x10 (encode i)
    | .envGateOn _ => cmdRow 0x11 (encode i)
    | .envGateOff _ => cmdRow 0x12 (encode i)
    | .envRetrig _ => cmdRow 0x13 (encode i)
    | .vcoTick _ => cmdRow 0x20 (encode i)
    | .vcoModPw _ => cmdRow 0x21 (encode i)
    | .vcfModFc _ _ => cmdRow 0x30 (encode i)
    | .vcfFilter _ => cmdRow 0x31 (encode i)
    | .p2f _ => cmdRow 0x40 (encode i)
    | .noteOn _ _ => midiRow 0x90 (encode i)
    | .noteOff _ _ => midiRow 0x80 (encode i)
    | .midiIgn _ _ _ => midiDefault (encode i)

theorem nop : Statement .nop := fun _ => opOf_packCmd _ _ _ _
theorem reset : Statement .reset := fun _ => opOf_packCmd _ _ _ _
theorem setsr (sr : P) : Statement (.setsr sr) := fun _ => opOf_packCmd _ _ _ _
theorem pwr (i : Byte) (v : P) : Statement (.pwr i v) := fun _ => opOf_packCmd _ _ _ _
theorem prd (i : Byte) : Statement (.prd i) := fun _ => opOf_packCmd _ _ _ _
theorem evt (b0 b1 b2 : Byte) : Statement (.evt b0 b1 b2) := fun _ => opOf_packCmd _ _ _ _
theorem render (inL inR : P) : Statement (.render inL inR) := fun _ => opOf_packCmd _ _ _ _
theorem envTick (e : Env) : Statement (.envTick e) := fun _ => opOf_packCmd _ _ _ _
theorem envGateOn (e : Env) : Statement (.envGateOn e) := fun _ => opOf_packCmd _ _ _ _
theorem envGateOff (e : Env) : Statement (.envGateOff e) := fun _ => opOf_packCmd _ _ _ _
theorem envRetrig (e : Env) : Statement (.envRetrig e) := fun _ => opOf_packCmd _ _ _ _
theorem vcoTick (f : P) : Statement (.vcoTick f) := fun _ => opOf_packCmd _ _ _ _
theorem vcoModPw (cv : P) : Statement (.vcoModPw cv) := fun _ => opOf_packCmd _ _ _ _
theorem vcfModFc (cv noteCV : P) : Statement (.vcfModFc cv noteCV) := fun _ => opOf_packCmd _ _ _ _
theorem vcfFilter (x : P) : Statement (.vcfFilter x) := fun _ => opOf_packCmd _ _ _ _
theorem p2f (n : Byte) : Statement (.p2f n) := fun _ => opOf_packCmd _ _ _ _
theorem noteOn (n b2 : Byte) : Statement (.noteOn n b2) := fun _ => midiB0_packMidi _ _ _
theorem noteOff (n b2 : Byte) : Statement (.noteOff n b2) := fun _ => midiB0_packMidi _ _ _
theorem midiIgn (b0 b1 b2 : Byte) : Statement (.midiIgn b0 b1 b2) := fun h => by
  simp only [WellFormed, Instr.wf, Bool.and_eq_true, bne_iff_ne] at h
  change midiB0 (packMidi b0 b1 b2) ≠ 0x90 ∧ midiB0 (packMidi b0 b1 b2) ≠ 0x80
  rw [midiB0_packMidi]
  exact h

end Sys2Proof.Laws.EncodingMatchesTable
end

