-- ==== Sys2Proof/Tests/Slice0.lean ====
section
/-! SUPPORT. Tests. Expected words and values come from `95_test_vectors.md` (the vector is named at each test), from the examples in
the rules, or from hand calculation; then a witness for the hypotheses of each statement. -/

namespace Sys2Proof.Machine.Tests

/-! ## A small state -/

/-- The parameters of program P1. -/
def store1 : Vector P 20 :=
  #v[0x3F800000, 0, 0, 0, 0, 0, 0, 0, 0x3C000000, 0x3E000000, 0x3F000000, 0x3E800000, 0x3F000000, 0, 0, 0,
     0x3C000000, 0x3E000000, 0x3F000000, 0x3E800000]

def par1 : Params :=
  { fmt := .binary32, underflow := .gradual, cntW := 64, noteReset := 60, pReset := store1 }

/-- After power-on and SETSR 44100.0, with the carried registers written. -/
def s0 : State :=
  { par := par1
    sr := { value := .fin false 11025 2, written := true }
    n := 0
    pw := { value := Num.zero, written := true }
    amp := .rest
    mod := .rest
    filt := .cleared
    fc := { value := Num.zero, written := true }
    note := 60
    store := store1
    inFlight := []
    port := []
    res := .none
    free := 1 }

/-- The state a command leads to. -/
def after (i : Instr) (s : State) : State :=
  match exec i s with
  | .next t => t
  | .fault _ => s
  | .refused _ => s

/-- The state a step leads to. -/
def stepped (s : State) : State :=
  match step s with
  | .next t => t
  | .fault _ => s
  | .refused _ => s

/-- A parameter value by index. -/
def withParams (l : List (Fin 20 × P)) : State := l.foldl (fun s x => s.setStore x.1 x.2) s0

/-- A race on `saw_rate` (vector V-HOST-5): the old value 1.0 is stored, a write of 0.0 is in flight. -/
def racing : State := { s0 with inFlight := [{ idx := 0, val := 0, landed := false }] }

/-! ## Well-formedness (R74, R76) -/

theorem test_wf_refuses_midi_ign_of_note_on : (Instr.midiIgn 0x90 60 0).wf = false := by decide
theorem test_wf_refuses_midi_ign_of_note_off : (Instr.midiIgn 0x80 60 0).wf = false := by decide
theorem test_wf_accepts_other_status : (Instr.midiIgn 0x91 60 100).wf = true := by decide

/-! ## Decoding words written out from the spec (V-ENC-1 to V-ENC-14, R81) -/

theorem test_decode_host : decodeCmd 0x00000000000000000000 = .nop ∧ decodeCmd 0x01000000000000000000 = .reset ∧
    decodeCmd 0x020000000000472C4400 = .setsr 0x472C4400 ∧ decodeCmd 0x030D000000003F000000 = .pwr 13 0x3F000000 ∧
    decodeCmd 0x04140000000000000000 = .prd 20 := by decide

theorem test_decode_events : decodeCmd 0x05000000000000904564 = .evt 0x90 69 100 ∧
    decodeCmd 0x05FFDEADBEEFAB904564 = .evt 0x90 69 100 ∧ decodeCmd 0x05000000000000913C64 = .evt 0x91 60 100 := by decide

theorem test_decode_midi : decodeMidi 0x904564 = .noteOn 69 100 ∧ decodeMidi 0x804500 = .noteOff 69 0 ∧
    decodeMidi 0x903C00 = .noteOn 60 0 ∧ decodeMidi 0x913C64 = .midiIgn 0x91 60 100 := by decide

theorem test_decode_voice : decodeCmd 0x06007FC00000FF800000 = .render 0x7FC00000 0xFF800000 ∧
    decodeCmd 0x40450000000000000000 = .p2f 69 := by decide

theorem test_decode_adsr : decodeCmd 0x10010000000000000000 = .envTick .mod ∧ decodeCmd 0x10FF0000000000000000 = .envTick .mod ∧
    decodeCmd 0x10FE0000000000000000 = .envTick .amp ∧ decodeCmd 0x11000000000000000000 = .envGateOn .amp ∧
    decodeCmd 0x12000000000000000000 = .envGateOff .amp ∧ decodeCmd 0x13010000000000000000 = .envRetrig .mod := by decide

theorem test_decode_vco_vcf : decodeCmd 0x200000000000447A0000 = .vcoTick 0x447A0000 ∧
    decodeCmd 0x2100000000003F000000 = .vcoModPw 0x3F000000 ∧
    decodeCmd 0x30003F40000042700000 = .vcfModFc 0x3F400000 0x42700000 ∧
    decodeCmd 0x3100000000003F800000 = .vcfFilter 0x3F800000 := by decide

theorem test_decode_reserved : decodeCmd 0x07AB123456789ABCDEF0 = .nop ∧ decodeCmd 0xFF000000000000000000 = .nop := by decide

theorem test_encode_words : encode (.setsr 0x472C4400) = .cmd80 0x020000000000472C4400 ∧
    encode (.evt 0x90 69 100) = .cmd80 0x05000000000000904564 ∧
    encode (.vcfModFc 0x3F400000 0x42700000) = .cmd80 0x30003F40000042700000 ∧
    encode (.envTick .mod) = .cmd80 0x10010000000000000000 ∧ encode (.p2f 69) = .cmd80 0x40450000000000000000 ∧
    encode (.noteOff 69 0) = .midi3 0x804500 := by decide

theorem test_assemble_decimals : decimal false 441000 1 = 0x472C4400 ∧ decimal false 78125 7 = 0x3C000000 ∧
    decimal false 98 2 = 0x3F7AE148 ∧ decimal true 75 2 = 0xBF400000 := by decide

theorem test_opcodes_distinct : Claims.assigned.Nodup := by decide

theorem test_table_words : decodeTableWord 80 0x40450000000000000000 = some (.p2f 69) ∧
    decodeTableWord 24 0x903C00 = some (.noteOn 60 0) ∧ decodeTableWord 24 0xB07B00 = some (.midiIgn 0xB0 123 0) ∧
    decodeTableWord 88 0 = none := by decide

/-! ## Numbers (V-NUM-1 to V-NUM-8) -/

theorem test_num_sign : Num.sign 0 Num.zero = Num.zero ∧ Num.sign 0 (.fin true 0 0) = Num.zero ∧
    Num.sign 0 (Num.toF 0x0DA24260) = Num.lit 1 ∧ Num.sign 0 (Num.toF 0x8DA24260) = Num.minusOne := by decide

theorem test_num_floor : Num.floor par1 (Num.lit 1) = Num.lit 1 ∧ Num.floor par1 (Num.toF 0x3F7FBE77) = Num.zero ∧
    Num.floor par1 (.fin true 1 (-2)) = Num.minusOne ∧ Num.floor par1 Num.minusOne = Num.minusOne := by decide

theorem test_num_u2f_ties : Num.toP 0 (Num.u2f par1 16777217) = 0x4B800000 ∧
    Num.u2f { par1 with fmt := .binary64 } 16777217 = .fin false 16777217 0 := by decide

theorem test_num_comparisons : Num.lt .nan (Num.thresh par1) = false ∧ Num.gt .nan (Num.thresh par1) = false ∧
    Num.eq Num.zero (.fin true 0 0) = true := by decide

theorem test_num_exceptional : Num.div par1 (Num.lit 1) Num.zero = .inf false ∧ Num.div par1 Num.minusOne Num.zero = .inf true ∧
    Num.mul par1 Num.zero (.inf false) = .nan ∧ Num.exp par1 (.inf true) = Num.zero := by decide

theorem test_num_constants : Num.toP 0 (Num.thresh par1) = 0x3F7AE148 ∧ Num.toP 0 (Num.pi par1) = 0x40490FDB := by decide

theorem test_num_note_difference : Num.sub par1 (Num.u2f par1 60) Num.a4Note = .fin true 9 0 ∧
    Num.sub par1 (Num.u2f par1 0) Num.a4Note = .fin true 69 0 ∧
    Num.sub par1 (Num.u2f par1 255) Num.a4Note = .fin false 93 1 := by decide

/-- 0.1 + 0.2 and 1/3 in binary32, by hand: 0x3E99999A and 0x3EAAAAAB. -/
theorem test_num_rounding : Num.toP 0 (Num.add par1 (Num.toF 0x3DCCCCCD) (Num.toF 0x3E4CCCCD)) = 0x3E99999A ∧
    Num.toP 0 (Num.div par1 (Num.lit 1) (Num.lit 3)) = 0x3EAAAAAB := by decide

/-- Half of the smallest normal number: kept or flushed (U10). -/
theorem test_num_underflow : Num.toP 0 (Num.div par1 (Num.toF 0x00800000) (Num.lit 2)) = 0x00400000 ∧
    Num.toP 0 (Num.div { par1 with underflow := .flush } (Num.toF 0x80800000) (Num.lit 2)) = 0x80000000 := by decide

/-! ## ADSR -/

/-- V-ADSR-10: `out` exactly the threshold keeps every phase; V-ADSR-7, V-ADSR-8. -/
theorem test_phase_boundary : nextPhase par1 true .attack (Num.thresh par1) = .attack ∧
    nextPhase par1 true .release (Num.thresh par1) = .release ∧
    nextPhase par1 true .release (Num.toF 0x3F7D70A4) = .decaySustain ∧
    nextPhase par1 true .decaySustain Num.half = .decaySustain ∧ nextPhase par1 true .release Num.half = .attack ∧
    nextPhase par1 false .attack .nan = .release := by decide

/-- V-ADSR-9. -/
theorem test_retrig : (after (.envRetrig .amp) { s0 with amp := { gate := true, phase := .decaySustain, out := Num.toF 0x3F3AE148 } }).amp =
    { gate := false, phase := .release, out := Num.zero } := by decide

/-- R113, R114: the gate alone, of the instance named (V-ADSR-11). -/
theorem test_gates : after (.envGateOn .mod) s0 = { s0 with mod := { gate := true, phase := .release, out := Num.zero } } ∧
    (after (.envGateOff .amp) { s0 with amp := { gate := true, phase := .decaySustain, out := Num.half } }).amp =
      { gate := false, phase := .decaySustain, out := Num.half } := by decide

/-- R116 with `tc = +0`: alpha = exp(-inf) = +0, so an Attack tick returns the target 1 (U7). -/
theorem test_env_tick_zero_time : (after (.envTick .amp) { withParams [(8, 0)] with amp := { gate := true, phase := .release, out := Num.half } }).amp =
    { gate := true, phase := .attack, out := Num.lit 1 } := by decide

/-! ## VCO (V-VCO-6; R131's example) -/

theorem test_mod_pw : (after (.vcoModPw 0x3F400000) (withParams [(5, 0x3E800000), (6, 0x3F000000)])).pw.value = .fin false 17 (-5) ∧
    (after (.vcoModPw 0x3F800000) (withParams [(5, 0), (6, 0x3F800000)])).pw.value = Num.lit 1 ∧
    (after (.vcoModPw 0) (withParams [(5, 0x3E800000), (6, 0x3F000000)])).pw.value = .fin false 1 (-2) := by decide

theorem test_saw : genSaw { par := par1, n := 3, sr := Num.lit 8000 } (Num.lit 3) (Num.lit 1000) = .fin false 3 (-2) ∧
    genSaw { par := par1, n := 4, sr := Num.lit 8000 } (Num.lit 4) (Num.lit 1000) = Num.minusOne := by decide

theorem test_vco_tick_counts : (after (.vcoTick 0x447A0000) { s0 with n := 41 }).n = 42 := by decide

/-! ## VCF (V-VCF-1, V-VCF-2, V-VCF-5) -/

/-- Five steps of one stage with `G = 0.25` and input 1: `y = 0.953125`, `u = 0.015625`. -/
theorem test_lpf1 :
    (List.range 5).foldl (fun r _ => lpf1 par1 r (Num.lit 1) (.fin false 1 (-2))) { y := Num.zero, u := Num.zero } =
      { y := .fin false 61 (-6), u := .fin false 1 (-6) } := by decide

/-- Step 0 and step 1 of the ladder table. -/
theorem test_ladder_step0 : (ladder par1 .cleared (Num.lit 1) (.fin false 1 (-2))).st =
    #v[{ y := .fin false 1 (-3), u := .fin false 1 (-3) }, { y := .fin false 1 (-6), u := .fin false 1 (-6) },
       { y := .fin false 1 (-9), u := .fin false 1 (-9) }, { y := .fin false 1 (-11), u := .fin false 1 (-11) }] := by decide

theorem test_ladder_step1 :
    let r := ladder par1 (ladder par1 .cleared (Num.lit 1) (.fin false 1 (-2))) Num.zero (.fin false 1 (-2))
    r.st[0] = { y := .fin false 97 (-9), u := .fin true 31 (-9) } ∧ r.st[1].y = .fin false 97 (-11) ∧
      r.st[2].y = .fin false 73 (-13) ∧ r.d4 = .fin false 97 (-15) ∧ r.d2 = r.st[1].y := by decide

theorem test_mod_fc : (after (.vcfModFc 0x3F400000 0x42700000)
      (withParams [(12, 0x3F000000), (14, 0x3F000000), (15, 0x3E800000)])).fc.value = .fin false 122475 (-3) ∧
    (after (.vcfModFc 0x3F800000 0x437F0000)
      (withParams [(12, 0x3F800000), (14, 0x3F800000), (15, 0x3F800000)])).fc.value = Num.lit 24600 := by decide

/-- V-VCF-6 and V-VCF-0: `vcf.fc = 0` gives `G = 0`. -/
theorem test_zero_cutoff : lpfG par1 Num.zero (Num.lit 44100) = Num.zero := by decide

/-- R156: `A = 6` for `k = 0.5`. -/
theorem test_gain : gainComp par1 Num.half = Num.lit 6 := by decide

/-! ## Voice (V-VOICE-1, V-VOICE-2) -/

theorem test_p2f : (after (.p2f 69) s0).res = .single 0x43DC0000 ∧ (after (.p2f 81) s0).res = .single 0x445C0000 := by decide

/-- The start state of V-VOICE-2. -/
def held : State :=
  { s0 with amp := { gate := true, phase := .decaySustain, out := Num.half }
            mod := { gate := true, phase := .decaySustain, out := Num.half } }

theorem test_note_on : after (.noteOn 60 0) held = held ∧
    after (.noteOn 64 7) held = { held with note := 64, amp := { gate := true, phase := .release, out := Num.zero }
                                            mod := { gate := true, phase := .release, out := Num.zero } } := by decide

theorem test_note_off : after (.noteOff 64 0) held = held ∧
    (after (.noteOff 60 0) held).amp = { gate := false, phase := .decaySustain, out := Num.half } ∧
    after (.noteOn 60 0) (after (.noteOff 60 0) held) = held := by decide

theorem test_evt : after (.evt 0x90 64 7) held = after (.noteOn 64 7) held ∧ after (.evt 0xB0 123 0) held = held := by decide

theorem test_render_counts : (after (.render 0x7FC00000 0xFF800000) s0).n = 1 := by decide

/-! ## Host interface and store (V-HOST-1 to V-HOST-10) -/

theorem test_pwr_prd : (after (.prd 13) (after (.pwr 13 0x7FC00000) s0)).res = .single 0x7FC00000 ∧
    after (.pwr 20 0x3F800000) s0 = s0 ∧ (after (.prd 20) s0).res = .single 0 ∧ (after (.prd 255) s0).res = .single 0 := by decide

theorem test_setsr : (after (.setsr 0x473B8000) held).sr = { value := .fin false 375 7, written := true } := by decide

/-- V-HOST-7: the core registers are reset, the store is kept. -/
theorem test_reset : debugView (after .reset { held with n := 4, store := store1.set 13 0x3F000000 }) = Claims.resetView 60 ∧
    (after .reset { held with store := store1.set 13 0x3F000000 }).store[13] = 0x3F000000 := by decide

/-- V-HOST-9, V-HOST-10. -/
theorem test_block : blockLines 2 (noteOnLine 60 0 ++ noteOnLine 64 0) = [.evt 0x90 60 0, .evt 0x90 64 0, .render 0 0, .render 0 0] ∧
    blockLines 3 [] ++ blockLines 2 [] = blockLines 5 [] := by decide

/-- A write that lands keeps its place in flight and is pending no more; one to another index stays pending (R57, R58). -/
theorem test_land : land 0 1 [{ idx := 3, val := 5, landed := false }, { idx := 0, val := 7, landed := false }] =
    [{ idx := 3, val := 5, landed := false }, { idx := 0, val := 7, landed := true }] := by decide

/-- The end of a write stores it; a write begun by `HU` is in flight (R56, R57). -/
theorem test_write_events : (stepped { racing with port := [.writeEnds] }).store[0] = 0 ∧
    (stepped { s0 with port := [.writeBegins 19 9] }).inFlight = [{ idx := 19, val := 9, landed := false }] := by decide

/-- R6, R56: a RENDER may read P[5] as v0 and then as v2 while `HU` writes v1, reads v1 back and writes v2: the read of `HU` leaves v0 to be
seen, and both values are pending when RENDER comes. -/
theorem test_overlapped_read :
    let s1 := stepped { s0 with port := [.writeBegins 5 1, .readOverlaps 5, .writeBegins 5 2, .command 0x06000000000000000000] }
    let s2 := stepped s1
    let s3 := stepped s2
    s2.res = .single 1 ∧ s3.store[5] = 0 ∧ pending 5 s3.inFlight = [1, 2] ∧
      s3.port = [.command 0x06000000000000000000] := by decide

/-! ## Refusals (R213) -/

/-- V-ADSR-12, V-VCO-9, V-VCF-8; RENDER before SETSR (R232): the refusals R213 asks of a model. -/
theorem test_strict : Safety.strict (.envTick .amp) State.reset = .refused .noValueRead ∧
    Safety.strict (.vcoTick 0x447A0000) (after (.setsr 0x472C4400) State.reset) = .refused .noValueRead ∧
    Safety.strict (.vcfFilter 0x3F800000) (after (.setsr 0x472C4400) State.reset) = .refused .noValueRead ∧
    Safety.strict (.render 0 0) State.reset = .refused .noValueRead := ⟨rfl, rfl, rfl, rfl⟩

/-- The machine itself goes on from reset, over the free values the three registers hold (log 3): ENV.TICK of the gated envelope at rest
moves to Attack, RENDER counts. -/
theorem test_from_reset : (after (.envTick .amp) (after (.envGateOn .amp) State.reset)).amp.phase = .attack ∧
    (after (.render 0 0) State.reset).n = 1 := ⟨rfl, rfl⟩

/-- Item 4: the tick at `2^CNT_W - 1`; the tick before it counts. -/
theorem test_counter_exhausted : exec (.vcoTick 0x447A0000) { s0 with n := 2 ^ 64 - 1 } = .refused .counterExhausted ∧
    (after (.vcoTick 0x447A0000) { s0 with n := 2 ^ 64 - 2 }).n = 2 ^ 64 - 1 := ⟨rfl, rfl⟩

/-! ## Steps -/

/-- The first step after power-on runs the word on the port. -/
theorem test_first_step : (stepped (State.reset.withFetchWord 80 0x020000000000472C4400)).sr =
    { value := .fin false 11025 2, written := true } := by rfl

theorem test_first_event : (stepped (State.reset.withFetchWord 24 0x904564)).note = 69 := by rfl

theorem test_reserved_step : stepped (s0.withFetchWord 80 0x07AB123456789ABCDEF0) = s0 := by decide

/-- The predicate of R213: before SETSR a RENDER has no meaning; after it, with P1's parameters, it has. -/
theorem test_meaning : Safety.noMeaning (.render 0 0) (State.powerOn par1) = [.noValueRead, .outsideWCD] ∨
    Safety.noMeaning (.render 0 0) (State.powerOn par1) = [.noValueRead] := by
  unfold Safety.noMeaning
  have h1 : (Safety.needs (.render 0 0) (State.powerOn par1)).written = false := rfl
  have h2 : (Safety.needs (.render 0 0) (State.powerOn par1)).count = true := by decide
  rw [h1, h2]
  cases (Safety.needs (.render 0 0) (State.powerOn par1)).wcd
  · exact .inl rfl
  · exact .inr rfl

theorem test_meaning_after_setsr : Safety.meaningful (.render 0 0) s0 = true := by decide

/-! ## Witnesses: concrete states and operands that meet the hypotheses of the statements -/

/-- DecodeEncodeRoundTrip, AssembledInstructionRuns: instructions of both formats, and the boundary status bytes. -/
theorem witness_wellFormed : WellFormed (.pwr 255 0xFFFFFFFF) ∧ WellFormed (.noteOn 255 0) ∧ WellFormed (.midiIgn 0x7F 0 0) ∧
    WellFormed (.midiIgn 0x81 0 0) ∧ WellFormed (.midiIgn 0x8F 0 0) ∧ WellFormed (.midiIgn 0x91 0 0) := by decide

/-- ReservedOpcodesExecuteAsNop, NopDoesNothing: the ends of the reserved ranges. -/
theorem witness_reserved : ∀ op ∈ [0x07, 0x0F, 0x14, 0x1F, 0x22, 0x2F, 0x32, 0x3F, 0x41, (0xFF : Byte)], op ∉ Claims.assigned := by
  decide

/-- MidiStatusSelectsTheForm, EventAppliesItsDecodedForm, OtherStatusIsIgnored: one status byte for each clause, with the neighbours. -/
theorem witness_status : (0x90 : Byte).toNat = 144 ∧ (0x80 : Byte).toNat = 128 ∧
    ∀ b ∈ [0x00, 0x7F, 0x81, 0x8F, 0x91, (0xFF : Byte)], b.toNat ≠ 144 ∧ b.toNat ≠ 128 ∧ b ≠ 0x90 ∧ b ≠ 0x80 := by decide

/-- ParameterWriteStoresItsPattern, WriteIsReadBack, UnknownIndicesAreIgnored: indices at the ends of both ranges, in a quiet state. -/
theorem witness_indices : (0 : Byte).toNat < 20 ∧ (19 : Byte).toNat < 20 ∧ 20 ≤ (20 : Byte).toNat ∧ 20 ≤ (255 : Byte).toNat ∧
    s0.quiet = true := by decide

/-- ParameterReadReturnsTheStoredPattern: nothing pending for the index, though another index races. -/
theorem witness_nothing_pending : pending 19 racing.inFlight = [] ∧ (19 : Byte).toNat < 20 := by decide

/-- RacingReadReturnsOldOrNew, ReadsNeverGoBack, RacingModulationReadsEachOccurrence: a race. -/
theorem witness_race : (0 : Byte).toNat < 20 ∧ pending 0 racing.inFlight = [0] ∧ racing.store[0] = 0x3F800000 ∧
    racing.quiet = false := by decide

/-- EndedWriteIsSeen: a pending write and one that has taken effect already. -/
theorem witness_ended_write :
    ({ racing with port := [.writeEnds] } : State).inFlight = { idx := 0, val := 0, landed := false } :: [] ∧
    ({ racing with port := [.writeEnds] } : State).port = .writeEnds :: [] ∧ pending 0 [] = [] ∧
    ({ s0 with inFlight := [{ idx := 19, val := 1, landed := true }], port := [.writeEnds] } : State).inFlight =
      { idx := 19, val := 1, landed := true } :: [] ∧ pending 19 [] = [] ∧
    (let s : State := { s0 with inFlight := [{ idx := 5, val := 1, landed := false }, { idx := 5, val := 2, landed := false }], port := [.writeEnds] }
     s.inFlight = { idx := 5, val := 1, landed := false } :: [{ idx := 5, val := 2, landed := false }] ∧
       pending 5 [{ idx := 5, val := 2, landed := false }] = [2]) := by decide

/-- EndedWriteIsSeen: later states of each kind. -/
theorem witness_later : Claims.Later 0 s0 s0 ∧ Claims.Later 0 s0 (after (.pwr 5 1) s0) ∧ Claims.Later 0 s0 (s0.readParam 0).2 ∧
    Claims.Later 0 s0 (s0.setSr Num.half) ∧ Claims.Later 0 s0 (s0.beginWrite 5 1).endWrite :=
  ⟨.here, .command (.pwr 5 1) .here (fun j v h => by cases h; decide) rfl, .read 0 .here, .inside .here rfl rfl, .ends (.begins 5 1 .here (by decide))⟩

/-- A command of each kind has a meaning in `s0`: CommandsNeverWriteTheStore, UnreadParametersHaveNoEffect, CounterCountsOscillatorTicks,
NaNEnvelopeStaysUntilRetrig, NaNInTheFilterStaysUntilReset, CommandsWriteOnlyTheirRegisters, ResultPortByCommand, EveryCommandHasAStep. -/
theorem witness_runs : ∀ i ∈ [Instr.render 0 0, .vcoTick 0, .vcfFilter 0, .envTick .amp, .vcfModFc 0 0, .nop], Claims.Runs i s0 := by
  intro i h
  fin_cases h <;> exact fun _ => by decide

/-- EveryCommandHasAStep, CounterCountsOscillatorTicks: registers with and without a value, and the counter at its maximum. -/
theorem witness_no_meaning : ¬ Claims.HasValues (.vcfFilter 0) { s0 with fc := { value := .nan, written := false } } ∧
    Claims.HasValues (.render 0 0) s0 ∧ Claims.ticks (.render 0 0) = true ∧ ¬ Claims.Runs (.render 0 0) { s0 with n := 2 ^ 64 - 1 } ∧
    ({ s0 with n := 2 ^ 64 - 1 } : State).n + 1 = 2 ^ par1.cntW := by
  unfold Claims.HasValues Claims.Runs
  decide

/-- CommandsNeverWriteTheStore. -/
theorem witness_not_pwr : ∀ k v, Instr.render 0 0 ≠ .pwr k v := by
  intro k v h
  cases h

/-- UnreadParametersHaveNoEffect: RENDER does not read entry 7; a PWR to another index. -/
theorem witness_unread : (7 : Fin 20) ∉ Claims.readsOf (.render 0 0) ∧ (∀ k x, Instr.render 0 0 = .pwr k x → k.toNat ≠ (7 : Fin 20).val) ∧
    (4 : Fin 20) ∉ Claims.readsOf (.pwr 3 0) ∧ (∀ k x, Instr.pwr 3 0 = .pwr k x → k.toNat ≠ (4 : Fin 20).val) := by
  refine ⟨by decide, ?_, by decide, ?_⟩
  · intro k x h
    cases h
  · intro k x h
    cases h
    decide

/-- PhaseTransitionTable: a state for each row of R111's table. -/
theorem witness_phase_rows :
    held.amp.gate = true ∧ Num.lt held.amp.out (Num.thresh par1) = true ∧
    Num.eq (Num.thresh par1) (Num.thresh par1) = true ∧ Num.gt (Num.lit 1) (Num.thresh par1) = true ∧
    s0.amp.gate = false ∧ Num.lt (Num.toF 0x3F7AE147) (Num.thresh par1) = true ∧ Num.gt (Num.toF 0x3F7AE149) (Num.thresh par1) = true := by
  decide

/-- GateOnSetsTheGateOnly: gate already true; at rest. -/
theorem witness_gate_on : (held.env .amp).gate = true ∧ s0.env .amp = EnvRegs.rest := by decide

/-- GateOffSetsTheGateOnly, ReleaseTickScalesTheOutput: output 0.5, a quiet state in WCD. -/
theorem witness_release : (held.env .amp).out = Num.half ∧ held.quiet = true ∧ Num.positive held.sr.value = true ∧
    Safety.paramOk held (releaseIdx .amp) = true ∧ ((after (.envGateOff .amp) held).env .amp).gate = false ∧
    ((after (.envGateOff .amp) held).env .amp).out = .fin false 1 (-1) ∧
    Num.representable (after (.envGateOff .amp) held).par.fmt (.fin false 1 (-1)) = true ∧
    (after (.envGateOff .amp) held).quiet = true ∧ Num.positive (after (.envGateOff .amp) held).sr.value = true ∧
    Safety.paramOk (after (.envGateOff .amp) held) (releaseIdx .amp) = true := by decide

/-- RetrigGivesTheRestState, EnvelopeAtRestStaysSilent: both instances at rest in WCD, also while the release time is being written. -/
theorem witness_rest : s0.env .amp = EnvRegs.rest ∧ s0.env .mod = EnvRegs.rest ∧
    s0.env .amp = { gate := false, phase := .release, out := .fin false 0 0 } ∧ Num.positive s0.sr.value = true ∧
    Safety.paramOk s0 (releaseIdx .amp) = true ∧ Safety.paramOk s0 (releaseIdx .mod) = true ∧
    Safety.paramOk { s0 with inFlight := [{ idx := 11, val := 0x3F800000, landed := false }] } (releaseIdx .amp) = true := by decide

/-- NaNEnvelopeStaysUntilRetrig: a NaN output, and commands that meet the three exclusions. -/
theorem witness_nan_envelope : Claims.Runs (.evt 0x90 60 0) { held with amp := { gate := true, phase := .attack, out := .nan } } ∧
    (({ held with amp := { gate := true, phase := .attack, out := .nan } } : State).env .amp).out = .nan ∧
    Claims.effective (.evt 0x90 60 0) ≠ .reset ∧ Claims.effective (.evt 0x90 60 0) ≠ .envRetrig .amp ∧
    (∀ n b2, Claims.effective (.evt 0x90 60 0) = .noteOn n b2 → n = held.note) := by
  refine ⟨fun _ => by decide, by decide, by decide, by decide, fun n b2 h => ?_⟩
  have : Claims.effective (.evt 0x90 60 0) = .noteOn 60 0 := by decide
  rw [this] at h
  cases h
  rfl

/-- EnvTickComputesTheNextOutput, ModPwComputesTheCarriedWidth, VcoTickComputesTheMix, ModFcComputesTheCarriedCutoff,
FilterComputesTheLadder, RenderComposesTheSample, RenderDiscardsItsInputs: a quiet state and a race, the counter below its maximum. -/
theorem witness_quiet : s0.quiet = true ∧
    s0.n + 1 < 2 ^ s0.par.cntW ∧ ({ s0 with n := 2 ^ 64 - 2 } : State).n + 1 < 2 ^ par1.cntW ∧ racing.quiet = false ∧
    Claims.Choice racing (fun i => if i = 0 then 1 else 0) := by
  decide

/-- ZeroModulationKeepsTheBaseWidth: width 0.25; a zero cv, and a zero depth with cv 1. -/
theorem witness_zero_modulation :
    let s := withParams [(5, 0x3E800000)]
    s.quiet = true ∧ s.par.underflow = .gradual ∧ Num.toF s.store[5] = .fin false 1 (-2) ∧
    Safety.inUnit (.fin false 1 (-2)) = true ∧ Num.isFinite (Num.toF 0) = true ∧ Num.isFinite (Num.toF s.store[6]) = true ∧
    Num.eq (Num.toF 0) Num.zero = true ∧ Num.isFinite (Num.toF 0x3F800000) = true ∧ Num.eq (Num.toF s.store[6]) Num.zero = true := by
  decide

/-- SignalsAtCounterZero: 440 Hz at 44100 Hz. -/
theorem witness_signals :
    let f := Num.lit 440
    let h := Num.div par1 f (Num.lit 2)
    let twoPi := Num.mul par1 (Num.lit 2) (Num.pi par1)
    Num.positive (Num.lit 44100) = true ∧ Num.positive f = true ∧ Num.positive h = true ∧
    Num.positive (Num.mul par1 twoPi f) = true ∧ Num.positive (Num.mul par1 twoPi h) = true ∧
    Num.isFinite (Num.div par1 (Num.mul par1 twoPi f) (Num.lit 44100)) = true ∧
    Num.isFinite (Num.div par1 (Num.mul par1 twoPi h) (Num.lit 44100)) = true := by decide

/-- CounterCountsOscillatorTicks, CommandsWriteOnlyTheirRegisters: a command of each kind. -/
theorem witness_counter : (∃ f, Instr.vcoTick 0 = .vcoTick f) ∧ (∃ l r, Instr.render 0 0 = .render l r) ∧ Instr.nop ≠ .reset ∧
    (∀ f, Instr.nop ≠ .vcoTick f) ∧ (∀ l r, Instr.nop ≠ .render l r) ∧ Claims.Reg.sr ∉ Claims.writesOf (.render 0 0) := by
  refine ⟨⟨_, rfl⟩, ⟨_, _, rfl⟩, by decide, ?_, ?_, by decide⟩
  · intro f h
    cases h
  · intro l r h
    cases h

/-- `tanh(0) / tanh(1)` is finite whatever `tanh(1)` is. -/
theorem saturated_zero_finite (p : Params) : Num.isFinite (Claims.saturated p Num.zero) = true := by
  obtain ⟨m, e, h, h0⟩ := Num.tanh_one p
  rw [Claims.saturated, h, show Num.tanh p Num.zero = .fin false 0 0 from rfl]
  simp [Num.div, h0, Num.roundQ, Num.isFinite]

/-- ZeroCutoffFreezesTheClearedFilter: input 0. -/
theorem witness_zero_cutoff : s0.quiet = true ∧ s0.filt = FilterRegs.cleared ∧ s0.fc.value = Num.zero ∧
    Num.positive s0.sr.value = true ∧ Num.positive (Num.mul s0.par (Num.lit 2) s0.sr.value) = true ∧
    Safety.inUnit (Num.toF s0.store[13]) = true ∧ Num.isFinite (Claims.saturated s0.par (Num.toF 0)) = true := by
  refine ⟨by decide, by decide, by decide, by decide, by decide, by decide, ?_⟩
  exact saturated_zero_finite _

/-- NaNInTheFilterStaysUntilReset: a NaN in a stage and in a delay register. -/
theorem witness_nan_filter : Instr.vcfFilter 0 ≠ .reset ∧
    ({ s0 with filt := { FilterRegs.cleared with d4 := .nan } } : State).filt.d4 = .nan := by decide

/-- RenderAtRestIsSilent, NoteOnSetsTheHeldNote: both envelopes at rest in WCD; the held note and another. -/
theorem witness_render_at_rest : s0.n + 1 < 2 ^ s0.par.cntW ∧ s0.amp = EnvRegs.rest ∧ s0.mod = EnvRegs.rest ∧ Num.positive s0.sr.value = true ∧
    Safety.paramOk s0 pAmpRelease = true ∧ s0.note = 60 ∧ (64 : Byte) ≠ s0.note := by decide

/-- StepRunsTheDecodedCommand, StepConsumesOneEvent, ResultPortByCommand: a state for each kind of event. -/
theorem witness_ports : ({ s0 with port := [.command 0] } : State).port = .command 0 :: [] ∧ s0.port = [] ∧
    ({ s0 with port := [.writeBegins 19 9] } : State).port = .writeBegins 19 9 :: [] ∧ (19 : Byte).toNat < 20 ∧
    ({ racing with port := [.writeEnds] } : State).port = .writeEnds :: [] ∧ s0.inFlight = [] ∧
    racing.inFlight = { idx := 0, val := 0, landed := false } :: [] ∧
    ({ racing with port := [.readOverlaps 0] } : State).port = .readOverlaps 0 :: [] := by decide

/-- StepKeepsTheInvariant: a state with the invariant and a step from it. -/
theorem witness_invariant : Safety.Inv s0 ∧ step { s0 with port := [.command 0x01000000000000000000] } =
    .next (coreReset { s0 with port := [], res := .none }) ∧ Safety.Inv { s0 with port := [.command 0x01000000000000000000] } :=
  ⟨⟨by decide, by decide, rfl, rfl, rfl⟩, rfl, ⟨by decide, by decide, rfl, rfl, rfl⟩⟩

/-- OneNoteIsHeld. -/
theorem witness_two_notes : (60 : Byte) ≠ 64 := by decide

/-- RoundingIsToNearest: 1/3 in binary32; a tie, 2^24 + 1, whose two nearest data are 2^24 (even) and 2^24 + 2 (odd); and both sides of
the overflow bound: the largest finite number plus 2^102 stays, plus 2^103 (half a last place, a tie) overflows. -/
theorem witness_rounding : par1.underflow = .gradual ∧ Num.isFinite (Num.lit 1) = true ∧ Num.isFinite (Num.lit 3) = true ∧
    Claims.val (Num.lit 3) ≠ 0 ∧ Num.add par1 (Num.lit 16777216) (Num.lit 1) = Num.lit 16777216 ∧
    Num.isFinite (Num.lit 16777218) = true ∧ Num.representable par1.fmt (Num.lit 16777218) = true ∧
    Claims.EvenIn par1.fmt (Num.lit 16777216) ∧ ¬ Claims.EvenIn par1.fmt (Num.lit 16777218) ∧
    Num.add par1 (Num.toF 0x7F7FFFFF) (.fin false 1 102) = Num.toF 0x7F7FFFFF ∧
    Num.add par1 (Num.toF 0xFF7FFFFF) (.fin true 1 103) = .inf true := by
  refine ⟨by decide, by decide, by decide, ?_, by decide, by decide, by decide, ?_, ?_, by decide, by decide⟩
  · simp [show Num.lit 3 = .fin false 3 0 by decide, Claims.val]
  all_goals
    simp only [show Num.lit 16777216 = .fin false 1 24 by decide, show Num.lit 16777218 = .fin false 8388609 1 by decide,
      Claims.EvenIn]
    decide

/-- ArithmeticCornerCases, FloorIsExact, NamedPropertiesOfNum, PortFloatRoundTrip. -/
theorem witness_numbers : (1 : Nat) ≠ 0 ∧ Num.isFinite (.fin true 1 (-2)) = true ∧ Num.representable par1.fmt (.fin true 1 (-2)) = true ∧
    Num.lt (.fin true 1 (-2)) Num.zero = true ∧ Num.isFinite Num.half = true ∧ Num.le Num.zero Num.half = true ∧
    Num.le Num.half (Num.lit 1) = true ∧ Num.representable par1.fmt Num.half = true ∧ Num.representable par1.fmt (Num.lit 1) = true ∧
    Num.le Num.zero (.fin true 0 0) = true ∧ Num.toF 0x00000001 ≠ .nan ∧ Num.toF 0xFF800000 ≠ .nan := by decide

end Sys2Proof.Machine.Tests
end

section
/-! Everything a command can do to a state: an inversion of `exec` and `step` into the updates they are made of. -/

namespace Sys2Proof.Machine

/-! ## The updates -/

/-- The register updates that commands are made of. A written `F` value is a datum of `FMT` (R9), the filter registers come from
a ladder step (R154), and the counter advances only below its maximum (R24). -/
inductive Updates : State → State → Prop where
  /-- Only the parameter store, the writes in flight, the result port and the index of free values differ. -/
  | outside {s t : State} (h : t = { s with store := t.store, inFlight := t.inFlight, res := t.res, free := t.free }) :
      Updates s t
  | reset (s : State) : Updates s (coreReset s)
  | sr {s : State} {v : F} (h : Num.representable s.par.fmt v = true) : Updates s (s.setSr v)
  | pw {s : State} {v : F} (h : Num.representable s.par.fmt v = true) : Updates s (s.setPw v)
  | fc {s : State} {v : F} (h : Num.representable s.par.fmt v = true) : Updates s (s.setFc v)
  | env {s : State} {e : Env} {r : EnvRegs} (h : Num.representable s.par.fmt r.out = true) : Updates s (s.setEnv e r)
  | gate (s : State) (e : Env) (b : Bool) : Updates s (setGate e b s)
  | filter (s : State) (x g : F) : Updates s (s.setFilt (ladder s.par s.filt x g))
  | note (s : State) (n : Byte) : Updates s (s.setNote n)
  | count {s : State} (h : s.n + 1 < 2 ^ s.par.cntW) : Updates s s.tickCount
  | trans {s t u : State} : Updates s t → Updates t u → Updates s u

theorem Updates.refl (s : State) : Updates s s := .outside rfl

theorem Updates.of_readsFrom {s t : State} (h : ReadsFrom s t) : Updates s t :=
  .outside (by rw [show t = _ from h])

theorem updates_returnOne (s : State) (v : F) : Updates s (s.returnOne v) := .outside rfl

theorem updates_returnStereo (s : State) (v : F) : Updates s (s.returnStereo v) := .outside rfl

theorem updates_returnPattern (s : State) (v : P) : Updates s (s.returnPattern v) := .outside rfl

theorem updates_writeParam (s : State) (i : Byte) (v : P) : Updates s (s.writeParam i v) := by
  unfold State.writeParam
  split
  · exact .outside rfl
  · exact .refl s

theorem updates_beginWrite (s : State) (i : Byte) (v : P) : Updates s (s.beginWrite i v) := by
  unfold State.beginWrite
  split
  · exact .outside rfl
  · exact .refl s

theorem updates_endWrite (s : State) : Updates s s.endWrite := by
  unfold State.endWrite
  split
  · exact .refl s
  · split <;> exact .outside rfl

theorem updates_readIndex (s : State) (i : Byte) : Updates s (s.readIndex i).2 := by
  unfold State.readIndex
  split
  · exact .of_readsFrom (s.readParam_readsFrom _)
  · exact .refl s

/-! ## The families -/

/-- A tick of an envelope leaves the parameters and the counter alone. -/
theorem envTick_frame (e : Env) (s : State) : (envTick e s).2.par = s.par ∧ (envTick e s).2.n = s.n := by
  obtain ⟨t, hr, ht⟩ := envTick_spec e s
  obtain ⟨hpar, -, hn, -⟩ := hr.fields
  rw [ht]
  simp [hpar, hn]

theorem updates_envTick (e : Env) (s : State) : Updates s (envTick e s).2 := by
  obtain ⟨t, hr, ht⟩ := envTick_spec e s
  have hout : Num.representable t.par.fmt (envTick e s).1 = true := by
    rw [hr.fields.1]
    exact Num.add_representable s.par _ _
  rw [ht]
  exact (Updates.of_readsFrom hr).trans (.env hout)

/-- VCO.MOD_PW leaves the parameters and the counter alone. -/
theorem vcoModPw_frame (cv : F) (s : State) : (vcoModPw cv s).par = s.par ∧ (vcoModPw cv s).n = s.n := by
  obtain ⟨t, v, hr, ht⟩ := vcoModPw_spec cv s
  obtain ⟨hpar, -, hn, -⟩ := hr.fields
  rw [ht]
  exact ⟨hpar, hn⟩

theorem updates_vcoModPw (cv : F) (s : State) : Updates s (vcoModPw cv s) := by
  have hpw : Num.representable s.par.fmt (vcoModPw cv s).pw.value = true := Num.add_representable s.par _ _
  obtain ⟨t, v, hr, ht⟩ := vcoModPw_spec cv s
  rw [ht, ← hr.fields.1] at hpw
  rw [ht]
  exact (Updates.of_readsFrom hr).trans (.pw hpw)

/-- VCF.MOD_FC leaves the parameters and the counter alone. -/
theorem vcfModFc_frame (cv noteCV : F) (s : State) :
    (vcfModFc cv noteCV s).par = s.par ∧ (vcfModFc cv noteCV s).n = s.n := by
  obtain ⟨t, v, hr, ht⟩ := vcfModFc_spec cv noteCV s
  obtain ⟨hpar, -, hn, -⟩ := hr.fields
  rw [ht]
  exact ⟨hpar, hn⟩

theorem updates_vcfModFc (cv noteCV : F) (s : State) : Updates s (vcfModFc cv noteCV s) := by
  have hfc : Num.representable s.par.fmt (vcfModFc cv noteCV s).fc.value = true := Num.add_representable s.par _ _
  obtain ⟨t, v, hr, ht⟩ := vcfModFc_spec cv noteCV s
  rw [ht, ← hr.fields.1] at hfc
  rw [ht]
  exact (Updates.of_readsFrom hr).trans (.fc hfc)

theorem updates_vcoTick (f : F) {s : State} (h : s.n + 1 < 2 ^ s.par.cntW) : Updates s (vcoTick f s).2 := by
  obtain ⟨t, hr, ht⟩ := vcoTick_spec f s
  obtain ⟨hpar, -, hn, -⟩ := hr.fields
  rw [ht]
  exact (Updates.of_readsFrom hr).trans (.count (by rwa [hpar, hn]))

theorem updates_vcfFilter (x : F) (s : State) : Updates s (vcfFilter x s).2 := by
  obtain ⟨t, k, hr, ht⟩ := vcfFilter_spec x s
  obtain ⟨hpar, -, -, -, -, -, hfilt, -⟩ := hr.fields
  rw [ht, ← hpar, ← hfilt]
  exact (Updates.of_readsFrom hr).trans (.filter t _ _)

theorem updates_retrigger (e : Env) (s : State) : Updates s (retrigger e s) := .env (Num.zero_representable _)

theorem updates_setGates (b : Bool) (s : State) : Updates s (setGates b s) :=
  (Updates.gate s .amp b).trans (.gate _ .mod b)

/-- A sample of RENDER is both envelope ticks, both modulations, the oscillator tick and the filter step (R172). -/
theorem updates_sampleOf {s : State} (h : s.n + 1 < 2 ^ s.par.cntW) : Updates s (sampleOf s).state := by
  have hcount (cv cv' noteCV : F) :
      let t := vcfModFc cv' noteCV (vcoModPw cv (envTick .mod (envTick .amp s).2).2)
      t.n + 1 < 2 ^ t.par.cntW := by
    simpa only [vcfModFc_frame, vcoModPw_frame, envTick_frame] using h
  exact (updates_envTick .amp s).trans <| (updates_envTick .mod _).trans <| (updates_vcoModPw _ _).trans <|
    (updates_vcfModFc _ _ _).trans <| (updates_vcoTick _ (hcount _ _ _)).trans (updates_vcfFilter _ _)

/-! ## The commands -/

/-- An EVT runs the form its message decodes to (R173, R74). -/
theorem exec_evt (b0 b1 b2 : Byte) (s : State) : exec (.evt b0 b1 b2) s = exec (decodeMidiBytes b0 b1 b2) s := by
  change execEvt b0 b1 b2 s = _
  unfold execEvt decodeMidiBytes
  split
  · rfl
  · split <;> rfl

/-- NOTE_ON: the retrigger where the note changes, the held note, the gates (R174). -/
theorem noteOn_updates {n b2 : Byte} {s t : State} (h : exec (.noteOn n b2) s = .next t) : Updates s t := by
  cases h
  refine Updates.trans ?_ ((Updates.note _ n).trans (updates_setGates true _))
  split
  · exact (updates_retrigger .amp s).trans (updates_retrigger .mod _)
  · exact .refl s

/-- NOTE_OFF: the gates, if it names the held note (R175). -/
theorem noteOff_updates {n b2 : Byte} {s t : State} (h : exec (.noteOff n b2) s = .next t) : Updates s t := by
  cases h
  split
  · exact updates_setGates false s
  · exact .refl s

/-- A command that completes has done nothing but the updates above. -/
theorem exec_updates {i : Instr} {s t : State} (h : exec i s = .next t) : Updates s t := by
  cases i with
  | nop => cases h; exact .refl s
  | reset => cases h; exact .reset s
  | setsr sr => cases h; exact .sr (Num.toF_representable _ sr)
  | pwr i v => cases h; exact updates_writeParam s i v
  | prd i => cases h; exact (updates_readIndex s i).trans (updates_returnPattern _ _)
  | evt b0 b1 b2 =>
    rw [exec_evt, decodeMidiBytes] at h
    split at h
    · exact noteOn_updates h
    · split at h
      · exact noteOff_updates h
      · cases h; exact .refl s
  | render inL inR =>
    obtain ⟨rfl, hcount⟩ := State.completeTick_eq_next h
    exact (updates_sampleOf hcount).trans (updates_returnStereo _ _)
  | envTick e => cases h; exact (updates_envTick e s).trans (updates_returnOne _ _)
  | envGateOn e => cases h; exact .gate s e true
  | envGateOff e => cases h; exact .gate s e false
  | envRetrig e => cases h; exact updates_retrigger e s
  | vcoTick f =>
    obtain ⟨rfl, hcount⟩ := State.completeTick_eq_next h
    exact (updates_vcoTick _ hcount).trans (updates_returnOne _ _)
  | vcoModPw cv => cases h; exact updates_vcoModPw _ s
  | vcfModFc cv noteCV => cases h; exact updates_vcfModFc _ _ s
  | vcfFilter x => cases h; exact (updates_vcfFilter _ s).trans (updates_returnOne _ _)
  | p2f n => cases h; exact updates_returnOne s _
  | noteOn n b2 => exact noteOn_updates h
  | noteOff n b2 => exact noteOff_updates h
  | midiIgn b0 b1 b2 => cases h; exact .refl s

/-- What a step does, by what is pending (R7, R232): nothing, or the updates of the event it takes from the port. -/
theorem step_updates {s t : State} (h : step s = .next t) :
    (s.port = [] ∧ t = s) ∨ ∃ e rest, s.port = e :: rest ∧ Updates (s.taken rest) t := by
  unfold step fetch at h
  cases hp : s.port with
  | nil => rw [hp] at h; cases h; exact .inl ⟨rfl, rfl⟩
  | cons e rest =>
    rw [hp] at h
    refine .inr ⟨e, rest, rfl, ?_⟩
    cases e with
    | command w => exact exec_updates h
    | writeBegins i v => cases h; exact updates_beginWrite _ i v
    | writeEnds => cases h; exact updates_endWrite _
    | readOverlaps i => cases h; exact updates_returnPattern _ _

end Sys2Proof.Machine
end

section
/-! What every step keeps: the invariant `Safety.Inv`, the parameters of the implementation, the order of the port. -/

namespace Sys2Proof.Machine

open Safety (Inv)

/-! ## The invariant, register by register -/

/-- What the invariant says of the eleven filter registers: data of format `f`, the delays equal to the stage outputs (R30). -/
structure FilterInv (f : Format) (r : FilterRegs) : Prop where
  delays : Num.representable f r.d2 = true ∧ Num.representable f r.d3 = true ∧ Num.representable f r.d4 = true
  stages : ∀ st ∈ r.st.toList, Num.representable f st.y = true ∧ Num.representable f st.u = true
  outputs : r.d2 = r.st[1].y ∧ r.d3 = r.st[2].y ∧ r.d4 = r.st[3].y

/-- The registers of `Safety.allRegisters`, one by one. -/
theorem allRegisters_representable_iff {f : Format} {s : State} :
    (∀ x ∈ Safety.allRegisters s, Num.representable f x = true) ↔
      (Num.representable f s.sr.value = true ∧ Num.representable f s.pw.value = true ∧
        Num.representable f s.fc.value = true) ∧
      (Num.representable f s.amp.out = true ∧ Num.representable f s.mod.out = true) ∧
      (Num.representable f s.filt.d2 = true ∧ Num.representable f s.filt.d3 = true ∧
        Num.representable f s.filt.d4 = true) ∧
      ∀ st ∈ s.filt.st.toList, Num.representable f st.y = true ∧ Num.representable f st.u = true := by
  simp only [Safety.allRegisters, List.forall_mem_append, List.forall_mem_cons, List.forall_mem_flatMap,
    List.not_mem_nil, false_imp_iff, implies_true, and_true, and_assoc]

/-- The invariant in parts: the counter, the three open registers, the envelopes, the filter. -/
theorem inv_iff {s : State} :
    Inv s ↔ s.n < 2 ^ s.par.cntW ∧
      (Num.representable s.par.fmt s.sr.value = true ∧ Num.representable s.par.fmt s.pw.value = true ∧
        Num.representable s.par.fmt s.fc.value = true) ∧
      (∀ e, Num.representable s.par.fmt (s.env e).out = true) ∧ FilterInv s.par.fmt s.filt := by
  constructor
  · rintro ⟨hn, hformat, h2, h3, h4⟩
    obtain ⟨hopen, ⟨hamp, hmod⟩, hdelays, hstages⟩ := allRegisters_representable_iff.mp hformat
    exact ⟨hn, hopen, fun e => by cases e <;> assumption, hdelays, hstages, h2, h3, h4⟩
  · rintro ⟨hn, hopen, henv, hdelays, hstages, h2, h3, h4⟩
    exact ⟨hn, allRegisters_representable_iff.mpr ⟨hopen, ⟨henv .amp, henv .mod⟩, hdelays, hstages⟩, h2, h3, h4⟩

/-- The cleared filter registers (R45). -/
theorem filterInv_cleared (f : Format) : FilterInv f .cleared := by
  cases f <;> exact ⟨by decide, by decide, rfl, rfl, rfl⟩

/-- A stage's new registers are the results of an addition and of a multiplication (R152). -/
theorem lpf1_representable (p : Params) (r : StageRegs) (x g : F) :
    Num.representable p.fmt (lpf1 p r x g).y = true ∧ Num.representable p.fmt (lpf1 p r x g).u = true :=
  ⟨Num.add_representable p _ _, Num.mul_representable p _ _⟩

/-- A ladder step establishes the filter's part, whatever was there before (R154). -/
theorem filterInv_ladder (p : Params) (r : FilterRegs) (x g : F) : FilterInv p.fmt (ladder p r x g) where
  delays := by simp [ladder, lpf1_representable]
  stages := by simp [ladder, lpf1_representable]
  outputs := ladder_delays p r x g

/-! ## What the updates keep -/

/-- No update takes an event from the port or writes the parameters of the implementation (R38). -/
theorem Updates.port_par {s t : State} (h : Updates s t) : t.port = s.port ∧ t.par = s.par := by
  induction h with
  | outside h => rw [h]; exact ⟨rfl, rfl⟩
  | env h => simp
  | gate s e b => simp [setGate]
  | trans _ _ ih₁ ih₂ => exact ⟨ih₂.1.trans ih₁.1, ih₂.2.trans ih₁.2⟩
  | _ => exact ⟨rfl, rfl⟩

/-- Writing an envelope whose output is a datum of `FMT` keeps the invariant. -/
theorem inv_setEnv {s : State} {e : Env} {r : EnvRegs} (hs : Inv s) (hr : Num.representable s.par.fmt r.out = true) :
    Inv (s.setEnv e r) := by
  obtain ⟨hn, hopen, henv, hfilt⟩ := inv_iff.mp hs
  refine inv_iff.mpr ⟨by simpa using hn, by simpa using hopen, fun d => ?_, by simpa using hfilt⟩
  rw [State.setEnv_par]
  by_cases hd : d = e
  · subst hd; rwa [State.env_setEnv_self]
  · rw [State.env_setEnv_other s r hd]; exact henv d

/-- Every update keeps the invariant. -/
theorem Updates.inv {s t : State} (h : Updates s t) (hs : Inv s) : Inv t := by
  induction h with
  | trans _ _ ih₁ ih₂ => exact ih₂ (ih₁ hs)
  | outside h => rw [h]; exact ⟨hs.count, hs.format, hs.delay2, hs.delay3, hs.delay4⟩
  | note s n => exact ⟨hs.count, hs.format, hs.delay2, hs.delay3, hs.delay4⟩
  | count h => exact ⟨h, hs.format, hs.delay2, hs.delay3, hs.delay4⟩
  | reset s =>
    exact inv_iff.mpr ⟨Nat.two_pow_pos _, by simp [coreReset, OpenReg.unwritten],
      fun e => by cases e <;> exact Num.zero_representable _, filterInv_cleared _⟩
  | sr h =>
    obtain ⟨hn, ⟨-, hpw, hfc⟩, henv, hfilt⟩ := inv_iff.mp hs
    exact inv_iff.mpr ⟨hn, ⟨h, hpw, hfc⟩, henv, hfilt⟩
  | pw h =>
    obtain ⟨hn, ⟨hsr, -, hfc⟩, henv, hfilt⟩ := inv_iff.mp hs
    exact inv_iff.mpr ⟨hn, ⟨hsr, h, hfc⟩, henv, hfilt⟩
  | fc h =>
    obtain ⟨hn, ⟨hsr, hpw, -⟩, henv, hfilt⟩ := inv_iff.mp hs
    exact inv_iff.mpr ⟨hn, ⟨hsr, hpw, h⟩, henv, hfilt⟩
  | env h => exact inv_setEnv hs h
  | gate s e b =>
    obtain ⟨-, -, henv, -⟩ := inv_iff.mp hs
    exact inv_setEnv hs (henv e)
  | filter s x g =>
    obtain ⟨hn, hopen, henv, -⟩ := inv_iff.mp hs
    exact inv_iff.mpr ⟨hn, hopen, henv, filterInv_ladder s.par s.filt x g⟩

/-- Settles O52: a step leaves the state alone or takes an event from the port and makes updates, each of which keeps the invariant. -/
theorem stepKeepsTheInvariant : Obligations.StepKeepsTheInvariant := by
  intro s t hs h
  obtain ⟨-, rfl⟩ | ⟨e, rest, -, hu⟩ := step_updates h
  · exact hs
  · exact hu.inv ⟨hs.count, hs.format, hs.delay2, hs.delay3, hs.delay4⟩

/-- Settles O51: the event a step takes is the head of the port, and no update touches the port or the parameters. -/
theorem stepConsumesOneEvent : Obligations.StepConsumesOneEvent := by
  intro s t h
  obtain ⟨hp, rfl⟩ | ⟨e, rest, hp, hu⟩ := step_updates h
  · simp [hp]
  · obtain ⟨hport, hpar⟩ := hu.port_par
    exact ⟨by rw [hport, hp]; rfl, hpar⟩

end Sys2Proof.Machine
end

section
/-! Port values: a binary32 pattern is its sign and its magnitude, and `magOf` reads the magnitude of a datum back. -/

namespace Sys2Proof.Machine.Num

/-! ## Sign and magnitude -/

theorem strip_negate (k : Nat) (neg : Bool) (m : Nat) (e : Int) : strip k (!neg) m e = negate (strip k neg m e) := by
  induction k generalizing m e with
  | zero => rfl
  | succ k ih =>
    simp only [strip]
    split
    · exact ih _ _
    · rfl

theorem mk_negate (neg : Bool) (m : Nat) (e : Int) : mk (!neg) m e = negate (mk neg m e) := by
  unfold mk
  split
  · rfl
  · exact strip_negate _ neg m e

/-- The sign bit changes the sign alone. -/
theorem ofMag_negate (f : Format) (neg : Bool) (mag : Nat) : ofMag f (!neg) mag = negate (ofMag f neg mag) := by
  simp only [ofMag, mk_negate]
  repeat' split
  all_goals rfl

/-- No datum is below itself (R104). -/
theorem lt_self (x : F) : lt x x = false := by
  cases x with
  | nan => rfl
  | inf neg => cases neg <;> rfl
  | fin neg m e => simp [lt]

/-- Two finite patterns of one sign that stand for one datum are equal. -/
theorem ofMag_injective (f : Format) (neg : Bool) {j k : Nat} (hj : j < infMag f) (hk : k < infMag f)
    (h : ofMag f neg j = ofMag f neg k) : j = k := by
  have hpos : ofMag f false j = ofMag f false k := by
    cases neg with
    | false => exact h
    | true => simpa [← ofMag_negate] using congrArg negate h
  rcases Nat.lt_trichotomy j k with hlt | heq | hlt
  · have := ofMag_lt f hlt hk
    rw [hpos, lt_self] at this
    cases this
  · exact heq
  · have := ofMag_lt f hlt hj
    rw [hpos, lt_self] at this
    cases this

/-- `magOf` reads a finite pattern back from its datum. -/
theorem magOf_ofMag (f : Format) {neg : Bool} {mag : Nat} (h : mag < infMag f) {m : Nat} {e : Int} (h0 : m ≠ 0)
    (hm : ofMag f neg mag = .fin neg m e) : magOf f m e = mag := by
  have hrep : representable f (.fin neg m e) = true := by
    rw [← hm]
    refine ofMag_representable f neg mag (h.trans ?_)
    cases f <;> decide
  obtain ⟨hback, hlt⟩ := ofMag_magOf f neg h0 hrep
  exact ofMag_injective f neg hlt h (hback.trans hm.symm)

/-- The three kinds of magnitude pattern of a port value: finite, the infinity, NaN. -/
theorem ofMag_binary32_cases (neg : Bool) {mag : Nat} (h : mag < 2 ^ 31) :
    mag < infMag .binary32 ∨ (mag = infMag .binary32 ∧ ofMag .binary32 neg mag = .inf neg) ∨
      (infMag .binary32 < mag ∧ ofMag .binary32 neg mag = .nan) := by
  rcases Nat.lt_or_ge mag (infMag .binary32) with hlt | hge
  · exact .inl hlt
  · have hinf : infMag .binary32 = 2139095040 := rfl
    have hex : mag / 2 ^ fracBits .binary32 = 2 ^ expBits .binary32 - 1 := by
      simp only [fracBits, expBits]
      omega
    refine .inr ?_
    unfold ofMag
    dsimp only
    rw [if_pos hex]
    rcases Nat.eq_or_lt_of_le hge with heq | hlt
    · refine .inl ⟨heq.symm, if_pos ?_⟩
      simp only [fracBits]
      omega
    · refine .inr ⟨hlt, if_neg ?_⟩
      simp only [fracBits]
      omega

/-! ## Patterns -/

/-- Bit 31 is set from `2^31` on (R52). -/
theorem getLsbD_signBit (w : P) : w.getLsbD 31 = decide (2 ^ 31 ≤ w.toNat) := BitVec.msb_eq_decide w

/-- A port value is its sign bit and its magnitude. -/
theorem packP_fields (w : P) : packP (w.getLsbD 31) (w.toNat % 2 ^ 31) = w := by
  apply BitVec.eq_of_toNat_eq
  have hw := w.isLt
  rw [packP, getLsbD_signBit, BitVec.toNat_ofNat]
  simp only [decide_eq_true_eq]
  split <;> omega

/-- The datum of a packed pattern. -/
theorem toF_packP (neg : Bool) {mag : Nat} (h : mag < 2 ^ 31) : toF (packP neg mag) = ofMag .binary32 neg mag := by
  have hnat : (packP neg mag).toNat = (if neg then 2 ^ 31 else 0) + mag := by
    rw [packP, BitVec.toNat_ofNat]
    exact Nat.mod_eq_of_lt (by split <;> omega)
  have hbit : (packP neg mag).getLsbD 31 = neg := by
    rw [getLsbD_signBit, hnat]
    cases neg with
    | false => simpa using h
    | true => simp
  have hmag : (packP neg mag).toNat % 2 ^ 31 = mag := by
    rw [hnat]
    split <;> omega
  rw [toF, hbit, hmag]

/-- Every free NaN pattern is a NaN (U12). -/
theorem toF_nanPattern (code : Nat) : toF (nanPattern code) = .nan := by
  have hinf : infMag .binary32 = 2139095040 := rfl
  have hmag : infMag .binary32 + 1 + code / 2 % (2 ^ 23 - 1) < 2 ^ 31 := by omega
  rw [nanPattern, toF_packP _ hmag]
  obtain hlt | ⟨heq, -⟩ | ⟨-, hnan⟩ := ofMag_binary32_cases (code % 2 == 1) hmag
  · omega
  · omega
  · exact hnan

/-- `toP` of a finite datum of binary32: nothing is rounded. -/
theorem toP_fin (code : Nat) (neg : Bool) (m : Nat) (e : Int) (h : representable .binary32 (.fin neg m e) = true) :
    toP code (.fin neg m e) = packP neg (if m = 0 then 0 else magOf .binary32 m e) := by
  by_cases h0 : m = 0
  · simp [toP, roundQ, h0]
  · simp [toP, roundQ_exact _ neg m e h0 h, h0]

/-- `toP` packs the pattern of a datum that is no NaN. -/
theorem toP_ofMag (code : Nat) (neg : Bool) {mag : Nat} (h : mag < 2 ^ 31) (hn : ofMag .binary32 neg mag ≠ .nan) :
    toP code (ofMag .binary32 neg mag) = packP neg mag := by
  obtain hlt | ⟨heq, hinf⟩ | ⟨-, hnan⟩ := ofMag_binary32_cases neg h
  · obtain ⟨m, e, hm, hne⟩ := ofMag_finite .binary32 neg mag hlt
    have hrep := ofMag_representable .binary32 neg mag h
    rw [hm] at hrep ⊢
    rw [toP_fin code neg m e hrep]
    split
    next h0 =>
      have hz : mag = 0 := by
        by_contra hmag
        exact hne hmag h0
      rw [hz]
    next h0 => rw [magOf_ofMag _ hlt h0 hm]
  · rw [hinf, heq]
    rfl
  · exact absurd hnan hn

/-- Settles O60: a pattern that is no NaN is packed again from the sign and the magnitude that `toF` reads; a free NaN pattern is a NaN. -/
theorem portFloatRoundTrip : Obligations.PortFloatRoundTrip := by
  intro w code
  refine ⟨fun hn => ?_, toF_nanPattern code⟩
  rw [toF, toP_ofMag code _ (Nat.mod_lt _ (by decide)) hn, packP_fields]

end Sys2Proof.Machine.Num
end

section
/-! What a step is, by the event that is next on the port. -/

namespace Sys2Proof.Machine

theorem step_of_nil {s : State} (h : s.port = []) : step s = .next s := by
  rw [step, fetch, h]

/-- A command at the head of the port runs without its event and without the result before (R7, R63). -/
theorem step_of_command {s : State} {w : CmdWord} {rest : List PortEvent} (h : s.port = .command w :: rest) :
    step s = exec (decodeCmd w) (s.taken rest) := by
  rw [step, fetch, h]

theorem step_of_writeBegins {s : State} {i : Byte} {v : P} {rest : List PortEvent} (h : s.port = .writeBegins i v :: rest) :
    step s = .next ((s.taken rest).beginWrite i v) := by
  rw [step, fetch, h]

theorem step_of_writeEnds {s : State} {rest : List PortEvent} (h : s.port = .writeEnds :: rest) :
    step s = .next (s.taken rest).endWrite := by
  rw [step, fetch, h]

theorem step_of_readOverlaps {s : State} {i : Byte} {rest : List PortEvent} (h : s.port = .readOverlaps i :: rest) :
    step s = .next ((s.taken rest).returnPattern (s.latest i)) := by
  rw [step, fetch, h]

/-- The oldest write in flight completes: it is stored, unless it has taken effect before (R57). -/
theorem State.endWrite_cons {s : State} {w : Write} {ws : List Write} (h : s.inFlight = w :: ws) :
    s.endWrite = { s with inFlight := ws, store := if w.landed then s.store else s.store.set w.idx w.val } := by
  rw [State.endWrite, h]
  dsimp only
  split <;> rfl

/-- A word pushed on the port is the next command (R72 for a MIDI3 word). -/
theorem step_pushWord (s : State) (w : Encoded) : step (s.pushWord w) = exec (decodeCmd (carry w)) { s with res := .none } :=
  step_of_command rfl

/-- A 24-bit message arrives as the operand of an EVT (R72). -/
theorem decodeCmd_carry_midi3 (m : MidiWord) :
    decodeCmd (carry (.midi3 m)) = .evt (m.extractLsb' 16 8) (m.extractLsb' 8 8) (m.extractLsb' 0 8) := by
  simp [carry, decodeCmd, midiB0, midiB1, midiB2, field]

/-- Settles O49: the equation of `step` for each kind of event. -/
theorem stepRunsTheDecodedCommand : Obligations.StepRunsTheDecodedCommand := by
  intro s
  refine ⟨fun w rest h => step_of_command h, fun w => ?_, fun m => ?_, step_of_nil, fun i v rest hi h => ?_,
    fun i rest h => step_of_readOverlaps h, fun rest h => ⟨fun hf => ?_, fun w ws hf => ?_⟩⟩
  · have hw : tableWord 80 w.toNat = .cmd80 w := by simp [tableWord]
    rw [State.withFetchWord, hw, step_pushWord, carry]
  · have hm : tableWord 24 m.toNat = .midi3 m := by simp [tableWord]
    rw [State.withFetchWord, hm, step_pushWord, decodeCmd_carry_midi3]
  · rw [step_of_writeBegins h, State.beginWrite, dif_pos hi]
    rfl
  · rw [step_of_writeEnds h, State.endWrite, show (s.taken rest).inFlight = [] from hf]
    rfl
  · rw [step_of_writeEnds h, State.endWrite_cons (s := s.taken rest) hf]
    rfl

end Sys2Proof.Machine
end

section
/-! Which commands complete, and what a read event of some parameters does to the store and the writes in flight. -/

namespace Sys2Proof.Machine

open Claims (OnlyReads readsOf Runs ticks)

/-! ## Which commands complete (R213 item 4) -/

/-- The two commands that count. -/
theorem ticks_iff {i : Instr} : ticks i = true ↔ (∃ f, i = .vcoTick f) ∨ ∃ l r, i = .render l r := by
  cases i <;> simp [ticks]

/-- A message has one of three forms (R74). -/
theorem decodeMidiBytes_cases (b0 b1 b2 : Byte) :
    decodeMidiBytes b0 b1 b2 = .noteOn b1 b2 ∨ decodeMidiBytes b0 b1 b2 = .noteOff b1 b2 ∨
      decodeMidiBytes b0 b1 b2 = .midiIgn b0 b1 b2 := by
  unfold decodeMidiBytes
  split
  · exact .inl rfl
  · split
    · exact .inr (.inl rfl)
    · exact .inr (.inr rfl)

/-- A command completes unless it counts with the counter at its maximum. -/
theorem exec_completes_of_runs {i : Instr} {s : State} (h : Runs i s) : ∃ t, exec i s = .next t := by
  cases i with
  | vcoTick f => exact ⟨_, State.completeTick_next _ (h rfl)⟩
  | render inL inR => exact ⟨_, State.completeTick_next _ (h rfl)⟩
  | evt b0 b1 b2 =>
    rw [exec_evt]
    obtain hd | hd | hd := decodeMidiBytes_cases b0 b1 b2 <;> exact ⟨_, by rw [hd]; rfl⟩
  | _ => exact ⟨_, rfl⟩

/-- A command that counts is refused with the counter at its maximum (R24). -/
theorem exec_refused_of_ticks {i : Instr} {s : State} (hi : ticks i = true) (hn : s.n + 1 = 2 ^ s.par.cntW) :
    exec i s = .refused .counterExhausted := by
  have hmax : ¬ s.n + 1 < 2 ^ s.par.cntW := by omega
  obtain ⟨f, rfl⟩ | ⟨l, r, rfl⟩ := ticks_iff.mp hi
  · exact State.completeTick_refused _ hmax
  · exact State.completeTick_refused _ hmax

/-! ## Read events of some parameters -/

/-- What leaves the store and the writes in flight alone reads nothing. -/
theorem onlyReads_of_eq {is : List (Fin 20)} {s t : State} (hstore : t.store = s.store) (hflight : t.inFlight = s.inFlight) :
    OnlyReads is s t :=
  ⟨by rw [hflight], fun j => ⟨0, Nat.zero_le _, fun _ => rfl, by simp [hstore], by simp [hflight]⟩⟩

theorem Claims.OnlyReads.mono {is js : List (Fin 20)} {s t : State} (h : OnlyReads is s t) (hsub : is ⊆ js) :
    OnlyReads js s t := by
  refine ⟨h.1, fun j => ?_⟩
  obtain ⟨c, hle, hunread, hstore, hpending⟩ := h.2 j
  exact ⟨c, hle, fun hj => hunread fun hmem => hj (hsub hmem), hstore, hpending⟩

/-- The values that reads can still return, after the `c` oldest pending writes have taken effect. -/
theorem getD_cons_drop (x : P) (vs : List P) {c : Nat} (h : c ≤ vs.length) :
    (x :: vs).getD c 0 :: vs.drop c = (x :: vs).drop c := by
  have hlt : c < (x :: vs).length := Nat.lt_succ_of_le h
  rw [List.drop_eq_getElem_cons hlt, List.getD_eq_getElem _ _ hlt, List.drop_succ_cons]

/-- Of each parameter, the second sequence of reads counts on where the first has stopped (R57). -/
theorem Claims.OnlyReads.trans {is : List (Fin 20)} {s t u : State} (h : OnlyReads is s t) (k : OnlyReads is t u) :
    OnlyReads is s u := by
  refine ⟨k.1.trans h.1, fun j => ?_⟩
  obtain ⟨c, hc, hc0, hstore, hpending⟩ := h.2 j
  obtain ⟨d, hd, hd0, kstore, kpending⟩ := k.2 j
  rw [hpending, List.length_drop] at hd
  refine ⟨c + d, by omega, fun hj => by rw [hc0 hj, hd0 hj], ?_, ?_⟩
  · rw [kstore, hpending, hstore, getD_cons_drop _ _ hc, List.getD_eq_getElem?_getD, List.getElem?_drop,
      ← List.getD_eq_getElem?_getD]
  · rw [kpending, hpending, List.drop_drop]

/-- One read event. -/
theorem readParam_onlyReads {is : List (Fin 20)} {i : Fin 20} (hi : i ∈ is) (s : State) : OnlyReads is s (s.readParam i).2 := by
  obtain ⟨c, hc, -, hstore, hflight⟩ := s.readParam_spec i
  refine ⟨by rw [hflight, land_map_key], fun j => ?_⟩
  by_cases hj : j = i
  · subst hj
    exact ⟨c, hc, fun hn => absurd hi hn, by simp [hstore], by rw [hflight, pending_land_self]⟩
  · have hne : i.val ≠ j.val := fun h => hj (Fin.ext h.symm)
    exact ⟨0, Nat.zero_le _, fun _ => rfl, by simp [hstore, hne], by rw [hflight, pending_land_other hj]; rfl⟩

theorem readF_onlyReads {is : List (Fin 20)} {i : Fin 20} (hi : i ∈ is) (s : State) : OnlyReads is s (s.readF i).2 :=
  readParam_onlyReads hi s

/-! ## Register updates read nothing -/

section
variable {is : List (Fin 20)} (s : State)

theorem setSr_onlyReads (v : F) : OnlyReads is s (s.setSr v) := onlyReads_of_eq rfl rfl

theorem setPw_onlyReads (v : F) : OnlyReads is s (s.setPw v) := onlyReads_of_eq rfl rfl

theorem setFc_onlyReads (v : F) : OnlyReads is s (s.setFc v) := onlyReads_of_eq rfl rfl

theorem setFilt_onlyReads (r : FilterRegs) : OnlyReads is s (s.setFilt r) := onlyReads_of_eq rfl rfl

theorem tickCount_onlyReads : OnlyReads is s s.tickCount := onlyReads_of_eq rfl rfl

theorem useFree_onlyReads (k : Nat) : OnlyReads is s (s.useFree k) := onlyReads_of_eq rfl rfl

theorem returnOne_onlyReads (v : F) : OnlyReads is s (s.returnOne v) := onlyReads_of_eq rfl rfl

theorem returnPattern_onlyReads (v : P) : OnlyReads is s (s.returnPattern v) := onlyReads_of_eq rfl rfl

theorem returnStereo_onlyReads (v : F) : OnlyReads is s (s.returnStereo v) := onlyReads_of_eq rfl rfl

theorem setEnv_onlyReads (e : Env) (r : EnvRegs) : OnlyReads is s (s.setEnv e r) :=
  onlyReads_of_eq (State.setEnv_store ..) (State.setEnv_inFlight ..)

theorem coreReset_onlyReads : OnlyReads is s (coreReset s) := onlyReads_of_eq rfl rfl

end

/-! ## The families, by their rows of R39 -/

/-- The time constant of a phase is in the row of ENV.TICK (R110). -/
theorem timeIdx_mem_readsOf (e : Env) (ph : Phase) : timeIdx e ph ∈ readsOf (.envTick e) := by
  cases e <;> cases ph <;> decide

theorem sustainIdx_mem_readsOf (e : Env) : sustainIdx e ∈ readsOf (.envTick e) := by
  cases e <;> decide

/-- RENDER's row holds the rows of the commands it is made of (R172). -/
theorem readsOf_subset_render (l r x y : P) :
    (∀ e, readsOf (.envTick e) ⊆ readsOf (.render l r)) ∧ readsOf (.vcoModPw x) ⊆ readsOf (.render l r) ∧
      readsOf (.vcfModFc x y) ⊆ readsOf (.render l r) ∧ readsOf (.vcoTick x) ⊆ readsOf (.render l r) ∧
      readsOf (.vcfFilter x) ⊆ readsOf (.render l r) := by
  refine ⟨fun e => by cases e <;> simp [readsOf], ?_, ?_, ?_, ?_⟩
  all_goals simp [readsOf]

theorem envTick_onlyReads (e : Env) (s : State) : OnlyReads (readsOf (.envTick e)) s (envTick e s).2 := by
  have htarget (t : State) (ph : Phase) : OnlyReads (readsOf (.envTick e)) t (t.readTarget e ph).2 := by
    cases ph with
    | decaySustain => exact readF_onlyReads (sustainIdx_mem_readsOf e) t
    | attack => exact onlyReads_of_eq rfl rfl
    | release => exact onlyReads_of_eq rfl rfl
  exact ((readF_onlyReads (timeIdx_mem_readsOf e _) s).trans (htarget _ _)).trans (setEnv_onlyReads ..)

theorem vcoModPw_onlyReads (cv : P) (x : F) (s : State) : OnlyReads (readsOf (.vcoModPw cv)) s (vcoModPw x s) := by
  have hbase : pPulseWidth ∈ readsOf (.vcoModPw cv) := .head _
  have hdepth : pPwModDepth ∈ readsOf (.vcoModPw cv) := .tail _ (.head _)
  exact (((readF_onlyReads hbase s).trans (readF_onlyReads hbase _)).trans (readF_onlyReads hdepth _)).trans
    (setPw_onlyReads ..)

theorem vcfModFc_onlyReads (cv noteCV : P) (x y : F) (s : State) :
    OnlyReads (readsOf (.vcfModFc cv noteCV)) s (vcfModFc x y s) := by
  have hbase : pCutoff ∈ readsOf (.vcfModFc cv noteCV) := .head _
  have hdepth : pCutoffModDepth ∈ readsOf (.vcfModFc cv noteCV) := .tail _ (.head _)
  have hkbd : pKbdFollowDepth ∈ readsOf (.vcfModFc cv noteCV) := .tail _ (.tail _ (.head _))
  exact ((((readF_onlyReads hbase s).trans (readF_onlyReads hbase _)).trans (readF_onlyReads hdepth _)).trans
    (readF_onlyReads hkbd _)).trans (setFc_onlyReads ..)

theorem vcfFilter_onlyReads (x : P) (y : F) (s : State) : OnlyReads (readsOf (.vcfFilter x)) s (vcfFilter y s).2 :=
  (readF_onlyReads (.head _) s).trans (setFilt_onlyReads ..)

theorem readLevels_onlyReads (f : P) (s : State) : OnlyReads (readsOf (.vcoTick f)) s (readLevels s).2 := by
  have hlevel (k : Fin 20) (hk : k ∈ [pSawRate, pTriRate, pSquareRate, pSubRate, pNoiseRate]) (t : State) :
      OnlyReads (readsOf (.vcoTick f)) t (t.readF k).2 := readF_onlyReads hk t
  simp only [readLevels]
  exact (hlevel pSawRate (by decide) s).trans <| (hlevel pTriRate (by decide) _).trans <|
    (hlevel pSquareRate (by decide) _).trans <| (hlevel pSubRate (by decide) _).trans (hlevel pNoiseRate (by decide) _)

theorem vcoTick_onlyReads (f : P) (x : F) (s : State) : OnlyReads (readsOf (.vcoTick f)) s (vcoTick x s).2 :=
  ((useFree_onlyReads s 4).trans (readLevels_onlyReads f _)).trans (tickCount_onlyReads _)

/-- A sample of RENDER makes the reads of both envelope ticks, both modulations, the oscillator tick and the filter step (R172). -/
theorem sampleOf_onlyReads (l r : P) (s : State) : OnlyReads (readsOf (.render l r)) s (sampleOf s).state := by
  obtain ⟨henv, hpw, hfc, htick, hfilter⟩ := readsOf_subset_render l r l r
  exact ((envTick_onlyReads .amp s).mono (henv _)).trans <| ((envTick_onlyReads .mod _).mono (henv _)).trans <|
    ((vcoModPw_onlyReads l _ _).mono hpw).trans <| ((vcfModFc_onlyReads l r _ _ _).mono hfc).trans <|
    ((vcoTick_onlyReads l _ _).mono htick).trans <| (vcfFilter_onlyReads l _ _).mono hfilter

/-! ## The commands -/

theorem readsOf_prd (i : Byte) : readsOf (.prd i) = if h : i.toNat < 20 then [⟨i.toNat, h⟩] else [] := rfl

theorem readIndex_onlyReads (i : Byte) (s : State) : OnlyReads (readsOf (.prd i)) s (s.readIndex i).2 := by
  rw [State.readIndex, readsOf_prd]
  split
  · exact readParam_onlyReads (List.mem_singleton.mpr rfl) s
  · exact onlyReads_of_eq rfl rfl

/-- NOTE_ON reads no parameter (R174). -/
theorem noteOn_onlyReads {n b2 : Byte} {s t : State} (h : exec (.noteOn n b2) s = .next t) : OnlyReads [] s t := by
  cases h
  split <;> exact onlyReads_of_eq rfl rfl

/-- Nor does NOTE_OFF (R175). -/
theorem noteOff_onlyReads {n b2 : Byte} {s t : State} (h : exec (.noteOff n b2) s = .next t) : OnlyReads [] s t := by
  cases h
  split <;> exact onlyReads_of_eq rfl rfl

/-- A command but PWR does to the store what the reads of its row of R39 do. -/
theorem exec_onlyReads {i : Instr} {s t : State} (h : exec i s = .next t) (hpwr : ∀ k v, i ≠ .pwr k v) :
    OnlyReads (readsOf i) s t := by
  cases i with
  | pwr k v => exact absurd rfl (hpwr k v)
  | prd i => cases h; exact (readIndex_onlyReads i s).trans (returnPattern_onlyReads ..)
  | evt b0 b1 b2 =>
    rw [exec_evt] at h
    obtain hd | hd | hd := decodeMidiBytes_cases b0 b1 b2 <;> rw [hd] at h
    · exact noteOn_onlyReads h
    · exact noteOff_onlyReads h
    · cases h; exact onlyReads_of_eq rfl rfl
  | render inL inR =>
    obtain ⟨rfl, -⟩ := State.completeTick_eq_next h
    exact (sampleOf_onlyReads inL inR s).trans (returnStereo_onlyReads ..)
  | envTick e => cases h; exact (envTick_onlyReads e s).trans (returnOne_onlyReads ..)
  | envGateOn e => cases h; exact setEnv_onlyReads ..
  | envGateOff e => cases h; exact setEnv_onlyReads ..
  | envRetrig e => cases h; exact setEnv_onlyReads ..
  | vcoTick f =>
    obtain ⟨rfl, -⟩ := State.completeTick_eq_next h
    exact (vcoTick_onlyReads f _ s).trans (returnOne_onlyReads ..)
  | vcoModPw cv => cases h; exact vcoModPw_onlyReads cv _ s
  | vcfModFc cv noteCV => cases h; exact vcfModFc_onlyReads cv noteCV _ _ s
  | vcfFilter x => cases h; exact (vcfFilter_onlyReads x _ s).trans (returnOne_onlyReads ..)
  | noteOn n b2 => exact noteOn_onlyReads h
  | noteOff n b2 => exact noteOff_onlyReads h
  | nop => cases h; exact onlyReads_of_eq rfl rfl
  | reset => cases h; exact coreReset_onlyReads ..
  | setsr v => cases h; exact setSr_onlyReads ..
  | p2f n => cases h; exact returnOne_onlyReads ..
  | midiIgn b0 b1 b2 => cases h; exact onlyReads_of_eq rfl rfl

/-- Settles O18: a command is made of read events of the parameters of its row and of register updates, which leave the store
alone. -/
theorem commandsNeverWriteTheStore : Obligations.CommandsNeverWriteTheStore := by
  intro i s hruns hpwr
  obtain ⟨t, ht⟩ := exec_completes_of_runs hruns
  exact ⟨t, ht, exec_onlyReads ht hpwr⟩

end Sys2Proof.Machine
end

section
/-! Which registers a command writes (R39), with the counter and the values after power-on and RESET. -/

namespace Sys2Proof.Machine

open Claims (Reg Same writesOf effective Runs ticks)

/-! ## Reading an envelope through the other updates -/

section
variable (s : State) (e : Env)

@[simp] theorem State.env_setSr (v : F) : (s.setSr v).env e = s.env e := by cases e <;> rfl
@[simp] theorem State.env_setPw (v : F) : (s.setPw v).env e = s.env e := by cases e <;> rfl
@[simp] theorem State.env_setFc (v : F) : (s.setFc v).env e = s.env e := by cases e <;> rfl
@[simp] theorem State.env_setFilt (r : FilterRegs) : (s.setFilt r).env e = s.env e := by cases e <;> rfl
@[simp] theorem State.env_setNote (n : Byte) : (s.setNote n).env e = s.env e := by cases e <;> rfl
@[simp] theorem State.env_tickCount : s.tickCount.env e = s.env e := by cases e <;> rfl

end

/-! ## States that differ in some registers -/

/-- Of the core registers only those in `rs` differ; the pending events and the parameters of the implementation are the same. -/
structure WritesOnly (rs : List Reg) (s t : State) : Prop where
  same : ∀ r, r ∉ rs → Same r s t
  port : t.port = s.port
  par : t.par = s.par

theorem same_refl (r : Reg) (s : State) : Same r s s := by
  cases r <;> rfl

theorem same_trans {r : Reg} {s t u : State} (h : Same r s t) (k : Same r t u) : Same r s u := by
  cases r <;> exact Eq.trans k h

namespace WritesOnly

variable {rs : List Reg} {s t u : State}

theorem refl (s : State) : WritesOnly rs s s := ⟨fun r _ => same_refl r s, rfl, rfl⟩

theorem trans (h : WritesOnly rs s t) (k : WritesOnly rs t u) : WritesOnly rs s u :=
  ⟨fun r hr => same_trans (h.same r hr) (k.same r hr), k.port.trans h.port, k.par.trans h.par⟩

theorem mono {qs : List Reg} (h : WritesOnly qs s t) (hsub : qs ⊆ rs) : WritesOnly rs s t :=
  ⟨fun r hr => h.same r fun hmem => hr (hsub hmem), h.port, h.par⟩

/-- The store, the writes in flight, the result port and the index of free values are no registers. -/
theorem outside (h : t = { s with store := t.store, inFlight := t.inFlight, res := t.res, free := t.free }) :
    WritesOnly rs s t := by
  rw [h]
  refine ⟨fun r _ => ?_, rfl, rfl⟩
  cases r with
  | gate e | phase e | out e => cases e <;> rfl
  | _ => rfl

theorem of_readsFrom (h : ReadsFrom s t) : WritesOnly rs s t := .outside (by rw [show t = _ from h])

theorem returnOne (s : State) (v : F) : WritesOnly rs s (s.returnOne v) := .outside rfl

theorem returnPattern (s : State) (v : P) : WritesOnly rs s (s.returnPattern v) := .outside rfl

theorem returnStereo (s : State) (v : F) : WritesOnly rs s (s.returnStereo v) := .outside rfl

theorem setSr (h : .sr ∈ rs) (s : State) (v : F) : WritesOnly rs s (s.setSr v) :=
  ⟨fun r hr => by cases r <;> simp_all [Same], rfl, rfl⟩

theorem setPw (h : .pw ∈ rs) (s : State) (v : F) : WritesOnly rs s (s.setPw v) :=
  ⟨fun r hr => by cases r <;> simp_all [Same], rfl, rfl⟩

theorem setFc (h : .fc ∈ rs) (s : State) (v : F) : WritesOnly rs s (s.setFc v) :=
  ⟨fun r hr => by cases r <;> simp_all [Same], rfl, rfl⟩

theorem setFilt (h : .filter ∈ rs) (s : State) (f : FilterRegs) : WritesOnly rs s (s.setFilt f) :=
  ⟨fun r hr => by cases r <;> simp_all [Same], rfl, rfl⟩

theorem setNote (h : .note ∈ rs) (s : State) (n : Byte) : WritesOnly rs s (s.setNote n) :=
  ⟨fun r hr => by cases r <;> simp_all [Same], rfl, rfl⟩

theorem tickCount (h : .n ∈ rs) (s : State) : WritesOnly rs s s.tickCount :=
  ⟨fun r hr => by cases r <;> simp_all [Same], rfl, rfl⟩

/-- An envelope write, by the parts of the envelope that are in `rs`; the other envelope shares no state with it (R26). -/
theorem setEnv {e : Env} {v : EnvRegs} (hgate : .gate e ∉ rs → v.gate = (s.env e).gate)
    (hphase : .phase e ∉ rs → v.phase = (s.env e).phase) (hout : .out e ∉ rs → v.out = (s.env e).out) :
    WritesOnly rs s (s.setEnv e v) := by
  refine ⟨fun r hr => ?_, State.setEnv_port .., State.setEnv_par ..⟩
  cases r with
  | gate d | phase d | out d =>
    by_cases hd : d = e
    · subst hd
      simp_all [Same]
    · simp [Same, State.env_setEnv_other s v hd]
  | _ => simp [Same]

theorem setGate {e : Env} (h : .gate e ∈ rs) (s : State) (b : Bool) : WritesOnly rs s (setGate e b s) :=
  .setEnv (fun hn => absurd h hn) (fun _ => rfl) (fun _ => rfl)

theorem retrigger {e : Env} (hgate : .gate e ∈ rs) (hphase : .phase e ∈ rs) (hout : .out e ∈ rs) (s : State) :
    WritesOnly rs s (retrigger e s) :=
  .setEnv (fun hn => absurd hgate hn) (fun hn => absurd hphase hn) (fun hn => absurd hout hn)

theorem setGates (hamp : .gate .amp ∈ rs) (hmod : .gate .mod ∈ rs) (b : Bool) (s : State) : WritesOnly rs s (setGates b s) :=
  (setGate hamp s b).trans (setGate hmod _ b)

end WritesOnly

/-! ## The families, by their rows of R39 -/

theorem envTick_writesOnly (e : Env) (s : State) : WritesOnly (writesOf (.envTick e)) s (envTick e s).2 := by
  obtain ⟨t, hr, ht⟩ := envTick_spec e s
  rw [ht]
  refine (WritesOnly.of_readsFrom hr).trans (.setEnv (fun _ => by rw [hr.env]) (fun hn => ?_) (fun hn => ?_))
  · exact absurd (.head _) hn
  · exact absurd (.tail _ (.head _)) hn

theorem vcoModPw_writesOnly {rs : List Reg} (h : .pw ∈ rs) (cv : F) (s : State) : WritesOnly rs s (vcoModPw cv s) := by
  obtain ⟨t, v, hr, ht⟩ := vcoModPw_spec cv s
  rw [ht]
  exact (WritesOnly.of_readsFrom hr).trans (.setPw h t v)

theorem vcfModFc_writesOnly {rs : List Reg} (h : .fc ∈ rs) (cv noteCV : F) (s : State) :
    WritesOnly rs s (vcfModFc cv noteCV s) := by
  obtain ⟨t, v, hr, ht⟩ := vcfModFc_spec cv noteCV s
  rw [ht]
  exact (WritesOnly.of_readsFrom hr).trans (.setFc h t v)

theorem vcoTick_writesOnly {rs : List Reg} (h : .n ∈ rs) (f : F) (s : State) : WritesOnly rs s (vcoTick f s).2 := by
  obtain ⟨t, hr, ht⟩ := vcoTick_spec f s
  rw [ht]
  exact (WritesOnly.of_readsFrom hr).trans (.tickCount h t)

theorem vcfFilter_writesOnly {rs : List Reg} (h : .filter ∈ rs) (x : F) (s : State) : WritesOnly rs s (vcfFilter x s).2 := by
  obtain ⟨t, k, hr, ht⟩ := vcfFilter_spec x s
  rw [ht]
  exact (WritesOnly.of_readsFrom hr).trans (.setFilt h t _)

/-- A sample of RENDER writes what the commands it is made of write (R172). -/
theorem sampleOf_writesOnly (l r : P) (s : State) : WritesOnly (writesOf (.render l r)) s (sampleOf s).state :=
  have henv (e : Env) (t : State) : WritesOnly (writesOf (.render l r)) t (envTick e t).2 :=
    (envTick_writesOnly e t).mono (by cases e <;> simp [writesOf])
  (henv .amp s).trans <| (henv .mod _).trans <| (vcoModPw_writesOnly (by simp [writesOf]) _ _).trans <|
    (vcfModFc_writesOnly (by simp [writesOf]) _ _ _).trans <| (vcoTick_writesOnly (by simp [writesOf]) _ _).trans <|
    vcfFilter_writesOnly (by simp [writesOf]) _ _

/-! ## The commands -/

theorem mem_writesOf_reset (r : Reg) : r ∈ writesOf .reset := by
  cases r with
  | gate e | phase e | out e => cases e <;> decide
  | _ => decide

theorem writeParam_writesOnly {rs : List Reg} (i : Byte) (v : P) (s : State) : WritesOnly rs s (s.writeParam i v) := by
  unfold State.writeParam
  split
  · exact .outside rfl
  · exact .refl s

theorem readIndex_writesOnly {rs : List Reg} (i : Byte) (s : State) : WritesOnly rs s (s.readIndex i).2 := by
  unfold State.readIndex
  split
  · exact .of_readsFrom (s.readParam_readsFrom _)
  · exact .refl s

/-- NOTE_ON: a retrigger of both envelopes where the note changes, the held note, the gates (R174). -/
theorem noteOn_writesOnly {n b2 : Byte} {s t : State} (h : exec (.noteOn n b2) s = .next t) :
    WritesOnly (writesOf (.noteOn n b2)) s t := by
  cases h
  refine WritesOnly.trans ?_ ((WritesOnly.setNote (by simp [writesOf]) _ n).trans
    (.setGates (by simp [writesOf]) (by simp [writesOf]) true _))
  split
  · exact (WritesOnly.retrigger (by simp [writesOf]) (by simp [writesOf]) (by simp [writesOf]) s).trans
      (.retrigger (by simp [writesOf]) (by simp [writesOf]) (by simp [writesOf]) _)
  · exact .refl s

/-- NOTE_OFF: the gates, if it names the held note (R175). -/
theorem noteOff_writesOnly {n b2 : Byte} {s t : State} (h : exec (.noteOff n b2) s = .next t) :
    WritesOnly (writesOf (.noteOff n b2)) s t := by
  cases h
  split
  · exact .setGates (by simp [writesOf]) (by simp [writesOf]) false s
  · exact .refl s

/-- A command that completes writes the registers of its row alone. -/
theorem exec_writesOnly {i : Instr} {s t : State} (h : exec i s = .next t) : WritesOnly (writesOf (effective i)) s t := by
  cases i with
  | nop => cases h; exact .refl s
  | reset => cases h; exact ⟨fun r hr => absurd (mem_writesOf_reset r) hr, rfl, rfl⟩
  | setsr v => cases h; exact .setSr (.head _) s _
  | pwr i v => cases h; exact writeParam_writesOnly i v s
  | prd i => cases h; exact (readIndex_writesOnly i s).trans (.returnPattern ..)
  | evt b0 b1 b2 =>
    rw [exec_evt] at h
    rw [effective]
    obtain hd | hd | hd := decodeMidiBytes_cases b0 b1 b2 <;> rw [hd] at h ⊢
    · exact noteOn_writesOnly h
    · exact noteOff_writesOnly h
    · cases h; exact .refl s
  | render inL inR =>
    obtain ⟨rfl, -⟩ := State.completeTick_eq_next h
    exact (sampleOf_writesOnly inL inR s).trans (.returnStereo ..)
  | envTick e => cases h; exact (envTick_writesOnly e s).trans (.returnOne ..)
  | envGateOn e => cases h; exact .setGate (.head _) s true
  | envGateOff e => cases h; exact .setGate (.head _) s false
  | envRetrig e => cases h; exact .retrigger (.head _) (.tail _ (.head _)) (.tail _ (.tail _ (.head _))) s
  | vcoTick f =>
    obtain ⟨rfl, -⟩ := State.completeTick_eq_next h
    exact (vcoTick_writesOnly (.head _) _ s).trans (.returnOne ..)
  | vcoModPw cv => cases h; exact vcoModPw_writesOnly (.head _) _ s
  | vcfModFc cv noteCV => cases h; exact vcfModFc_writesOnly (.head _) _ _ s
  | vcfFilter x => cases h; exact (vcfFilter_writesOnly (.head _) _ s).trans (.returnOne ..)
  | p2f n => cases h; exact .returnOne ..
  | noteOn n b2 => exact noteOn_writesOnly h
  | noteOff n b2 => exact noteOff_writesOnly h
  | midiIgn b0 b1 b2 => cases h; exact .refl s

/-- Settles O54: a command is made of register updates, each in its row of R39. -/
theorem commandsWriteOnlyTheirRegisters : Obligations.CommandsWriteOnlyTheirRegisters := by
  intro i s hruns
  obtain ⟨t, ht⟩ := exec_completes_of_runs hruns
  obtain ⟨hsame, hport, hpar⟩ := exec_writesOnly ht
  exact ⟨t, ht, hsame, hport, hpar⟩

/-! ## The counter (R24) -/

theorem vcoTick_n (f : F) (s : State) : (vcoTick f s).2.n = s.n + 1 := by
  obtain ⟨t, hr, ht⟩ := vcoTick_spec f s
  obtain ⟨-, -, hn, -⟩ := hr.fields
  rw [ht, ← hn]
  rfl

theorem vcfFilter_n (x : F) (s : State) : (vcfFilter x s).2.n = s.n :=
  (vcfFilter_writesOnly (rs := [.filter]) (.head _) x s).same .n (by decide)

theorem sampleOf_n (s : State) : (sampleOf s).state.n = s.n + 1 := by
  simp only [sampleOf, vcfFilter_n, vcoTick_n, vcfModFc_frame, vcoModPw_frame, envTick_frame]

/-- VCO.TICK and RENDER count by one (R139, R172). -/
theorem exec_n_of_ticks {i : Instr} {s t : State} (hi : ticks i = true) (h : exec i s = .next t) : t.n = s.n + 1 := by
  obtain ⟨f, rfl⟩ | ⟨l, r, rfl⟩ := ticks_iff.mp hi
  · obtain ⟨rfl, -⟩ := State.completeTick_eq_next h
    exact (State.returnOne_n ..).trans (vcoTick_n _ s)
  · obtain ⟨rfl, -⟩ := State.completeTick_eq_next h
    exact (State.returnStereo_n ..).trans (sampleOf_n s)

/-- The column of the counter in R39. -/
theorem reset_or_ticks_of_n_mem_writesOf {i : Instr} (h : .n ∈ writesOf (effective i)) : i = .reset ∨ ticks i = true := by
  cases i with
  | reset => exact .inl rfl
  | vcoTick f => exact .inr rfl
  | render l r => exact .inr rfl
  | evt b0 b1 b2 =>
    rw [effective] at h
    obtain hd | hd | hd := decodeMidiBytes_cases b0 b1 b2 <;> simp [hd, writesOf] at h
  | _ => simp [writesOf, effective] at h

/-- Settles O33: the counter is in the rows of RESET, VCO.TICK and RENDER alone. -/
theorem counterCountsOscillatorTicks : Obligations.CounterCountsOscillatorTicks := by
  intro i s
  refine ⟨exec_refused_of_ticks, fun hruns => ?_⟩
  obtain ⟨t, ht⟩ := exec_completes_of_runs hruns
  refine ⟨t, ht, ?_, fun hi => exec_n_of_ticks (ticks_iff.mpr hi) ht, fun hreset hvco hrender => ?_⟩
  · rintro rfl
    cases ht
    rfl
  · refine (exec_writesOnly ht).same .n fun hmem => ?_
    obtain hi | hi := reset_or_ticks_of_n_mem_writesOf hmem
    · exact hreset hi
    · obtain ⟨f, hf⟩ | ⟨l, r, hr⟩ := ticks_iff.mp hi
      · exact hvco f hf
      · exact hrender l r hr

/-! ## Power-on and RESET (R45) -/

/-- Settles O9: both leave the tuple of R191's example, register by register. -/
theorem resetGivesTheResetTuple : Obligations.ResetGivesTheResetTuple := by
  intro s p
  exact ⟨⟨coreReset s, rfl, rfl, rfl, rfl, rfl, rfl, rfl⟩, rfl, rfl⟩

/-- The counter is 0, a register without a value holds a datum of `FMT`, the envelopes are at rest, the filter is cleared (R45). -/
theorem inv_powerOn (p : Params) : Safety.Inv (State.powerOn p) := by
  refine inv_iff.mpr ⟨Nat.two_pow_pos _, by simp [State.powerOn, OpenReg.unwritten], fun e => ?_, filterInv_cleared _⟩
  cases e <;> exact Num.zero_representable _

/-- Settles O53: every register's part of the invariant holds of its value at power-on. -/
theorem powerOnMeetsTheInvariant : Obligations.PowerOnMeetsTheInvariant :=
  ⟨inv_powerOn, inv_powerOn _⟩

end Sys2Proof.Machine
end

section
/-! A parameter that a command does not read has no influence on it: `exec` commutes with a change of the stored value. -/

namespace Sys2Proof.Machine

open Claims (readsOf)

section
variable {j : Fin 20} (s : State) (v : P)

/-! ## Register updates -/

theorem State.setPw_setStore (x : F) : (s.setStore j v).setPw x = (s.setPw x).setStore j v := rfl

theorem State.setFc_setStore (x : F) : (s.setStore j v).setFc x = (s.setFc x).setStore j v := rfl

theorem State.setFilt_setStore (r : FilterRegs) : (s.setStore j v).setFilt r = (s.setFilt r).setStore j v := rfl

theorem State.setNote_setStore (n : Byte) : (s.setStore j v).setNote n = (s.setNote n).setStore j v := rfl

theorem State.tickCount_setStore : (s.setStore j v).tickCount = s.tickCount.setStore j v := rfl

theorem State.useFree_setStore (k : Nat) : (s.setStore j v).useFree k = (s.useFree k).setStore j v := rfl

theorem State.returnOne_setStore (x : F) : (s.setStore j v).returnOne x = (s.returnOne x).setStore j v := rfl

theorem State.returnPattern_setStore (x : P) : (s.setStore j v).returnPattern x = (s.returnPattern x).setStore j v := rfl

theorem State.returnStereo_setStore (x : F) : (s.setStore j v).returnStereo x = (s.returnStereo x).setStore j v := rfl

theorem State.setEnv_setStore (e : Env) (r : EnvRegs) : (s.setStore j v).setEnv e r = (s.setEnv e r).setStore j v := by
  cases e <;> rfl

theorem setGate_setStore (e : Env) (b : Bool) : setGate e b (s.setStore j v) = (setGate e b s).setStore j v := by
  rw [setGate, State.env_setStore, State.setEnv_setStore, setGate]

theorem retrigger_setStore (e : Env) : retrigger e (s.setStore j v) = (retrigger e s).setStore j v :=
  s.setEnv_setStore v e .rest

theorem setGates_setStore (b : Bool) : setGates b (s.setStore j v) = (setGates b s).setStore j v := by
  simp only [setGates, setGate_setStore]

theorem retriggerBoth_setStore : retriggerBoth (s.setStore j v) = (retriggerBoth s).setStore j v := by
  simp only [retriggerBoth, retrigger_setStore]

/-! ## Reads and writes of another parameter (R58) -/

theorem State.readParam_setStore {i : Fin 20} (h : i ≠ j) :
    (s.setStore j v).readParam i = ((s.readParam i).1, (s.readParam i).2.setStore j v) := by
  have hval : j.val ≠ i.val := fun hv => h (Fin.ext hv.symm)
  have hget : (s.store.set j v)[i] = s.store[i] := Vector.getElem_set_ne _ _ hval
  unfold State.readParam
  rw [State.setStore_inFlight]
  split
  · rw [State.setStore_store, hget]
  · simp only [State.setStore, hget]
    rw [Vector.set_comm _ _ hval]

theorem State.readF_setStore {i : Fin 20} (h : i ≠ j) :
    (s.setStore j v).readF i = ((s.readF i).1, (s.readF i).2.setStore j v) := by
  simp only [State.readF, s.readParam_setStore v h]

theorem State.readIndex_setStore {i : Byte} (h : j ∉ readsOf (.prd i)) :
    (s.setStore j v).readIndex i = ((s.readIndex i).1, (s.readIndex i).2.setStore j v) := by
  rw [readsOf_prd] at h
  unfold State.readIndex
  split
  next hi =>
    rw [dif_pos hi] at h
    exact s.readParam_setStore v fun heq => h (List.mem_singleton.mpr heq.symm)
  next => rfl

theorem State.writeParam_setStore {i : Byte} (x : P) (h : i.toNat ≠ j.val) :
    (s.setStore j v).writeParam i x = (s.writeParam i x).setStore j v := by
  unfold State.writeParam
  split
  · simp only [State.setStore]
    rw [Vector.set_comm _ _ h.symm]
  · rfl

/-! ## The families -/

theorem State.readTarget_setStore {e : Env} (h : j ∉ readsOf (.envTick e)) (ph : Phase) :
    (s.setStore j v).readTarget e ph = ((s.readTarget e ph).1, (s.readTarget e ph).2.setStore j v) := by
  cases ph with
  | decaySustain => exact s.readF_setStore v (ne_of_mem_of_not_mem (sustainIdx_mem_readsOf e) h)
  | attack => rfl
  | release => rfl

theorem envTick_setStore {e : Env} (h : j ∉ readsOf (.envTick e)) :
    envTick e (s.setStore j v) = ((envTick e s).1, (envTick e s).2.setStore j v) := by
  have htime (ph : Phase) : timeIdx e ph ≠ j := ne_of_mem_of_not_mem (timeIdx_mem_readsOf e ph) h
  simp only [envTick, State.env_setStore, State.setStore_par, State.setStore_sr, State.readF_setStore _ v (htime _),
    State.readTarget_setStore _ v h, State.setEnv_setStore]

theorem vcoModPw_setStore {cv : P} (h : j ∉ readsOf (.vcoModPw cv)) (x : F) :
    vcoModPw x (s.setStore j v) = (vcoModPw x s).setStore j v := by
  have hne (i : Fin 20) (hi : i ∈ [pPulseWidth, pPwModDepth]) : i ≠ j := ne_of_mem_of_not_mem hi h
  simp only [vcoModPw, State.setStore_par, State.readF_setStore _ v (hne pPulseWidth (by decide)),
    State.readF_setStore _ v (hne pPwModDepth (by decide)), State.setPw_setStore]

theorem vcfModFc_setStore {cv noteCV : P} (h : j ∉ readsOf (.vcfModFc cv noteCV)) (x y : F) :
    vcfModFc x y (s.setStore j v) = (vcfModFc x y s).setStore j v := by
  have hne (i : Fin 20) (hi : i ∈ [pCutoff, pCutoffModDepth, pKbdFollowDepth]) : i ≠ j := ne_of_mem_of_not_mem hi h
  simp only [vcfModFc, State.setStore_par, State.setStore_sr, State.readF_setStore _ v (hne pCutoff (by decide)),
    State.readF_setStore _ v (hne pCutoffModDepth (by decide)), State.readF_setStore _ v (hne pKbdFollowDepth (by decide)),
    State.setFc_setStore]

theorem readLevels_setStore {f : P} (h : j ∉ readsOf (.vcoTick f)) :
    readLevels (s.setStore j v) = ((readLevels s).1, (readLevels s).2.setStore j v) := by
  have hne (i : Fin 20) (hi : i ∈ [pSawRate, pTriRate, pSquareRate, pSubRate, pNoiseRate]) : i ≠ j :=
    ne_of_mem_of_not_mem hi h
  simp only [readLevels, State.readF_setStore _ v (hne pSawRate (by decide)), State.readF_setStore _ v (hne pTriRate (by decide)),
    State.readF_setStore _ v (hne pSquareRate (by decide)), State.readF_setStore _ v (hne pSubRate (by decide)),
    State.readF_setStore _ v (hne pNoiseRate (by decide))]

theorem vcoTick_setStore {f : P} (h : j ∉ readsOf (.vcoTick f)) (x : F) :
    vcoTick x (s.setStore j v) = ((vcoTick x s).1, (vcoTick x s).2.setStore j v) := by
  simp only [vcoTick, State.tick, State.setStore_par, State.setStore_n, State.setStore_sr, State.setStore_pw,
    State.setStore_free, State.useFree_setStore, readLevels_setStore _ v h, State.tickCount_setStore]

theorem vcfFilter_setStore {x : P} (h : j ∉ readsOf (.vcfFilter x)) (y : F) :
    vcfFilter y (s.setStore j v) = ((vcfFilter y s).1, (vcfFilter y s).2.setStore j v) := by
  have hne : pResonance ≠ j := ne_of_mem_of_not_mem (List.mem_singleton.mpr rfl) h
  simp only [vcfFilter, State.setStore_par, State.setStore_sr, State.setStore_fc, State.setStore_filt,
    State.readF_setStore _ v hne, State.setFilt_setStore]

theorem sampleOf_setStore {l r : P} (h : j ∉ readsOf (.render l r)) :
    sampleOf (s.setStore j v) = { sampleOf s with state := (sampleOf s).state.setStore j v } := by
  obtain ⟨henv, hpw, hfc, htick, hfilter⟩ := readsOf_subset_render l r l r
  simp only [sampleOf, State.setStore_par, State.setStore_note, envTick_setStore _ v (mt (@henv _ j) h),
    vcoModPw_setStore _ v (mt (@hpw j) h), vcfModFc_setStore _ v (mt (@hfc j) h), vcoTick_setStore _ v (mt (@htick j) h),
    vcfFilter_setStore _ v (mt (@hfilter j) h)]

theorem renderSample_setStore {l r : P} (h : j ∉ readsOf (.render l r)) : renderSample (s.setStore j v) = renderSample s := by
  simp only [renderSample, sampleOf_setStore s v h, State.setStore_par]

/-! ## The commands -/

/-- A tick that completes does so from the other store too, if the two next states differ in that way. -/
theorem State.completeTick_setStore {t t' u : State} (h : s.completeTick t = .next u) (ht : t' = t.setStore j v) :
    (s.setStore j v).completeTick t' = .next (u.setStore j v) := by
  obtain ⟨rfl, hcount⟩ := State.completeTick_eq_next h
  rw [ht]
  exact State.completeTick_next _ hcount

/-- NOTE_ON compares and writes registers only (R174). -/
theorem exec_noteOn_setStore {n b2 : Byte} {t : State} (h : exec (.noteOn n b2) s = .next t) :
    exec (.noteOn n b2) (s.setStore j v) = .next (t.setStore j v) := by
  cases h
  simp only [exec, execNoteOn, State.setStore_note, retriggerBoth_setStore]
  split <;> rw [State.setNote_setStore, setGates_setStore]

/-- NOTE_OFF likewise (R175). -/
theorem exec_noteOff_setStore {n b2 : Byte} {t : State} (h : exec (.noteOff n b2) s = .next t) :
    exec (.noteOff n b2) (s.setStore j v) = .next (t.setStore j v) := by
  cases h
  simp only [exec, execNoteOff, State.setStore_note, setGates_setStore]
  split <;> rfl

end

/-- A command that does not name a parameter does the same, whatever is stored there. -/
theorem exec_setStore {i : Instr} {j : Fin 20} {s t : State} (v : P) (h : exec i s = .next t) (hj : j ∉ readsOf i)
    (hpwr : ∀ k x, i = .pwr k x → k.toNat ≠ j.val) : exec i (s.setStore j v) = .next (t.setStore j v) := by
  cases i with
  | nop => cases h; rfl
  | reset => cases h; rfl
  | setsr x => cases h; rfl
  | pwr k x => cases h; exact congrArg Host.Outcome.next (s.writeParam_setStore v x (hpwr k x rfl))
  | prd k =>
    cases h
    rw [exec, execPrd, State.readIndex_setStore s v hj, State.returnPattern_setStore]
  | evt b0 b1 b2 =>
    rw [exec_evt] at h ⊢
    obtain hd | hd | hd := decodeMidiBytes_cases b0 b1 b2 <;> rw [hd] at h ⊢
    · exact exec_noteOn_setStore s v h
    · exact exec_noteOff_setStore s v h
    · cases h; rfl
  | render inL inR =>
    refine State.completeTick_setStore s v h ?_
    rw [sampleOf_setStore s v hj, renderSample_setStore s v hj, State.returnStereo_setStore]
  | envTick e =>
    cases h
    rw [exec, execEnvTick, envTick_setStore s v hj, State.returnOne_setStore]
  | envGateOn e => cases h; exact congrArg Host.Outcome.next (setGate_setStore s v e true)
  | envGateOff e => cases h; exact congrArg Host.Outcome.next (setGate_setStore s v e false)
  | envRetrig e => cases h; exact congrArg Host.Outcome.next (retrigger_setStore s v e)
  | vcoTick f =>
    refine State.completeTick_setStore s v h ?_
    rw [vcoTick_setStore s v hj, State.returnOne_setStore]
  | vcoModPw cv => cases h; exact congrArg Host.Outcome.next (vcoModPw_setStore s v hj _)
  | vcfModFc cv noteCV => cases h; exact congrArg Host.Outcome.next (vcfModFc_setStore s v hj _ _)
  | vcfFilter x =>
    cases h
    rw [exec, execVcfFilter, vcfFilter_setStore s v hj, State.returnOne_setStore]
  | p2f n => cases h; rfl
  | noteOn n b2 => exact exec_noteOn_setStore s v h
  | noteOff n b2 => exact exec_noteOff_setStore s v h
  | midiIgn b0 b1 b2 => cases h; rfl

/-- Settles O19: each read of a command is of a parameter of its row, and everything else it does is not of the store. -/
theorem unreadParametersHaveNoEffect : Obligations.UnreadParametersHaveNoEffect := by
  intro i j v s hruns hj hpwr
  obtain ⟨t, ht⟩ := exec_completes_of_runs hruns
  exact ⟨t, ht, exec_setStore v ht hj hpwr⟩

end Sys2Proof.Machine
end

section
/-! What a read of a parameter may return, and what the commands and the events of `HU` leave of it (R54 to R58, R51). -/

namespace Sys2Proof.Machine

open Claims (OnlyReads Later)

/-- What a read of parameter `i` may return, the oldest first: the stored value, then those of the pending writes (R56). -/
def State.visible (s : State) (i : Fin 20) : List P := s.store[i] :: pending i s.inFlight

theorem visible_of_eq {s t : State} (hstore : t.store = s.store) (hflight : t.inFlight = s.inFlight) (i : Fin 20) :
    t.visible i = s.visible i := by
  rw [State.visible, hstore, hflight, State.visible]

/-! ## Read events -/

/-- A read returns one of the visible values, and the older ones are visible no more (R56, R57). -/
theorem readParam_visible (s : State) (i : Fin 20) :
    ∃ c, c < (s.visible i).length ∧ (s.readParam i).1 = (s.visible i).getD c 0 ∧
      (s.readParam i).2.visible i = (s.visible i).drop c := by
  obtain ⟨c, hc, hval, hstore, hflight⟩ := s.readParam_spec i
  refine ⟨c, Nat.lt_succ_of_le hc, hval, ?_⟩
  rw [State.visible, State.visible, hstore, hflight, pending_land_self, ← getD_cons_drop _ _ hc]
  simp

theorem readParam_mem_visible (s : State) (i : Fin 20) : (s.readParam i).1 ∈ s.visible i := by
  obtain ⟨c, hc, hval, -⟩ := readParam_visible s i
  rw [hval, List.getD_eq_getElem _ _ hc]
  exact List.getElem_mem hc

/-- Of each parameter, reads leave the newest visible values (R57). -/
theorem Claims.OnlyReads.visible_suffix {is : List (Fin 20)} {s t : State} (h : OnlyReads is s t) (k : Fin 20) :
    t.visible k <:+ s.visible k := by
  obtain ⟨c, hc, -, hstore, hpending⟩ := h.2 k
  rw [State.visible, hstore, hpending, getD_cons_drop _ _ hc]
  exact List.drop_suffix c _

/-- Reads of other parameters leave all of them (R58). -/
theorem Claims.OnlyReads.visible_of_notMem {is : List (Fin 20)} {s t : State} (h : OnlyReads is s t) {k : Fin 20}
    (hk : k ∉ is) : t.visible k = s.visible k := by
  obtain ⟨c, -, hc0, hstore, hpending⟩ := h.2 k
  rw [hc0 hk] at hstore hpending
  rw [State.visible, hstore, hpending]
  rfl

theorem visible_readParam_other (s : State) {i k : Fin 20} (h : k ≠ i) : (s.readParam i).2.visible k = s.visible k :=
  (readParam_onlyReads (List.mem_singleton.mpr rfl) s).visible_of_notMem fun hk => h (List.mem_singleton.mp hk)

/-- Two reads of one parameter, the second in any state that shows what the first has left: the second does not go back (R57). -/
theorem readParam_readParam_visible {s t : State} {i : Fin 20} (h : t.visible i = (s.readParam i).2.visible i) :
    ∃ c d, c ≤ d ∧ d < (s.visible i).length ∧ (s.readParam i).1 = (s.visible i).getD c 0 ∧
      (t.readParam i).1 = (s.visible i).getD d 0 := by
  obtain ⟨c, -, hfirst, hleft⟩ := readParam_visible s i
  obtain ⟨d, hd, hsecond, -⟩ := readParam_visible t i
  rw [h, hleft] at hd hsecond
  rw [List.length_drop] at hd
  refine ⟨c, c + d, by omega, by omega, hfirst, ?_⟩
  rw [hsecond, List.getD_eq_getElem?_getD, List.getElem?_drop, ← List.getD_eq_getElem?_getD]

/-! ## Writes and the events of `HU` -/

/-- A whole write to another parameter leaves the visible values of this one (R58). -/
theorem visible_writeParam_other (s : State) {j : Byte} (v : P) {k : Fin 20} (h : j.toNat ≠ k.val) :
    (s.writeParam j v).visible k = s.visible k := by
  unfold State.writeParam
  split
  next hj =>
    have hne : k ≠ ⟨j.toNat, hj⟩ := fun heq => h (congrArg Fin.val heq).symm
    simp [State.visible, pending_land_other hne, h]
  next => rfl

/-- The beginning of a write to another parameter likewise. -/
theorem visible_beginWrite_other (s : State) {j : Byte} (v : P) {k : Fin 20} (h : j.toNat ≠ k.val) :
    (s.beginWrite j v).visible k = s.visible k := by
  unfold State.beginWrite
  split
  next hj =>
    have hne : ¬ (⟨j.toNat, hj⟩ : Fin 20) = k := fun heq => h (congrArg Fin.val heq)
    simp [State.visible, pending, hne]
  next => rfl

/-- The values of the writes to `k` after the oldest write in flight has gone. -/
theorem pending_cons (k : Fin 20) (w : Write) (ws : List Write) :
    pending k (w :: ws) = if w.idx = k ∧ w.landed = false then w.val :: pending k ws else pending k ws := by
  simp only [pending, List.filter_cons, Bool.and_eq_true, decide_eq_true_eq, Bool.not_eq_true']
  split <;> rfl

/-- When the oldest write in flight completes, at most the value it replaces is visible no more (R57). -/
theorem visible_endWrite_suffix (s : State) (k : Fin 20) : s.endWrite.visible k <:+ s.visible k := by
  unfold State.endWrite
  split
  next => exact List.suffix_rfl
  next w ws hf =>
    simp only [State.visible, hf, pending_cons]
    by_cases hl : w.landed = true
    · simp [hl]
    · by_cases hk : w.idx = k
      · subst hk
        simp [hl, List.suffix_cons]
      · have hne : w.idx.val ≠ k.val := fun h => hk (Fin.ext h)
        simp [hl, hk, hne]

/-! ## Later states -/

/-- A command that is no PWR to `k` leaves the newest visible values of `k` (R57). -/
theorem exec_visible_suffix {i : Instr} {s t : State} {k : Fin 20} (h : exec i s = .next t)
    (hpwr : ∀ j v, i = .pwr j v → j.toNat ≠ k.val) : t.visible k <:+ s.visible k := by
  by_cases hi : ∃ j v, i = .pwr j v
  · obtain ⟨j, v, rfl⟩ := hi
    cases h
    rw [visible_writeParam_other s v (hpwr j v rfl)]
  · exact (exec_onlyReads h fun j v hj => hi ⟨j, v, hj⟩).visible_suffix k

/-- Up to the next PWR to `k`, no value of `k` becomes visible again (R57). -/
theorem later_visible_suffix {k : Fin 20} {s t : State} (h : Later k s t) : t.visible k <:+ s.visible k := by
  induction h with
  | here => exact List.suffix_rfl
  | command i _ hpwr hexec ih => exact (exec_visible_suffix hexec hpwr).trans ih
  | read j _ ih => exact ((readParam_onlyReads (List.mem_singleton.mpr rfl) _).visible_suffix k).trans ih
  | begins j v _ hj ih => rwa [visible_beginWrite_other _ v hj]
  | ends _ ih => exact (visible_endWrite_suffix _ k).trans ih
  | inside _ hstore hflight ih => rwa [visible_of_eq hstore hflight]

/-! ## PRD and the overlapped read of `HU` -/

/-- PRD of an index that exists is one read event (R194). -/
theorem exec_prd {i : Byte} (h : i.toNat < 20) (s : State) :
    exec (.prd i) s = .next ((s.readParam ⟨i.toNat, h⟩).2.returnPattern (s.readParam ⟨i.toNat, h⟩).1) := by
  rw [exec, execPrd, State.readIndex, dif_pos h]

/-- `HU` sees the newest of the visible values (R57). -/
theorem latest_eq_getLastD_visible {s : State} {i : Byte} (h : i.toNat < 20) :
    s.latest i = (s.visible ⟨i.toNat, h⟩).getLastD 0 := by
  rw [State.latest, dif_pos h, State.visible, List.getLastD_cons, List.getLastD_eq_getLast?]
  rfl

/-- Settles O14: PRD is the read event of `readParam_spec`, and `HU` reads the newest visible value. -/
theorem racingReadReturnsOldOrNew : Obligations.RacingReadReturnsOldOrNew := by
  intro i s h j
  obtain ⟨c, hc, hval, hstore, hflight⟩ := s.readParam_spec j
  refine ⟨_, c, exec_prd h s, hc, congrArg Result.single hval, hstore, ?_, fun k hk => ?_, ?_, fun rest hport => ?_⟩
  · rw [State.returnPattern_inFlight, hflight, pending_land_self]
  · rw [State.returnPattern_inFlight, hflight, pending_land_other hk]
  · exact congrArg (State.returnPattern · _) (s.readParam_readsFrom j)
  · rw [step_of_readOverlaps hport, latest_eq_getLastD_visible h]
    rfl

/-- Settles O15: the second PRD reads what the first has left visible. -/
theorem readsNeverGoBack : Obligations.ReadsNeverGoBack := by
  intro i s h vs
  obtain ⟨c, d, hcd, hd, hfirst, hsecond⟩ := readParam_readParam_visible (s := s) (i := ⟨i.toNat, h⟩)
    (t := (s.readParam ⟨i.toNat, h⟩).2.returnPattern (s.readParam ⟨i.toNat, h⟩).1) rfl
  exact ⟨_, _, c, d, exec_prd h s, exec_prd h _, hcd, hd, congrArg Result.single hfirst, congrArg Result.single hsecond⟩

/-- After the oldest write in flight has completed, its value is the oldest visible one, or the one that had replaced it (R57). -/
theorem visible_endWrite_self {s : State} {w : Write} {ws : List Write} (h : s.inFlight = w :: ws) :
    s.endWrite.visible w.idx = (if w.landed then s.store[w.idx] else w.val) :: pending w.idx ws := by
  rw [State.endWrite_cons h, State.visible]
  dsimp only
  split <;> simp

/-- Settles O17: the ended value is the oldest visible one, and no later state shows an older one. -/
theorem endedWriteIsSeen : Obligations.EndedWriteIsSeen := by
  intro s w ws rest hf hport v
  have hvisible : (s.taken rest).endWrite.visible w.idx = v :: pending w.idx ws := visible_endWrite_self (s := s.taken rest) hf
  have hread (u : State) (hu : Later w.idx (s.taken rest).endWrite u) : (u.readParam w.idx).1 ∈ v :: pending w.idx ws := by
    rw [← hvisible]
    exact (later_visible_suffix hu).subset (readParam_mem_visible u w.idx)
  have hidx : (BitVec.ofNat 8 w.idx).toNat = w.idx.val := by
    rw [BitVec.toNat_ofNat]
    omega
  refine ⟨_, step_of_writeEnds hport, ?_, ?_, hread, _, exec_prd (by omega) _, fun hnil => ?_⟩
  · rw [State.endWrite_cons (s := s.taken rest) hf]
  · rw [State.endWrite_cons (s := s.taken rest) hf]
    rfl
  · have hv := hread _ .here
    rw [hnil, List.mem_singleton] at hv
    rw [State.returnPattern_res]
    simp only [hidx, Fin.eta, hv]

/-! ## Indices that do not exist (R51) -/

section
variable {i : Byte} (h : ¬ i.toNat < 20) (s : State)
include h

theorem State.writeParam_of_unknown (v : P) : s.writeParam i v = s := dif_neg h

theorem State.beginWrite_of_unknown (v : P) : s.beginWrite i v = s := dif_neg h

theorem State.readIndex_of_unknown : s.readIndex i = (0, s) := dif_neg h

theorem State.latest_of_unknown : s.latest i = 0 := dif_neg h

end

/-- With nothing pending a whole write changes the store alone (R193). -/
theorem State.writeParam_of_quiet {s : State} (hquiet : s.quiet = true) {i : Byte} (h : i.toNat < 20) (v : P) :
    s.writeParam i v = { s with store := s.store.set i.toNat v } := by
  simp [State.writeParam, h, State.pending_of_quiet hquiet, land]

/-- Settles O12: an index of 20 or more has no control; below, with nothing pending, PWR and both reads are of the stored value. -/
theorem unknownIndicesAreIgnored : Obligations.UnknownIndicesAreIgnored := by
  intro i v s
  refine ⟨fun hi => ?_, fun h hquiet => ⟨?_, ?_, ?_⟩⟩
  · have hn : ¬ i.toNat < 20 := by omega
    refine ⟨?_, ?_, ?_, ?_⟩
    · rw [exec, execPwr, s.writeParam_of_unknown hn]
    · rw [exec, execPrd, s.readIndex_of_unknown hn]
      rfl
    · rw [step_of_writeBegins rfl, State.beginWrite_of_unknown hn]
      rfl
    · rw [step_of_readOverlaps rfl, State.latest_of_unknown hn]
      rfl
  · rw [exec, execPwr, State.writeParam_of_quiet hquiet h]
  · rw [exec_prd h, State.readParam_of_quiet hquiet]
    rfl
  · rw [step_of_readOverlaps rfl, latest_eq_getLastD_visible h, State.visible, State.pending_of_quiet hquiet]
    rfl

end Sys2Proof.Machine
end

section
/-! The modulation formulas under a race (R138, R158, R56). -/

namespace Sys2Proof.Machine

/-- A read in a state that still shows all of a parameter's values returns one of them. -/
theorem readParam_of_visible_eq {s t : State} {i : Fin 20} (h : t.visible i = s.visible i) :
    ∃ c, c ≤ (pending i s.inFlight).length ∧ (t.readParam i).1 = (s.visible i).getD c 0 := by
  obtain ⟨c, hc, hval, -⟩ := readParam_visible t i
  rw [h] at hc hval
  exact ⟨c, Nat.le_of_lt_succ hc, hval⟩

/-- Two reads of the base parameter and one of another, as VCO.MOD_PW and VCF.MOD_FC begin: the second of the base is not older than
the first, and the parameters that are not read stay as they are. -/
theorem readParam_base_base_depth (s : State) {i j : Fin 20} (hij : j ≠ i) :
    let b := s.readParam i
    let b' := b.2.readParam i
    let depth := b'.2.readParam j
    (∃ c c' d, c ≤ c' ∧ c' ≤ (pending i s.inFlight).length ∧ d ≤ (pending j s.inFlight).length ∧
      b.1 = (s.visible i).getD c 0 ∧ b'.1 = (s.visible i).getD c' 0 ∧ depth.1 = (s.visible j).getD d 0) ∧
    ReadsFrom s depth.2 ∧ ∀ k, k ≠ i → k ≠ j → depth.2.visible k = s.visible k := by
  intro b b' depth
  have hother (k : Fin 20) (hk : k ≠ i) : b'.2.visible k = s.visible k :=
    (visible_readParam_other b.2 hk).trans (visible_readParam_other s hk)
  obtain ⟨c, c', hcc, hc', hfirst, hsecond⟩ := readParam_readParam_visible (s := s) (i := i) (t := b.2) rfl
  obtain ⟨d, hd, hdepth⟩ := readParam_of_visible_eq (hother j hij)
  exact ⟨⟨c, c', d, hcc, Nat.le_of_lt_succ hc', hd, hfirst, hsecond, hdepth⟩,
    ((s.readParam_readsFrom i).trans (b.2.readParam_readsFrom i)).trans (b'.2.readParam_readsFrom j),
    fun k hki hkj => (visible_readParam_other b'.2 hkj).trans (hother k hki)⟩

/-- VCO.MOD_PW reads `pulse_width` twice, then its depth (R138). -/
theorem vcoModPw_reads (cv : F) (s : State) :
    ∃ t b b' d, ReadsFrom s t ∧ b ≤ b' ∧ b' ≤ (pending pPulseWidth s.inFlight).length ∧
      d ≤ (pending pPwModDepth s.inFlight).length ∧
      vcoModPw cv s = t.setPw (Num.add s.par (Num.toF ((s.visible pPulseWidth).getD b 0))
        (Num.mul s.par (Num.mul s.par (Num.sub s.par (Num.lit 1) (Num.toF ((s.visible pPulseWidth).getD b' 0))) cv)
          (Num.toF ((s.visible pPwModDepth).getD d 0)))) := by
  obtain ⟨⟨b, b', d, hbb, hb', hd, hfirst, hsecond, hdepth⟩, hreads, -⟩ :=
    readParam_base_base_depth s (i := pPulseWidth) (j := pPwModDepth) (by decide)
  refine ⟨_, b, b', d, hreads, hbb, hb', hd, ?_⟩
  rw [← hfirst, ← hsecond, ← hdepth]
  rfl

/-- VCF.MOD_FC reads `cutoff` twice, then its two depths (R158). -/
theorem vcfModFc_reads (cv noteCV : F) (s : State) :
    ∃ t b b' d k, ReadsFrom s t ∧ b ≤ b' ∧ b' ≤ (pending pCutoff s.inFlight).length ∧
      d ≤ (pending pCutoffModDepth s.inFlight).length ∧ k ≤ (pending pKbdFollowDepth s.inFlight).length ∧
      vcfModFc cv noteCV s = t.setFc (cutoffHz s.par s.sr.value (Num.toF ((s.visible pCutoff).getD b 0))
        (Num.toF ((s.visible pCutoff).getD b' 0)) cv (Num.toF ((s.visible pCutoffModDepth).getD d 0)) noteCV
        (Num.toF ((s.visible pKbdFollowDepth).getD k 0))) := by
  obtain ⟨⟨b, b', d, hbb, hb', hd, hfirst, hsecond, hdepth⟩, hreads, hother⟩ :=
    readParam_base_base_depth s (i := pCutoff) (j := pCutoffModDepth) (by decide)
  obtain ⟨k, hk, hkbd⟩ := readParam_of_visible_eq (hother pKbdFollowDepth (by decide) (by decide))
  refine ⟨_, b, b', d, k, hreads.trans (State.readParam_readsFrom _ pKbdFollowDepth), hbb, hb', hd, hk, ?_⟩
  rw [← hfirst, ← hsecond, ← hdepth, ← hkbd]
  rfl

/-- Settles O29: each occurrence in the two formulas is a read event of its own. -/
theorem racingModulationReadsEachOccurrence : Obligations.RacingModulationReadsEachOccurrence := by
  intro cv noteCV s value
  constructor
  · obtain ⟨t, b, b', d, hreads, hbb, hb', hd, hpw⟩ := vcoModPw_reads (floatOperand cv) s
    refine ⟨_, b, b', d, rfl, hbb, hb', hd, ?_⟩
    rw [hpw, show t = _ from hreads]
    rfl
  · obtain ⟨t, b, b', d, k, hreads, hbb, hb', hd, hk, hfc⟩ := vcfModFc_reads (floatOperand cv) (floatOperand noteCV) s
    refine ⟨_, b, b', d, k, rfl, hbb, hb', hd, hk, ?_⟩
    rw [hfc, show t = _ from hreads]
    rfl

end Sys2Proof.Machine
end

section
/-! Every command completes or is refused by name (R60, R213), and RENDER's operands (R65). -/

namespace Sys2Proof.Machine

open Claims (HasValues Runs ticks)
open Safety (needs noMeaning strict)

/-- Settles O42: RENDER does not use its operands, and it returns one value on both channels. -/
theorem renderDiscardsItsInputs : Obligations.RenderDiscardsItsInputs := by
  intro inL inR inL' inR' s
  exact ⟨rfl, fun hcount => ⟨_, _, State.completeTick_next _ hcount, rfl⟩⟩

/-- Item 4 of R213: the counter cannot advance, and the command counts (R24). -/
theorem exec_refused_of_not_runs {i : Instr} {s : State} (h : ¬ Runs i s) : exec i s = .refused .counterExhausted := by
  obtain ⟨hticks, hmax⟩ := Classical.not_imp.mp h
  obtain ⟨f, rfl⟩ | ⟨l, r, rfl⟩ := ticks_iff.mp hticks
  · exact State.completeTick_refused _ hmax
  · exact State.completeTick_refused _ hmax

/-- `Safety.needs` states item 1 of R213 by command, as `HasValues` does by register. -/
theorem needs_written_iff {i : Instr} {s : State} : (needs i s).written = true ↔ HasValues i s := by
  cases i <;> simp [needs, HasValues, Claims.openReads, Claims.hasValue]

/-- Likewise item 4. -/
theorem needs_count_iff {i : Instr} {s : State} : (needs i s).count = true ↔ Runs i s := by
  cases i <;> simp [needs, Runs, ticks, State.canCount]

/-- A register without a value is read (item 1). -/
theorem strict_of_not_hasValues {i : Instr} {s : State} (h : ¬ HasValues i s) : strict i s = .refused .noValueRead := by
  rw [← needs_written_iff] at h
  simp [strict, h]

/-- With values in all registers it reads, a command has its effect. -/
theorem strict_of_next {i : Instr} {s t : State} (hv : HasValues i s) (h : exec i s = .next t) : strict i s = .next t := by
  rw [← needs_written_iff] at hv
  simp [strict, hv, h]

/-- The machine refuses by item 4 alone. -/
theorem strict_of_refused {i : Instr} {s : State} {r : Refusal} (hv : HasValues i s) (h : exec i s = .refused r) :
    strict i s = .refused .counterExhausted := by
  rw [← needs_written_iff] at hv
  simp [strict, hv, h]

/-- `Safety.strict` refuses in the situations of items 1 and 4, by the name of one that holds (R212). -/
theorem strict_refuses {i : Instr} {s : State} (h : ¬ (HasValues i s ∧ Runs i s)) :
    ∃ r, strict i s = .refused r ∧ r ∈ noMeaning i s := by
  by_cases hv : HasValues i s
  · have hruns : ¬ Runs i s := fun hr => h ⟨hv, hr⟩
    refine ⟨_, strict_of_refused hv (exec_refused_of_not_runs hruns), ?_⟩
    rw [← needs_count_iff] at hruns
    simp [noMeaning, hruns]
  · refine ⟨_, strict_of_not_hasValues hv, ?_⟩
    rw [← needs_written_iff] at hv
    simp [noMeaning, hv]

/-- Every event at the head of the port has a step, and so has an empty port (R60, R232). -/
theorem step_completes {s : State} (h : ∀ w rest, s.port = .command w :: rest → Runs (decodeCmd w) s) : ∃ t, step s = .next t := by
  cases hport : s.port with
  | nil => exact ⟨s, step_of_nil hport⟩
  | cons e rest =>
    cases e with
    | command w =>
      rw [step_of_command hport]
      exact exec_completes_of_runs (s := s.taken rest) (h w rest hport)
    | writeBegins i v => exact ⟨_, step_of_writeBegins hport⟩
    | writeEnds => exact ⟨_, step_of_writeEnds hport⟩
    | readOverlaps i => exact ⟨_, step_of_readOverlaps hport⟩

/-- Settles O48: a command that runs completes, the others are refused, and `Safety.strict` adds item 1. -/
theorem everyCommandHasAStep : Obligations.EveryCommandHasAStep := by
  refine ⟨fun i s => ⟨fun hruns => ?_, exec_refused_of_not_runs, strict_refuses⟩, fun s => step_completes⟩
  obtain ⟨t, ht⟩ := exec_completes_of_runs hruns
  exact ⟨t, ht, fun hv => strict_of_next hv ht⟩

end Sys2Proof.Machine
end

section
/-! What a command word and a message decode to, by their fields (`30_encoding.md` R70 to R80). -/

namespace Sys2Proof

open Machine.Claims (assigned)

/-! ## Command words, by opcode (R76); the fields an equation does not name have no effect (R79) -/

section
variable (a : Byte) (d1 d0 : P)

@[simp] theorem decodeCmd_nop : decodeCmd (packCmd 0x00 a d1 d0) = .nop := by simp [decodeCmd]

@[simp] theorem decodeCmd_reset : decodeCmd (packCmd 0x01 a d1 d0) = .reset := by simp [decodeCmd]

@[simp] theorem decodeCmd_setsr : decodeCmd (packCmd 0x02 a d1 d0) = .setsr d0 := by simp [decodeCmd]

@[simp] theorem decodeCmd_pwr : decodeCmd (packCmd 0x03 a d1 d0) = .pwr a d0 := by simp [decodeCmd]

@[simp] theorem decodeCmd_prd : decodeCmd (packCmd 0x04 a d1 d0) = .prd a := by simp [decodeCmd]

@[simp] theorem decodeCmd_render : decodeCmd (packCmd 0x06 a d1 d0) = .render d1 d0 := by simp [decodeCmd]

@[simp] theorem decodeCmd_envTick : decodeCmd (packCmd 0x10 a d1 d0) = .envTick (envOf a) := by simp [decodeCmd]

@[simp] theorem decodeCmd_envGateOn : decodeCmd (packCmd 0x11 a d1 d0) = .envGateOn (envOf a) := by simp [decodeCmd]

@[simp] theorem decodeCmd_envGateOff : decodeCmd (packCmd 0x12 a d1 d0) = .envGateOff (envOf a) := by simp [decodeCmd]

@[simp] theorem decodeCmd_envRetrig : decodeCmd (packCmd 0x13 a d1 d0) = .envRetrig (envOf a) := by simp [decodeCmd]

@[simp] theorem decodeCmd_vcoTick : decodeCmd (packCmd 0x20 a d1 d0) = .vcoTick d0 := by simp [decodeCmd]

@[simp] theorem decodeCmd_vcoModPw : decodeCmd (packCmd 0x21 a d1 d0) = .vcoModPw d0 := by simp [decodeCmd]

@[simp] theorem decodeCmd_vcfModFc : decodeCmd (packCmd 0x30 a d1 d0) = .vcfModFc d1 d0 := by simp [decodeCmd]

@[simp] theorem decodeCmd_vcfFilter : decodeCmd (packCmd 0x31 a d1 d0) = .vcfFilter d0 := by simp [decodeCmd]

@[simp] theorem decodeCmd_p2f : decodeCmd (packCmd 0x40 a d1 d0) = .p2f a := by simp [decodeCmd]

/-- The operand of an EVT is the message in the low 24 bits of `d0`; the byte above it is ignored (R72). -/
theorem decodeCmd_evt {b0 b1 b2 : Byte} (h : d0.setWidth 24 = packMidi b0 b1 b2) :
    decodeCmd (packCmd 0x05 a d1 d0) = .evt b0 b1 b2 := by
  simp [decodeCmd, h]

/-- Every opcode outside R76 is reserved (R78). -/
theorem decodeCmd_of_reserved {op : Byte} (h : op ∉ assigned) : decodeCmd (packCmd op a d1 d0) = .nop := by
  have hne (k : Nat) (hk : BitVec.ofNat 8 k ∈ assigned) : op.toNat ≠ k := by
    rintro rfl
    rw [BitVec.ofNat_toNat, BitVec.setWidth_eq] at hk
    exact h hk
  rw [decodeCmd, opOf_packCmd]
  split
  case h_17 => rfl
  all_goals exact absurd ‹op.toNat = _› (hne _ (by decide))

end

/-- The message below a byte `x` in a `d0` (R72). -/
theorem setWidth_append_packMidi (x b0 b1 b2 : Byte) : (x ++ b0 ++ b1 ++ b2).setWidth 24 = packMidi b0 b1 b2 := by
  apply BitVec.eq_of_getLsbD_eq
  intro i hi
  simp only [BitVec.getLsbD_setWidth, getLsbD_packMidi, BitVec.getLsbD_append, Nat.sub_sub, hi, decide_true, Bool.true_and]
  by_cases h1 : i < 8
  · rw [if_pos h1, if_pos h1]
  · by_cases h2 : i < 16
    · rw [if_neg h1, if_neg h1, if_pos h2, if_pos (by omega)]
    · rw [if_neg h1, if_neg h1, if_neg h2, if_neg (by omega), if_pos (by omega)]

/-- The envelope select of the assembled `a` (R71). -/
@[simp] theorem envOf_envCode (e : Env) : envOf (envCode e) = e := by
  cases e <;> rfl

/-! ## Messages, by status byte (R74) -/

@[simp] theorem decodeMidi_packMidi (b0 b1 b2 : Byte) : decodeMidi (packMidi b0 b1 b2) = decodeMidiBytes b0 b1 b2 := by
  simp [decodeMidi]

theorem decodeMidiBytes_noteOn (b1 b2 : Byte) : decodeMidiBytes 0x90 b1 b2 = .noteOn b1 b2 := rfl

theorem decodeMidiBytes_noteOff (b1 b2 : Byte) : decodeMidiBytes 0x80 b1 b2 = .noteOff b1 b2 := rfl

theorem decodeMidiBytes_midiIgn {b0 : Byte} (hon : b0 ≠ 0x90) (hoff : b0 ≠ 0x80) (b1 b2 : Byte) :
    decodeMidiBytes b0 b1 b2 = .midiIgn b0 b1 b2 := by
  rw [decodeMidiBytes, if_neg hon, if_neg hoff]

theorem wellFormed_midiIgn_iff {b0 b1 b2 : Byte} : WellFormed (.midiIgn b0 b1 b2) ↔ b0 ≠ 0x90 ∧ b0 ≠ 0x80 := by
  rw [WellFormed, Instr.wf, Bool.and_eq_true, bne_iff_ne, bne_iff_ne]

/-! ## The statements about the decoder -/

/-- The fields of each row's word hold its operands, and the row's equation reads them back. -/
theorem decode_encode {i : Instr} (h : WellFormed i) : decode (encode i) = i := by
  cases i with
  | nop => exact decodeCmd_nop 0 0 0
  | reset => exact decodeCmd_reset 0 0 0
  | setsr sr => exact decodeCmd_setsr ..
  | pwr i v => exact decodeCmd_pwr ..
  | prd i => exact decodeCmd_prd ..
  | evt b0 b1 b2 => exact decodeCmd_evt _ _ _ (setWidth_setWidth_midi _)
  | render inL inR => exact decodeCmd_render ..
  | envTick e => exact (decodeCmd_envTick ..).trans (by rw [envOf_envCode])
  | envGateOn e => exact (decodeCmd_envGateOn ..).trans (by rw [envOf_envCode])
  | envGateOff e => exact (decodeCmd_envGateOff ..).trans (by rw [envOf_envCode])
  | envRetrig e => exact (decodeCmd_envRetrig ..).trans (by rw [envOf_envCode])
  | vcoTick f => exact decodeCmd_vcoTick ..
  | vcoModPw cv => exact decodeCmd_vcoModPw ..
  | vcfModFc cv noteCV => exact decodeCmd_vcfModFc ..
  | vcfFilter x => exact decodeCmd_vcfFilter ..
  | p2f n => exact decodeCmd_p2f ..
  | noteOn n b2 => exact (decodeMidi_packMidi ..).trans (decodeMidiBytes_noteOn ..)
  | noteOff n b2 => exact (decodeMidi_packMidi ..).trans (decodeMidiBytes_noteOff ..)
  | midiIgn b0 b1 b2 =>
    obtain ⟨hon, hoff⟩ := wellFormed_midiIgn_iff.mp h
    exact (decodeMidi_packMidi ..).trans (decodeMidiBytes_midiIgn hon hoff ..)

/-- Settles O1: the decoder's equation for each row reads back the operands its word was packed from. -/
theorem decodeEncodeRoundTrip : Obligations.DecodeEncodeRoundTrip := fun _ => decode_encode

/-- Settles O2: the decoder's equations, one for each opcode of R76. -/
theorem everyWordDecodesByItsOpcode : Obligations.EveryWordDecodesByItsOpcode := by
  intro a d1 d0 e
  exact ⟨decodeCmd_nop a d1 d0, decodeCmd_reset a d1 d0, decodeCmd_setsr a d1 d0, decodeCmd_pwr a d1 d0, decodeCmd_prd a d1 d0,
    fun b0 b1 b2 x => decodeCmd_evt a d1 _ (setWidth_append_packMidi x b0 b1 b2), decodeCmd_render a d1 d0,
    decodeCmd_envTick a d1 d0, decodeCmd_envGateOn a d1 d0, decodeCmd_envGateOff a d1 d0, decodeCmd_envRetrig a d1 d0,
    decodeCmd_vcoTick a d1 d0, decodeCmd_vcoModPw a d1 d0, decodeCmd_vcfModFc a d1 d0, decodeCmd_vcfFilter a d1 d0,
    decodeCmd_p2f a d1 d0⟩

/-- Settles O6: each word is a constant, and the decoder computes. -/
theorem specWordsDecode : Obligations.SpecWordsDecode := by
  unfold Obligations.SpecWordsDecode
  decide

end Sys2Proof
end

section
/-! Running a decoded word: reserved opcodes, messages, assembled words, and the result port (R73 to R78). -/

namespace Sys2Proof.Machine

open Claims (ResultOf)

/-- Settles O3: a reserved opcode decodes to NOP; `Fault` has no constructor, so nothing can trap. -/
theorem reservedOpcodesExecuteAsNop : Obligations.ReservedOpcodesExecuteAsNop := by
  refine ⟨fun op a d1 d0 s rest hop => ?_, fun w s => ⟨(nomatch ·), exec_completes_of_runs⟩⟩
  have hnop : decodeCmd (op ++ a ++ d1 ++ d0) = .nop := decodeCmd_of_reserved a d1 d0 hop
  refine ⟨hnop, ?_, ?_⟩
  · rw [hnop]
    rfl
  · rw [step_of_command rfl, hnop]
    rfl

/-- Settles O4: a status byte is the constant or is not, and EVT runs the form its message decodes to. -/
theorem midiStatusSelectsTheForm : Obligations.MidiStatusSelectsTheForm := by
  intro b0 b1 b2
  have hdecode : decodeMidi (b0 ++ b1 ++ b2) = decodeMidiBytes b0 b1 b2 := decodeMidi_packMidi b0 b1 b2
  rw [hdecode]
  refine ⟨fun h => ?_, fun h => ?_, fun hon hoff => ?_, exec_evt b0 b1 b2⟩
  · obtain rfl : b0 = 0x90 := BitVec.eq_of_toNat_eq h
    exact decodeMidiBytes_noteOn b1 b2
  · obtain rfl : b0 = 0x80 := BitVec.eq_of_toNat_eq h
    exact decodeMidiBytes_noteOff b1 b2
  · exact decodeMidiBytes_midiIgn (fun h => hon (congrArg BitVec.toNat h)) (fun h => hoff (congrArg BitVec.toNat h)) b1 b2

/-- The command word that carries a word runs what the word decodes to; for a MIDI3 word this is EVT's decoding (R72, R173). -/
theorem exec_decodeCmd_carry (w : Encoded) (s : State) : exec (decodeCmd (carry w)) s = exec (decode w) s := by
  cases w with
  | cmd80 w => rfl
  | midi3 m =>
    rw [decodeCmd_carry_midi3, exec_evt]
    rfl

/-- Settles O50: the assembled word carries the encoding, which decodes to the instruction. -/
theorem assembledInstructionRuns : Obligations.AssembledInstructionRuns := by
  intro i s rest h
  rw [step_of_command rfl, assemble, exec_decodeCmd_carry, decode_encode h]
  rfl

/-- The gates are no part of the held note (R26, R32). -/
theorem setGates_note (b : Bool) (s : State) : (setGates b s).note = s.note := by
  simp [setGates, setGate]

/-- Settles O5: the held note is `b1` itself, and no meaning names its velocity operand. -/
theorem noteByteIsUnmaskedAndVelocityIsNeverRead : Obligations.NoteByteIsUnmaskedAndVelocityIsNeverRead := by
  intro n b2 c2 s
  exact ⟨⟨_, rfl, setGates_note true _⟩, rfl, rfl, fun b0 => rfl, exec_evt 0x90 n 0 s⟩

/-! ## The result port (R73) -/

@[simp] theorem State.writeParam_res (s : State) (i : Byte) (v : P) : (s.writeParam i v).res = s.res := by
  unfold State.writeParam
  split <;> rfl

@[simp] theorem setGate_res (e : Env) (b : Bool) (s : State) : (setGate e b s).res = s.res := State.setEnv_res ..

@[simp] theorem retrigger_res (e : Env) (s : State) : (retrigger e s).res = s.res := State.setEnv_res ..

theorem vcoModPw_res (cv : F) (s : State) : (vcoModPw cv s).res = s.res := by
  obtain ⟨t, v, hr, ht⟩ := vcoModPw_spec cv s
  rw [ht, State.setPw_res, show t = _ from hr]

theorem vcfModFc_res (cv noteCV : F) (s : State) : (vcfModFc cv noteCV s).res = s.res := by
  obtain ⟨t, v, hr, ht⟩ := vcfModFc_spec cv noteCV s
  rw [ht, State.setFc_res, show t = _ from hr]

theorem noteOn_res {n b2 : Byte} {s t : State} (h : exec (.noteOn n b2) s = .next t) : t.res = s.res := by
  cases h
  split <;> simp [setGates, retriggerBoth]

theorem noteOff_res {n b2 : Byte} {s t : State} (h : exec (.noteOff n b2) s = .next t) : t.res = s.res := by
  cases h
  split <;> simp [setGates]

/-- A command that completes from a state with no result leaves what its row of R73 says. -/
theorem exec_resultOf {i : Instr} {s t : State} (h : exec i s = .next t) (hres : s.res = .none) : ResultOf i t.res := by
  cases i with
  | prd _ | envTick _ | vcfFilter _ | p2f _ => cases h; exact ⟨_, rfl⟩
  | vcoTick f =>
    obtain ⟨rfl, -⟩ := State.completeTick_eq_next h
    exact ⟨_, rfl⟩
  | render inL inR =>
    obtain ⟨rfl, -⟩ := State.completeTick_eq_next h
    exact ⟨_, rfl⟩
  | nop | reset | setsr _ | midiIgn _ _ _ => cases h; exact hres
  | pwr i v => cases h; exact (s.writeParam_res i v).trans hres
  | evt b0 b1 b2 =>
    rw [exec_evt] at h
    obtain hd | hd | hd := decodeMidiBytes_cases b0 b1 b2 <;> rw [hd] at h
    · exact (noteOn_res h).trans hres
    · exact (noteOff_res h).trans hres
    · cases h; exact hres
  | envGateOn e => cases h; exact (setGate_res e true s).trans hres
  | envGateOff e => cases h; exact (setGate_res e false s).trans hres
  | envRetrig e => cases h; exact (retrigger_res e s).trans hres
  | vcoModPw cv => cases h; exact (vcoModPw_res _ s).trans hres
  | vcfModFc cv noteCV => cases h; exact (vcfModFc_res _ _ s).trans hres
  | noteOn n b2 => exact (noteOn_res h).trans hres
  | noteOff n b2 => exact (noteOff_res h).trans hres

/-- Settles O55: taking the event clears the result port, and the command leaves its own result there or none. -/
theorem resultPortByCommand : Obligations.ResultPortByCommand := by
  intro s w rest hport hruns
  obtain ⟨t, ht⟩ := exec_completes_of_runs (s := s.taken rest) hruns
  exact ⟨t, (step_of_command hport).trans ht, exec_resultOf ht rfl⟩

end Sys2Proof.Machine
end

section
/-! The corner cases of the arithmetic (R93): NaN operands, zeros, infinities, overflow. -/

namespace Sys2Proof.Machine.Num

/-! ## NaN operands (R93) -/

section
variable (p : Params) (x : F)

@[simp] theorem add_nan_left : add p .nan x = .nan := by cases x <;> rfl

@[simp] theorem add_nan_right : add p x .nan = .nan := by cases x <;> rfl

@[simp] theorem sub_nan_left : sub p .nan x = .nan := add_nan_left p _

@[simp] theorem sub_nan_right : sub p x .nan = .nan := add_nan_right p x

@[simp] theorem mul_nan_left : mul p .nan x = .nan := by cases x <;> rfl

@[simp] theorem mul_nan_right : mul p x .nan = .nan := by cases x <;> rfl

@[simp] theorem div_nan_left : div p .nan x = .nan := by cases x <;> rfl

@[simp] theorem div_nan_right : div p x .nan = .nan := by cases x <;> rfl

end

/-! ## Exact zeros and overflow -/

/-- Both terms stand over the same power of two and cancel; opposite signs give +0. -/
theorem sub_self_fin (p : Params) (a : Bool) (m : Nat) (e : Int) : sub p (.fin a m e) (.fin a m e) = .fin false 0 0 := by
  cases a <;> simp [sub, negate, add, aligned, signed]

theorem mul_zero_fin (p : Params) (a b : Bool) (m : Nat) (e : Int) : mul p (.fin b 0 0) (.fin a m e) = .fin (b != a) 0 0 := by
  simp [mul, roundQ]

/-- `2^2046` is above both formats, in either underflow setting. -/
theorem roundQ_two_pow_2046 (f : Format) (u : Underflow) (neg : Bool) : roundQ f u neg 1 1 2046 = .inf neg := by
  cases f <;> cases u <;> cases neg <;> decide

/-- Settles O57: each clause is the branch of its operation for these operands. -/
theorem arithmeticCornerCases : Obligations.ArithmeticCornerCases := by
  intro p a b m e x
  refine ⟨sub_self_fin p a m e, mul_zero_fin p a b m e, rfl, fun hm => by simp [div, hm], rfl, ?_, roundQ_two_pow_2046 _ _ _,
    ⟨add_nan_left p x, add_nan_right p x⟩, ⟨sub_nan_left p x, sub_nan_right p x⟩, ⟨mul_nan_left p x, mul_nan_right p x⟩,
    div_nan_left p x, div_nan_right p x⟩
  cases a <;> rfl

end Sys2Proof.Machine.Num
end

section
/-! A NaN that stays: in an envelope output until a reset or a retrigger, in the filter until RESET (R100, R112, R211). -/

namespace Sys2Proof.Machine

open Claims (Reg Same writesOf effective Runs)

/-- The form an EVT applies stands for the EVT (R173). -/
theorem exec_effective (i : Instr) (s : State) : exec (effective i) s = exec i s := by
  cases i with
  | evt b0 b1 b2 => exact (exec_evt b0 b1 b2 s).symm
  | _ => rfl

/-! ## The envelopes -/

section
variable {e : Env} {s t : State}

theorem WritesOnly.out_nan {rs : List Reg} (h : WritesOnly rs s t) (he : .out e ∉ rs) (hs : (s.env e).out = .nan) :
    (t.env e).out = .nan :=
  Eq.trans (h.same (.out e) he) hs

/-- R112 corner case 4: the old output is a factor of the new one. -/
theorem envTick_out_nan (d : Env) (hs : (s.env e).out = .nan) : ((envTick d s).2.env e).out = .nan := by
  by_cases hd : e = d
  · subst hd
    simp [envTick, approach, hs]
  · exact (envTick_writesOnly d s).out_nan (by simp [writesOf, hd]) hs

/-- Between the envelope ticks and the filter step a sample of RENDER writes the width, the cutoff and the counter (R172). -/
theorem sampleOf_writes (s : State) : ∃ x t, (sampleOf s).state = (vcfFilter x t).2 ∧
    WritesOnly [.pw, .fc, .n] (envTick .mod (envTick .amp s).2).2 t :=
  ⟨_, _, rfl, (vcoModPw_writesOnly (by simp) _ _).trans <| (vcfModFc_writesOnly (by simp) _ _ _).trans <|
    vcoTick_writesOnly (by simp) _ _⟩

theorem sampleOf_out_nan (hs : (s.env e).out = .nan) : ((sampleOf s).state.env e).out = .nan := by
  obtain ⟨x, t, hst, ht⟩ := sampleOf_writes s
  have hticks := envTick_out_nan .mod (envTick_out_nan .amp hs)
  rw [hst]
  exact (vcfFilter_writesOnly (rs := [.filter]) (.head _) x t).out_nan (by simp) (ht.out_nan (by simp) hticks)

/-- NOTE_ON of the held note retriggers nothing (R174). -/
theorem exec_noteOn_held (b2 : Byte) (s : State) : exec (.noteOn s.note b2) s = .next (setGates true (s.setNote s.note)) := by
  simp [exec, execNoteOn]

/-- The column of an envelope output in R39. -/
theorem out_mem_writesOf {i : Instr} (h : .out e ∈ writesOf i) :
    i = .reset ∨ i = .envTick e ∨ i = .envRetrig e ∨ (∃ n b2, i = .noteOn n b2) ∨ ∃ l r, i = .render l r := by
  cases i <;> simp_all [writesOf]

end

/-- Settles O27: of the commands whose row of R39 holds the output, the ticks have it as a factor of the new one; RESET and the
retriggers are excluded. -/
theorem naNEnvelopeStaysUntilRetrig : Obligations.NaNEnvelopeStaysUntilRetrig := by
  intro e i s hruns hs hreset hretrig hnote
  obtain ⟨t, ht⟩ := exec_completes_of_runs hruns
  refine ⟨t, ht, ?_⟩
  by_cases hmem : .out e ∈ writesOf (effective i)
  · rw [← exec_effective] at ht
    obtain hi | hi | hi | ⟨n, b2, hi⟩ | ⟨l, r, hi⟩ := out_mem_writesOf hmem
    · exact absurd hi hreset
    · rw [hi] at ht
      cases ht
      exact (WritesOnly.returnOne (rs := []) ..).out_nan (by simp) (envTick_out_nan e hs)
    · exact absurd hi hretrig
    · rw [hi, hnote n b2 hi, exec_noteOn_held] at ht
      cases ht
      exact ((WritesOnly.setNote (rs := [.note, .gate .amp, .gate .mod]) (by simp) s _).trans
        (.setGates (by simp) (by simp) true _)).out_nan (by simp) hs
    · rw [hi] at ht
      obtain ⟨rfl, -⟩ := State.completeTick_eq_next ht
      exact (WritesOnly.returnStereo (rs := []) ..).out_nan (by simp) (sampleOf_out_nan hs)
  · exact (exec_writesOnly ht).out_nan hmem hs

/-! ## The filter -/

/-- A NaN input, or a NaN in either register, makes both registers of a stage NaN (R152). -/
theorem lpf1_nan (p : Params) {r : StageRegs} {x : F} (g : F) (h : x = .nan ∨ r.y = .nan ∨ r.u = .nan) :
    (lpf1 p r x g).y = .nan ∧ (lpf1 p r x g).u = .nan := by
  obtain h | h | h := h <;> simp [lpf1, h]

/-- Every NaN register of `r` is NaN in `r'`. -/
structure KeepsNaN (r r' : FilterRegs) : Prop where
  stages : ∀ k : Fin 4, (r.st[k].y = .nan → r'.st[k].y = .nan) ∧ (r.st[k].u = .nan → r'.st[k].u = .nan)
  d2 : r.d2 = .nan → r'.d2 = .nan
  d3 : r.d3 = .nan → r'.d3 = .nan
  d4 : r.d4 = .nan → r'.d4 = .nan

theorem KeepsNaN.refl (r : FilterRegs) : KeepsNaN r r := ⟨fun _ => ⟨id, id⟩, id, id, id⟩

/-- A stage keeps its own NaN; a NaN delay is in the input of the stage before its own, and goes on into its own (R154). -/
theorem ladder_keepsNaN (p : Params) (r : FilterRegs) (x g : F) : KeepsNaN r (ladder p r x g) where
  stages k := by
    have hstage (st : StageRegs) (y : F) :
        (st.y = .nan → (lpf1 p st y g).y = .nan) ∧ (st.u = .nan → (lpf1 p st y g).u = .nan) :=
      ⟨fun h => (lpf1_nan p g (.inr (.inl h))).1, fun h => (lpf1_nan p g (.inr (.inr h))).2⟩
    fin_cases k <;> exact hstage _ _
  d2 h := by simp [ladder, lpf1, h]
  d3 h := by simp [ladder, lpf1, h]
  d4 h := by simp [ladder, lpf1, h]

theorem vcfFilter_keepsNaN (x : F) (s : State) : KeepsNaN s.filt (vcfFilter x s).2.filt := by
  obtain ⟨t, k, -, ht⟩ := vcfFilter_spec x s
  rw [ht]
  exact ladder_keepsNaN ..

theorem sampleOf_keepsNaN (s : State) : KeepsNaN s.filt (sampleOf s).state.filt := by
  obtain ⟨x, t, hst, ht⟩ := sampleOf_writes s
  have henv (e : Env) (u : State) : (envTick e u).2.filt = u.filt := (envTick_writesOnly e u).same .filter (by simp [writesOf])
  have hfilt : t.filt = s.filt := (ht.same .filter (by simp)).trans ((henv .mod _).trans (henv .amp s))
  rw [hst, ← hfilt]
  exact vcfFilter_keepsNaN x t

/-- The filter's column in R39. -/
theorem filter_mem_writesOf {i : Instr} (h : .filter ∈ writesOf (effective i)) :
    i = .reset ∨ (∃ x, i = .vcfFilter x) ∨ ∃ l r, i = .render l r := by
  cases i with
  | evt b0 b1 b2 =>
    rw [effective] at h
    obtain hd | hd | hd := decodeMidiBytes_cases b0 b1 b2 <;> simp [hd, writesOf] at h
  | _ => simp_all [writesOf, effective]

theorem exec_keepsNaN {i : Instr} {s t : State} (h : exec i s = .next t) (hreset : i ≠ .reset) : KeepsNaN s.filt t.filt := by
  by_cases hmem : .filter ∈ writesOf (effective i)
  · obtain rfl | ⟨x, rfl⟩ | ⟨l, r, rfl⟩ := filter_mem_writesOf hmem
    · exact absurd rfl hreset
    · cases h
      exact vcfFilter_keepsNaN _ s
    · obtain ⟨rfl, -⟩ := State.completeTick_eq_next h
      exact sampleOf_keepsNaN s
  · rw [show t.filt = s.filt from (exec_writesOnly h).same .filter hmem]
    exact .refl _

/-- Settles O37: of the commands whose row of R39 holds the filter, all but RESET make a ladder step. -/
theorem naNInTheFilterStaysUntilReset : Obligations.NaNInTheFilterStaysUntilReset := by
  intro i s hruns hreset
  obtain ⟨t, ht⟩ := exec_completes_of_runs hruns
  obtain ⟨hst, h2, h3, h4⟩ := exec_keepsNaN ht hreset
  exact ⟨t, ht, hst, h2, h3, h4⟩

end Sys2Proof.Machine
end

section
/-! The rounding of an exact result is to nearest, ties to even, or overflows (R93), and `floor` is exact (R98). -/

namespace Sys2Proof.Machine.Num

open Claims (val Rounded EvenIn overflowAt)

/-! ## Values -/

theorem val_fin (neg : Bool) (m : Nat) (e : Int) : val (.fin neg m e) = (signed neg m : ℚ) * 2 ^ e := by
  cases neg <;> simp [val, signed]

theorem val_fin_pos (m : Nat) (e : Int) : val (.fin false m e) = m * 2 ^ e := by simp [val]

theorem val_negate (x : F) : val (negate x) = -val x := by
  cases x with
  | fin neg m e => cases neg <;> simp [val, negate]
  | _ => simp [val, negate]

theorem val_fin_neg (m : Nat) (e : Int) : val (.fin true m e) = -val (.fin false m e) := val_negate (.fin false m e)

theorem val_fin_lt_zero_iff {neg : Bool} {m : Nat} {e : Int} : val (.fin neg m e) < 0 ↔ neg = true ∧ m ≠ 0 := by
  have hpow : (0 : ℚ) < 2 ^ e := by positivity
  cases neg with
  | false => simp [val_fin_pos, hpow.le, mul_nonneg]
  | true => simp [val_fin_neg, val_fin_pos, hpow, Nat.pos_iff_ne_zero]

/-- Canonical form keeps the value, for either sign. -/
theorem val_mk (neg : Bool) (m : Nat) (e : Int) : val (mk neg m e) = (signed neg m : ℚ) * 2 ^ e := by
  obtain ⟨m', e', hmk, hval⟩ := mk_pos m e
  cases neg with
  | false => simp [hmk, val_fin, signed, hval]
  | true => rw [← Bool.not_false, mk_negate, val_negate, hmk]; simp [val_fin, signed, hval]

theorem isFinite_mk (neg : Bool) (m : Nat) (e : Int) : isFinite (mk neg m e) = true := by
  obtain ⟨m', e', hmk, -⟩ := mk_pos m e
  cases neg with
  | false => rw [hmk]; rfl
  | true => rw [← Bool.not_false, mk_negate, hmk]; rfl

theorem isFinite_negate (x : F) : isFinite (negate x) = isFinite x := by cases x <;> rfl

theorem representable_negate (f : Format) (x : F) : representable f (negate x) = representable f x := by cases x <;> rfl

theorem negate_negate (x : F) : negate (negate x) = x := by cases x <;> simp [negate]

theorem two_pow_prec (f : Format) : (2 : ℚ) ^ prec f = 2 * 2 ^ (prec f - 1) := by
  rw [← pow_succ']
  cases f <;> rfl

/-! ## Rounding to an integer -/

/-- At most one half away, and at one half even. -/
theorem roundHalfEven_near (n : Nat) {d : Nat} (hd : 0 < d) :
    |(roundHalfEven n d : ℚ) - n / d| ≤ 1 / 2 ∧ (|(roundHalfEven n d : ℚ) - n / d| = 1 / 2 → roundHalfEven n d % 2 = 0) := by
  have hdq : (0 : ℚ) < d := by exact_mod_cast hd
  have hquot : (n : ℚ) / d = (n / d : Nat) + (n % d : Nat) / d := by
    field_simp
    exact_mod_cast (Nat.div_add_mod n d).symm
  have hfrac : ((n % d : Nat) : ℚ) / d < 1 := (div_lt_one hdq).mpr (by exact_mod_cast Nat.mod_lt n hd)
  have hfrac0 : 0 ≤ ((n % d : Nat) : ℚ) / d := by positivity
  have hhalf : ((n % d : Nat) : ℚ) / d = 1 / 2 ↔ 2 * (n % d) = d := by
    rw [div_eq_div_iff hdq.ne' two_ne_zero, one_mul, mul_comm]
    exact_mod_cast Iff.rfl
  have hbelow : ((n % d : Nat) : ℚ) / d < 1 / 2 ↔ 2 * (n % d) < d := by
    rw [div_lt_div_iff₀ hdq two_pos, one_mul, mul_comm]
    exact_mod_cast Iff.rfl
  simp only [roundHalfEven]
  generalize ((n % d : Nat) : ℚ) / d = t at *
  split
  next h =>
    have hdiff : |((n / d : Nat) : ℚ) - n / d| = t := by rw [hquot, sub_add_cancel_left, abs_neg, abs_of_nonneg hfrac0]
    rw [hdiff, hhalf]
    refine ⟨?_, fun htie => by omega⟩
    obtain h | h := h
    · exact (hbelow.mpr h).le
    · exact (hhalf.mpr h.1).le
  next h =>
    have hdiff : |((n / d + 1 : Nat) : ℚ) - n / d| = 1 - t := by
      rw [hquot, Nat.cast_succ, add_sub_add_left_eq_sub, abs_of_pos (sub_pos.mpr hfrac)]
    have hge : 1 / 2 ≤ t := not_lt.mp fun hlt => h (.inl (hbelow.mp hlt))
    rw [hdiff]
    refine ⟨by linarith, fun htie => ?_⟩
    have := hhalf.mp (by linarith)
    omega

/-- An integer at most one half away is a nearest one, and another can be as near only at one half. -/
theorem near_int {k : Nat} {X : ℚ} (hk : |(k : ℚ) - X| ≤ 1 / 2) (z : ℤ) :
    |(k : ℚ) - X| ≤ |z - X| ∧ (|(k : ℚ) - X| = |z - X| → z ≠ k → |(k : ℚ) - X| = 1 / 2) := by
  by_cases hz : z = k
  · subst hz
    exact ⟨le_rfl, fun _ h => absurd rfl h⟩
  · have hone : (1 : ℚ) ≤ |(z : ℚ) - k| := by exact_mod_cast Int.one_le_abs (sub_ne_zero.mpr hz)
    have htri : |(z : ℚ) - k| ≤ |z - X| + |k - X| := by
      rw [abs_sub_comm (k : ℚ)]
      exact abs_sub_le _ _ _
    exact ⟨by linarith, fun heq _ => by linarith⟩

/-! ## The units that `roundQ` counts -/

/-- `k` units are the rounding of `X` units of `2^q`, and `q` is the last place of format `f` for such a value: at least that of
subnormal numbers, and for others so that `X` has the full number of significand bits. -/
structure RoundsTo (f : Format) (X : ℚ) (q : Int) (k : Nat) : Prop where
  minExp_le : minExp f ≤ q
  lt : X < 2 ^ prec f
  ge : minExp f < q → 2 ^ (prec f - 1) ≤ X
  near : |(k : ℚ) - X| ≤ 1 / 2
  even : |(k : ℚ) - X| = 1 / 2 → k % 2 = 0

/-- The branches of `roundQ` with gradual underflow, for a result that is not zero. -/
theorem roundQ_gradual (f : Format) (neg : Bool) {n d : Nat} (e : Int) (hn : n ≠ 0) (hd : d ≠ 0) :
    ∃ X q k, (n : ℚ) / d * 2 ^ e = X * 2 ^ q ∧ RoundsTo f X q k ∧
      roundQ f .gradual neg n d e = if maxLog f < (k.log2 : Int) + q then .inf neg else mk neg k q := by
  set q := max (ilog2 n d e - (prec f - 1 : Nat)) (minExp f) with hq
  have two : (2 : ℚ) ≠ 0 := two_ne_zero
  have hp : 1 ≤ prec f := by cases f <;> decide
  have hq0 : (0 : ℚ) < 2 ^ q := by positivity
  have hden : 0 < d <<< (q - e).toNat := by
    rw [Nat.shiftLeft_eq]
    exact Nat.mul_pos (Nat.pos_of_ne_zero hd) (Nat.two_pow_pos _)
  have hX : ((n <<< (e - q).toNat : Nat) : ℚ) / (d <<< (q - e).toNat : Nat) = n / d * 2 ^ e / 2 ^ q := by
    rw [shift_ratio e q hd, mul_div_assoc, div_self (by exact_mod_cast hden.ne'), mul_one]
  obtain ⟨hlo, hhi⟩ := ilog2_spec e hn hd
  obtain ⟨hnear, heven⟩ := roundHalfEven_near (n <<< (e - q).toNat) hden
  rw [hX] at hnear heven
  refine ⟨_, q, _, (div_mul_cancel₀ _ hq0.ne').symm, ⟨le_max_right _ _, ?_, fun h => ?_, hnear, heven⟩,
    by simp [roundQ, hn, ← hq]⟩
  · rw [div_lt_iff₀ hq0, ← zpow_natCast, ← zpow_add₀ two]
    exact hhi.trans_le (zpow_le_zpow_right₀ one_le_two (by omega))
  · rw [le_div_iff₀ hq0, ← zpow_natCast, ← zpow_add₀ two]
    exact (zpow_le_zpow_right₀ one_le_two (by omega)).trans hlo

theorem exists_fin_of_isFinite {x : F} (h : isFinite x = true) : ∃ neg m e, x = .fin neg m e := by
  cases x with
  | fin neg m e => exact ⟨neg, m, e, rfl⟩
  | _ => cases h

theorem representable_bounds {f : Format} {neg : Bool} {m : Nat} {e : Int} (h : representable f (.fin neg m e) = true) :
    m < 2 ^ prec f ∧ minExp f ≤ e := by
  by_cases h0 : m = 0
  · have he : e = 0 := by simpa [representable, h0] using h
    rw [h0, he]
    exact ⟨Nat.two_pow_pos _, by cases f <;> decide⟩
  · simp only [representable, h0, if_false, Bool.and_eq_true, decide_eq_true_eq] at h
    obtain ⟨⟨⟨-, hm⟩, he⟩, -⟩ := h
    exact ⟨hm, he⟩

/-- A finite datum of the format as an integer significand and an exponent. -/
theorem exists_of_representable {f : Format} {z : F} (hfin : isFinite z = true) (hz : representable f z = true) :
    ∃ (m : ℤ) (c : ℤ), |(m : ℚ)| < 2 ^ prec f ∧ minExp f ≤ c ∧ val z = m * 2 ^ c := by
  obtain ⟨neg, m, c, rfl⟩ := exists_fin_of_isFinite hfin
  obtain ⟨hm, hc⟩ := representable_bounds hz
  have hmq : (m : ℚ) < 2 ^ prec f := by exact_mod_cast hm
  exact ⟨signed neg m, c, by cases neg <;> simpa [signed] using hmq, hc, val_fin neg m c⟩

namespace RoundsTo

variable {f : Format} {X : ℚ} {q : Int} {k : Nat}

theorem le (h : RoundsTo f X q k) : k ≤ 2 ^ prec f := by
  have hlt := h.lt
  have hnear := (abs_le.mp h.near).2
  have : (k : ℚ) < (2 ^ prec f : Nat) + 1 := by push_cast; linarith
  exact Nat.lt_succ_iff.mp (by exact_mod_cast this)

theorem ge_of_full (h : RoundsTo f X q k) (hX : 2 ^ (prec f - 1) ≤ X) : 2 ^ (prec f - 1) ≤ k := by
  have hnear := (abs_le.mp h.near).1
  have : ((2 ^ (prec f - 1) : Nat) : ℚ) < k + 1 := by push_cast; linarith
  exact Nat.lt_succ_iff.mp (by exact_mod_cast this)

/-- A datum of the format below the last place is below `2^(prec - 1)` units, which `X` has: no such datum is as near as `k` units. -/
theorem nearest (h : RoundsTo f X q k) {z : F} (hfin : isFinite z = true) (hz : representable f z = true) :
    |(k : ℚ) * 2 ^ q - X * 2 ^ q| ≤ |val z - X * 2 ^ q| ∧
      (|(k : ℚ) * 2 ^ q - X * 2 ^ q| = |val z - X * 2 ^ q| → val z ≠ k * 2 ^ q → k % 2 = 0) := by
  have hq0 : (0 : ℚ) < 2 ^ q := by positivity
  have scale (t : ℚ) : |t * 2 ^ q - X * 2 ^ q| = |t - X| * 2 ^ q := by rw [← sub_mul, abs_mul, abs_of_pos hq0]
  obtain ⟨m, c, hm, hc, hval⟩ := exists_of_representable hfin hz
  rcases le_or_gt q c with hqc | hcq
  · obtain ⟨j, hj⟩ := Int.eq_ofNat_of_zero_le (sub_nonneg.mpr hqc)
    have hunits : val z = ((m * 2 ^ j : ℤ) : ℚ) * 2 ^ q := by
      rw [hval, show c = j + q by omega, zpow_add₀ two_ne_zero, zpow_natCast]
      push_cast
      ring
    obtain ⟨hle, htie⟩ := near_int h.near (m * 2 ^ j)
    rw [hunits, scale, scale]
    refine ⟨by gcongr, fun heq hne => h.even (htie (mul_right_cancel₀ hq0.ne' heq) fun hk => hne ?_)⟩
    rw [hk, Int.cast_natCast]
  · have hfull := h.ge (hc.trans_lt hcq)
    have hlow : val z < 2 ^ (prec f - 1) * 2 ^ q :=
      calc val z = m * 2 ^ c := hval
        _ < 2 ^ prec f * 2 ^ c := by
          gcongr
          exact (abs_lt.mp hm).2
        _ = 2 ^ (prec f - 1) * 2 ^ (c + 1) := by rw [two_pow_prec, zpow_add_one₀ two_ne_zero]; ring
        _ ≤ 2 ^ (prec f - 1) * 2 ^ q := by
          gcongr
          · exact one_le_two
          · omega
    have hunit := (near_int h.near (2 ^ (prec f - 1))).1
    push_cast at hunit
    have hstrict : |(k : ℚ) * 2 ^ q - X * 2 ^ q| < |val z - X * 2 ^ q| :=
      calc |(k : ℚ) * 2 ^ q - X * 2 ^ q| ≤ |2 ^ (prec f - 1) * 2 ^ q - X * 2 ^ q| := by
            rw [scale, scale]
            gcongr
        _ = X * 2 ^ q - 2 ^ (prec f - 1) * 2 ^ q := by
            rw [abs_sub_comm, abs_of_nonneg (sub_nonneg.mpr (by gcongr))]
        _ < X * 2 ^ q - val z := by gcongr
        _ ≤ |val z - X * 2 ^ q| := by
            rw [abs_sub_comm]
            exact le_abs_self _
    exact ⟨hstrict.le, fun heq => absurd heq hstrict.ne⟩

/-- From one half below `2^prec` units on, rounding gives `2^prec` units: the tie goes there, since `2^prec - 1` is odd. -/
theorem full_iff (h : RoundsTo f X q k) : 2 ^ prec f ≤ k ↔ 2 ^ prec f - 1 / 2 ≤ X := by
  obtain ⟨hlo, hhi⟩ := abs_le.mp h.near
  constructor
  · intro hk
    have : (2 ^ prec f : ℚ) ≤ k := by exact_mod_cast hk
    linarith
  · intro hX
    by_contra hk
    have hle : (k : ℚ) + 1 ≤ 2 ^ prec f := by exact_mod_cast not_le.mp hk
    have htie : |(k : ℚ) - X| = 1 / 2 := by
      rw [abs_sub_comm, abs_of_nonneg (by linarith)]
      linarith
    have hsucc : k + 1 = 2 ^ prec f := by
      have : (k : ℚ) + 1 = 2 ^ prec f := by linarith
      exact_mod_cast this
    have heven := h.even htie
    have : 2 ^ prec f % 2 = 0 := by cases f <;> decide
    omega

/-- The result has overflowed when the value is at `overflowAt` or above: above the greatest last place it always has, below it never,
and at it when `k` is `2^prec`. -/
theorem overflow_iff (h : RoundsTo f X q k) : maxLog f < (k.log2 : Int) + q ↔ overflowAt f ≤ X * 2 ^ q := by
  have hp : 1 ≤ prec f := by cases f <;> decide
  have htop : minExp f < maxLog f - prec f + 1 := by cases f <;> decide
  have hone : (1 : ℚ) ≤ 2 ^ (prec f - 1) := one_le_pow₀ one_le_two
  have hprec := two_pow_prec f
  have hat : overflowAt f = (2 ^ prec f - 1 / 2) * 2 ^ (maxLog f - prec f + 1) := by
    rw [overflowAt, pow_succ, zpow_add_one₀ two_ne_zero]
    ring
  rcases lt_trichotomy q (maxLog f - prec f + 1) with hq | hq | hq
  · have hlog : k.log2 < prec f + 1 := by
      rcases Nat.eq_zero_or_pos k with h0 | h0
      · simp [h0]
      · exact (Nat.log2_lt h0.ne').mpr (h.le.trans_lt (Nat.pow_lt_pow_succ one_lt_two))
    refine iff_of_false (by omega) (not_le.mpr ?_)
    calc X * 2 ^ q < 2 ^ prec f * 2 ^ q := by gcongr; exact h.lt
      _ ≤ 2 ^ prec f * 2 ^ (maxLog f - prec f) := by gcongr; exacts [one_le_two, by omega]
      _ ≤ (2 ^ prec f - 1 / 2) * 2 * 2 ^ (maxLog f - prec f) := by gcongr; linarith
      _ = overflowAt f := by rw [hat, zpow_add_one₀ two_ne_zero]; ring
  · have hk : maxLog f < (k.log2 : Int) + q ↔ 2 ^ prec f ≤ k := by
      by_cases h0 : k = 0
      · have := Nat.two_pow_pos (prec f)
        simp only [h0, Nat.log2_zero]
        omega
      · rw [← Nat.le_log2 h0]
        omega
    rw [hk, h.full_iff, hat, ← hq, mul_le_mul_iff_left₀ (by positivity)]
  · have hfull := h.ge (htop.trans hq)
    have hX : 0 ≤ X := by linarith
    have hk := h.ge_of_full hfull
    have hlog : prec f - 1 ≤ k.log2 := (Nat.le_log2 ((Nat.two_pow_pos _).trans_le hk).ne').mpr hk
    refine iff_of_true (by omega) ?_
    calc overflowAt f ≤ 2 ^ prec f * 2 ^ (maxLog f - prec f + 1) := by rw [hat]; gcongr; linarith
      _ = 2 ^ (prec f - 1) * 2 ^ (maxLog f - prec f + 1 + 1) := by rw [hprec, zpow_add_one₀ two_ne_zero (_ + 1)]; ring
      _ ≤ X * 2 ^ q := by gcongr; exacts [one_le_two, by omega]

/-- An even number of units has its last bit above the last place. -/
theorem evenIn_mk (h : RoundsTo f X q k) (neg : Bool) (heven : k % 2 = 0) : EvenIn f (Num.mk neg k q) := by
  by_cases h0 : k = 0
  · simp [h0, Num.mk, EvenIn]
  · obtain ⟨m, j, hs, hodd, hv, -⟩ := strip_spec k.log2 neg k q h0 le_rfl
    rw [Num.mk, if_neg h0, hs]
    have hj : j ≠ 0 := by
      rintro rfl
      omega
    have hm : m < 2 ^ (prec f - 1) := by
      have hle : m * 2 ≤ k := hv ▸ Nat.mul_le_mul_left m (Nat.le_self_pow hj 2)
      have hk := h.le
      have hpow : 2 ^ prec f = 2 * 2 ^ (prec f - 1) := by exact_mod_cast two_pow_prec f
      have heven' : 2 ^ (prec f - 1) % 2 = 0 := by cases f <;> decide
      omega
    have hlog := (Nat.log2_lt (by omega)).mpr hm
    have hmin := h.minExp_le
    exact .inr (max_lt (by omega) (by omega))

end RoundsTo

/-! ## The rounding of a result -/

/-- The sign of the result is that of the exact value. -/
theorem roundQ_not (f : Format) (u : Underflow) (neg : Bool) (n d : Nat) (e : Int) :
    roundQ f u (!neg) n d e = negate (roundQ f u neg n d e) := by
  simp only [roundQ, mk_negate]
  repeat' split
  all_goals rfl

theorem evenIn_negate (f : Format) (x : F) : EvenIn f (negate x) ↔ EvenIn f x := by cases x <;> rfl

theorem overflowAt_pos (f : Format) : 0 < overflowAt f := by
  have hone : (1 : ℚ) < 2 ^ (prec f + 1) := one_lt_pow₀ one_lt_two (Nat.succ_ne_zero _)
  exact mul_pos (sub_pos.mpr hone) (by positivity)

/-- An exact zero is a zero of either sign. -/
theorem rounded_zero (f : Format) (neg : Bool) : Rounded f 0 (.fin neg 0 0) := by
  have hval : val (.fin neg 0 0) = 0 := by simp [val]
  refine ⟨fun _ => ⟨rfl, by simp [representable], fun z _ _ => ?_⟩, fun h => absurd h ?_⟩
  · rw [hval]
    refine ⟨by simp, fun heq hne => absurd heq.symm ?_⟩
    simpa using hne
  · simpa using overflowAt_pos f

theorem rounded_neg {f : Format} {x : ℚ} {r : F} (hx : x ≠ 0) (h : Rounded f x r) : Rounded f (-x) (negate r) := by
  obtain ⟨hfinite, hinf⟩ := h
  refine ⟨fun hlt => ?_, fun hle => ?_⟩
  · obtain ⟨hfin, hrep, hnear⟩ := hfinite (by rwa [abs_neg] at hlt)
    refine ⟨by rwa [isFinite_negate], by rwa [representable_negate], fun z hz hzrep => ?_⟩
    obtain ⟨hle, htie⟩ := hnear (negate z) (by rwa [isFinite_negate]) (by rwa [representable_negate])
    have hdist (y : F) : |val (negate y) - x| = |val y - -x| := by rw [val_negate, ← neg_add', abs_neg, sub_neg_eq_add]
    rw [hdist, ← negate_negate r, hdist] at hle htie
    refine ⟨hle, fun heq hne => (evenIn_negate f r).mpr ?_⟩
    rw [← negate_negate r]
    exact htie heq fun h => hne (by rw [val_negate, val_negate] at h; exact neg_injective h)
  · rw [hinf (by rwa [abs_neg] at hle)]
    rcases lt_or_gt_of_ne hx with hneg | hpos
    · simp [negate, hneg, hneg.le]
    · simp [negate, hpos, hpos.le]

/-- Where `roundQ` does not overflow, its result is `k` units, the nearest; where it does, the value is at `overflowAt` or above. -/
theorem roundQ_rounded_pos (f : Format) {n d : Nat} (e : Int) (hn : n ≠ 0) (hd : d ≠ 0) :
    Rounded f ((n : ℚ) / d * 2 ^ e) (roundQ f .gradual false n d e) := by
  have hrep := roundQ_representable f .gradual false n d e hd
  have hpos : (0 : ℚ) < (n : ℚ) / d * 2 ^ e := by positivity
  obtain ⟨X, q, k, hX, hk, hround⟩ := roundQ_gradual f false e hn hd
  have hover := hk.overflow_iff
  rw [hX] at hpos ⊢
  rw [Rounded, abs_of_pos hpos]
  rw [hround] at hrep ⊢
  refine ⟨fun hlt => ?_, fun hle => ?_⟩
  · rw [if_neg (fun h => absurd (hover.mp h) (not_le.mpr hlt))] at hrep ⊢
    have hval : val (mk false k q) = k * 2 ^ q := by simp [val_mk, signed]
    refine ⟨isFinite_mk _ _ _, hrep, fun z hfin hz => ?_⟩
    rw [hval]
    obtain ⟨hle, htie⟩ := hk.nearest hfin hz
    exact ⟨hle, fun heq hne => hk.evenIn_mk false (htie heq hne)⟩
  · rw [if_pos (hover.mpr hle), decide_eq_false hpos.le.not_gt]

theorem roundQ_rounded (f : Format) (neg : Bool) (n : Nat) {d : Nat} (e : Int) (hd : d ≠ 0) :
    Rounded f ((signed neg n : ℚ) / d * 2 ^ e) (roundQ f .gradual neg n d e) := by
  by_cases hn : n = 0
  · simpa [hn, roundQ, signed] using rounded_zero f neg
  · have hpos := roundQ_rounded_pos f e hn hd
    cases neg with
    | false => simpa [signed] using hpos
    | true =>
      have hne : (n : ℚ) / d * 2 ^ e ≠ 0 := by positivity
      rw [← Bool.not_false, roundQ_not]
      simpa [signed, neg_div] using rounded_neg hne hpos

/-! ## The four operations -/

/-- Over a common power of two a number is an integer of its units. -/
theorem aligned_val (neg : Bool) (m : Nat) {e c : Int} (h : c ≤ e) : (aligned neg m e c : ℚ) * 2 ^ c = val (.fin neg m e) := by
  obtain ⟨j, hj⟩ := Int.eq_ofNat_of_zero_le (sub_nonneg.mpr h)
  rw [val_fin, show e = j + c by omega, zpow_add₀ two_ne_zero, zpow_natCast, aligned, add_sub_cancel_right, Int.toNat_natCast,
    Nat.shiftLeft_eq]
  cases neg <;> simp [signed] <;> ring

theorem signed_natAbs (i : ℤ) : signed (decide (i < 0)) i.natAbs = i := by
  by_cases h : i < 0
  · rw [decide_eq_true h, signed, if_pos rfl]
    omega
  · rw [decide_eq_false h, signed, if_neg Bool.false_ne_true]
    omega

theorem signed_mul (a b : Bool) (m k : Nat) : signed (a != b) (m * k) = signed a m * signed b k := by
  cases a <;> cases b <;> simp [signed]

section
variable {p : Params} (hp : p.underflow = .gradual)
include hp

theorem add_rounded {x y : F} (hx : isFinite x = true) (hy : isFinite y = true) : Rounded p.fmt (val x + val y) (add p x y) := by
  obtain ⟨a, m, e, rfl⟩ := exists_fin_of_isFinite hx
  obtain ⟨b, k, d, rfl⟩ := exists_fin_of_isFinite hy
  rw [← aligned_val a m (min_le_left e d), ← aligned_val b k (min_le_right e d), ← add_mul]
  simp only [add, hp]
  split
  next h =>
    rw [← Int.cast_add, h, Int.cast_zero, zero_mul]
    exact rounded_zero _ _
  next h =>
    have := roundQ_rounded p.fmt (decide (aligned a m e (min e d) + aligned b k d (min e d) < 0))
      (aligned a m e (min e d) + aligned b k d (min e d)).natAbs (min e d) one_ne_zero
    simpa [signed_natAbs] using this

theorem sub_rounded {x y : F} (hx : isFinite x = true) (hy : isFinite y = true) : Rounded p.fmt (val x - val y) (sub p x y) := by
  have hy' : isFinite (negate y) = true := by rwa [isFinite_negate]
  rw [sub_eq_add_neg, ← val_negate]
  exact add_rounded hp hx hy'

theorem mul_rounded {x y : F} (hx : isFinite x = true) (hy : isFinite y = true) : Rounded p.fmt (val x * val y) (mul p x y) := by
  obtain ⟨a, m, e, rfl⟩ := exists_fin_of_isFinite hx
  obtain ⟨b, k, d, rfl⟩ := exists_fin_of_isFinite hy
  have hval : val (.fin a m e) * val (.fin b k d) = (signed (a != b) (m * k) : ℚ) / (1 : Nat) * 2 ^ (e + d) := by
    rw [val_fin, val_fin, signed_mul, zpow_add₀ two_ne_zero]
    push_cast
    ring
  rw [hval, mul, hp]
  exact roundQ_rounded p.fmt _ _ _ one_ne_zero

theorem div_rounded {x y : F} (hx : isFinite x = true) (hy : isFinite y = true) (h0 : val y ≠ 0) :
    Rounded p.fmt (val x / val y) (div p x y) := by
  obtain ⟨a, m, e, rfl⟩ := exists_fin_of_isFinite hx
  obtain ⟨b, k, d, rfl⟩ := exists_fin_of_isFinite hy
  have hk : k ≠ 0 := by
    rintro rfl
    simp [val] at h0
  have hval : val (.fin a m e) / val (.fin b k d) = (signed (a != b) m : ℚ) / k * 2 ^ (e - d) := by
    rw [val_fin, val_fin, zpow_sub₀ two_ne_zero, mul_div_mul_comm]
    congr 1
    cases a <;> cases b <;> simp [signed, neg_div, div_neg]
  rw [hval, div, if_neg hk, hp]
  exact roundQ_rounded p.fmt _ _ _ hk

end

/-- Settles O56: each operation rounds the exact result once, with `roundQ`. -/
theorem roundingIsToNearest : Obligations.RoundingIsToNearest := by
  intro p x y hp hx hy
  exact ⟨add_rounded hp hx hy, sub_rounded hp hx hy, mul_rounded hp hx hy, div_rounded hp hx hy⟩

/-! ## `floor` -/

/-- A value that the format holds is not rounded. -/
theorem val_of_rounded {f : Format} {r z : F} (hfin : isFinite z = true) (hz : representable f z = true)
    (hlt : |val z| < overflowAt f) (h : Rounded f (val z) r) : isFinite r = true ∧ val r = val z := by
  obtain ⟨hr, -, hnear⟩ := h.1 hlt
  have hle := (hnear z hfin hz).1
  rw [sub_self, abs_zero] at hle
  exact ⟨hr, sub_eq_zero.mp (abs_nonpos_iff.mp hle)⟩

theorem two_pow_prec_le_overflowAt (f : Format) : (2 : ℚ) ^ prec f ≤ overflowAt f := by
  have hone : (1 : ℚ) ≤ 2 ^ prec f := one_le_pow₀ one_le_two
  have hexp : (1 : ℚ) ≤ 2 ^ (maxLog f - prec f) := one_le_zpow₀ one_le_two (by cases f <;> decide)
  calc (2 : ℚ) ^ prec f ≤ 2 ^ (prec f + 1) - 1 := by rw [pow_succ]; linarith
    _ ≤ overflowAt f := le_mul_of_one_le_right (by rw [pow_succ]; linarith) hexp

/-- An integer within the significand is not rounded. -/
theorem roundQ_integer (f : Format) (neg : Bool) {n : Nat} (h : n < 2 ^ prec f) :
    isFinite (roundQ f .gradual neg n 1 0) = true ∧ val (roundQ f .gradual neg n 1 0) = signed neg n := by
  have hval : val (mk neg n 0) = signed neg n := by simp [val_mk]
  have hrep : representable f (mk neg n 0) = true := by
    refine mk_representable f neg n 0 h.le (fun _ => by cases f <;> decide) fun hn => ?_
    have hlog := (Nat.log2_lt hn).mpr h
    have hmax : (prec f : ℤ) ≤ maxLog f := by cases f <;> decide
    omega
  have habs : |val (mk neg n 0)| < overflowAt f := by
    have hn : (n : ℚ) < 2 ^ prec f := by exact_mod_cast h
    have heq : |val (mk neg n 0)| = n := by rw [hval]; cases neg <;> simp [signed]
    exact heq ▸ hn.trans_le (two_pow_prec_le_overflowAt f)
  have hround : Rounded f (val (mk neg n 0)) (roundQ f .gradual neg n 1 0) := by
    simpa [hval] using roundQ_rounded f neg n 0 one_ne_zero
  rw [← hval]
  exact val_of_rounded (isFinite_mk _ _ _) hrep habs hround

/-- The magnitude that `floor` rounds: the quotient, rounded up for a negative operand. -/
def floorMag (neg : Bool) (m s : Nat) : Nat := if neg then (m + (2 ^ s - 1)) / 2 ^ s else m / 2 ^ s

theorem signed_floorMag (neg : Bool) (m s : Nat) : signed neg (floorMag neg m s) = signed neg m / ((2 ^ s : Nat) : ℤ) := by
  have hD := Nat.two_pow_pos s
  cases neg with
  | false => simp [floorMag, signed]
  | true =>
    have hdiv := Nat.div_add_mod (m + (2 ^ s - 1)) (2 ^ s)
    have hmod := Nat.mod_lt (m + (2 ^ s - 1)) hD
    simp only [floorMag, signed, if_true]
    generalize 2 ^ s = D at *
    generalize (m + (D - 1)) / D = c at *
    generalize (m + (D - 1)) % D = r at *
    zify [Nat.one_le_of_lt hD] at hdiv hmod
    refine (((Int.ediv_emod_unique (r := D * c - m) (by omega)).mpr ⟨by ring, ?_, ?_⟩).1).symm
    all_goals linarith

theorem natAbs_signed (neg : Bool) (m : Nat) : (signed neg m).natAbs = m := by cases neg <;> simp [signed]

theorem floorMag_le (neg : Bool) (m s : Nat) : floorMag neg m s ≤ m := by
  have h := Int.natAbs_ediv_le_natAbs (signed neg m) ((2 ^ s : Nat) : ℤ)
  rwa [← signed_floorMag, natAbs_signed, natAbs_signed] at h

theorem floor_of_neg_exponent (p : Params) (neg : Bool) (m s : Nat) (hs : s ≠ 0) :
    floor p (.fin neg m (-s)) = roundQ p.fmt .gradual neg (floorMag neg m s) 1 0 := by
  simp [floor, floorMag, hs]

/-- Settles O58: with an exponent from 0 on the operand is an integer itself; else its significand bounds the integer that is rounded. -/
theorem floorIsExact : Obligations.FloorIsExact := by
  intro p x hfin hrep
  obtain ⟨neg, m, e, rfl⟩ := exists_fin_of_isFinite hfin
  rcases le_or_gt 0 e with he | he
  · obtain ⟨j, rfl⟩ := Int.eq_ofNat_of_zero_le he
    have hint : val (.fin neg m j) = ((signed neg m * 2 ^ j : ℤ) : ℚ) := by
      rw [val_fin, zpow_natCast]
      push_cast
      rfl
    rw [floor, if_pos he, hint, Int.floor_intCast]
    exact ⟨rfl, rfl⟩
  · obtain ⟨s, hs⟩ := Int.eq_ofNat_of_zero_le (neg_nonneg.mpr he.le)
    obtain rfl : e = -s := by omega
    obtain ⟨hm, -⟩ := representable_bounds hrep
    have hval : val (.fin neg m (-s)) = (signed neg m : ℚ) / ((2 ^ s : Nat) : ℚ) := by
      rw [val_fin, zpow_neg, zpow_natCast, div_eq_mul_inv, Nat.cast_pow, Nat.cast_ofNat]
    rw [floor_of_neg_exponent p neg m s (by omega), hval, Rat.floor_intCast_div_natCast, ← signed_floorMag]
    exact roundQ_integer p.fmt neg ((floorMag_le neg m s).trans_lt hm)

end Sys2Proof.Machine.Num
end

section
/-! The named properties of `num` (R102): ranges, `tanh` odd and never decreasing, special values. -/

namespace Sys2Proof.Machine.Num

open Claims (val saturated)

/-! ## Comparisons of finite data are comparisons of their values (R104) -/

section
variable {x y : F} (hx : isFinite x = true) (hy : isFinite y = true)
include hx hy

theorem lt_iff_val : lt x y = true ↔ val x < val y := by
  obtain ⟨a, m, e, rfl⟩ := exists_fin_of_isFinite hx
  obtain ⟨b, k, d, rfl⟩ := exists_fin_of_isFinite hy
  rw [← aligned_val a m (min_le_left e d), ← aligned_val b k (min_le_right e d), mul_lt_mul_iff_left₀ (by positivity), Int.cast_lt]
  exact decide_eq_true_iff

theorem eq_iff_val : eq x y = true ↔ val x = val y := by
  obtain ⟨a, m, e, rfl⟩ := exists_fin_of_isFinite hx
  obtain ⟨b, k, d, rfl⟩ := exists_fin_of_isFinite hy
  rw [← aligned_val a m (min_le_left e d), ← aligned_val b k (min_le_right e d), mul_left_inj' (by positivity), Int.cast_inj]
  exact decide_eq_true_iff

theorem le_iff_val : le x y = true ↔ val x ≤ val y := by
  rw [le, Bool.or_eq_true, lt_iff_val hx hy, eq_iff_val hx hy, le_iff_lt_or_eq]

end

@[simp] theorem val_zero : val zero = 0 := by simp [val, zero]

@[simp] theorem val_lit (n : Nat) : val (lit n) = n := by simp [lit, val_mk, signed]

@[simp] theorem val_minusOne : val minusOne = -1 := by simp [val, minusOne]

@[simp] theorem isFinite_lit (n : Nat) : isFinite (lit n) = true := isFinite_mk _ _ _

/-! ## The interval [-1, 1] -/

/-- A finite datum of magnitude at most 1. -/
def InUnit (x : F) : Prop := isFinite x = true ∧ |val x| ≤ 1

theorem InUnit.le_one {x : F} (h : InUnit x) : le x (lit 1) = true :=
  (le_iff_val h.1 (isFinite_lit 1)).mpr (by simpa using (abs_le.mp h.2).2)

theorem InUnit.minusOne_le {x : F} (h : InUnit x) : le minusOne x = true :=
  (le_iff_val rfl h.1).mpr (by simpa using (abs_le.mp h.2).1)

theorem inUnit_negate {x : F} (h : InUnit x) : InUnit (negate x) :=
  ⟨by rw [isFinite_negate]; exact h.1, by rw [val_negate, abs_neg]; exact h.2⟩

theorem inUnit_lit_one : InUnit (lit 1) := ⟨isFinite_lit 1, by simp⟩

theorem inUnit_zero (neg : Bool) : InUnit (.fin neg 0 0) := ⟨rfl, by simp [val]⟩

theorem pow2Mag_lt_infMag (f : Format) : pow2Mag f 0 < infMag f := by cases f <;> decide

theorem ofMag_isFinite (f : Format) (neg : Bool) {k : Nat} (h : k < infMag f) : isFinite (ofMag f neg k) = true := by
  obtain ⟨m, e, hm, -⟩ := ofMag_finite f neg k h
  rw [hm]
  rfl

theorem val_ofMag_mono (f : Format) {j k : Nat} (hjk : j ≤ k) (h : k < infMag f) :
    val (ofMag f false j) ≤ val (ofMag f false k) := by
  rcases hjk.eq_or_lt with rfl | hlt
  · exact le_rfl
  · exact ((lt_iff_val (ofMag_isFinite f _ (hlt.trans h)) (ofMag_isFinite f _ h)).mp (ofMag_lt f hlt h)).le

theorem val_ofMag_nonneg (f : Format) {k : Nat} (h : k < infMag f) : 0 ≤ val (ofMag f false k) := by
  have hzero : ofMag f false 0 = zero := by cases f <;> decide
  simpa [hzero] using val_ofMag_mono f (Nat.zero_le k) h

/-- The patterns up to that of 1. -/
theorem inUnit_ofMag (f : Format) (neg : Bool) {k : Nat} (h : k ≤ pow2Mag f 0) : InUnit (ofMag f neg k) := by
  have hone : ofMag f false (pow2Mag f 0) = lit 1 := by cases f <;> decide
  have hk := h.trans_lt (pow2Mag_lt_infMag f)
  have hle := val_ofMag_mono f h (pow2Mag_lt_infMag f)
  have hpos : InUnit (ofMag f false k) :=
    ⟨ofMag_isFinite f _ hk, by rw [abs_of_nonneg (val_ofMag_nonneg f hk)]; simpa [hone] using hle⟩
  cases neg with
  | false => exact hpos
  | true =>
    rw [← Bool.not_false, ofMag_negate]
    exact inUnit_negate hpos

/-- The pattern that a code chooses up to `hi`. -/
theorem inMag_le {hi : Nat} (code : Nat) : 0 + code % (hi - 0 + 1) ≤ hi := by
  have := Nat.mod_lt code (Nat.succ_pos hi)
  simpa using Nat.lt_succ_iff.mp this

theorem inUnit_anyUnit (f : Format) (code : Nat) : InUnit (anyUnit f code) := inUnit_ofMag f _ (inMag_le _)

/-! ## `exp`, `cos` and `tanh` -/

/-- R94: in [0, 1] below zero. -/
theorem exp_of_neg (p : Params) {x : F} (hx : isFinite x = true) (h : val x < 0) : InUnit (exp p x) ∧ 0 ≤ val (exp p x) := by
  obtain ⟨neg, m, e, rfl⟩ := exists_fin_of_isFinite hx
  obtain ⟨rfl, hm⟩ := val_fin_lt_zero_iff.mp h
  simp only [exp, hm, if_false, if_true, inMag]
  have hle := inMag_le (hi := pow2Mag p.fmt 0) (Config.exp p (.fin true m e))
  exact ⟨inUnit_ofMag _ _ hle, val_ofMag_nonneg _ (hle.trans_lt (pow2Mag_lt_infMag _))⟩

/-- R96. -/
theorem inUnit_cos (p : Params) {x : F} (hx : isFinite x = true) : InUnit (cos p x) := by
  obtain ⟨neg, m, e, rfl⟩ := exists_fin_of_isFinite hx
  rw [cos]
  split
  · exact inUnit_lit_one
  · exact inUnit_anyUnit _ _

/-- R95: odd. -/
theorem tanh_negate (p : Params) (x : F) : tanh p (negate x) = negate (tanh p x) := by
  cases x with
  | nan => rfl
  | inf neg =>
    cases neg with
    | false => exact show minusOne = negate (lit 1) by decide
    | true => exact show lit 1 = negate minusOne by decide
  | fin neg m e =>
    simp only [tanh, negate]
    split
    · rfl
    · exact ofMag_negate _ _ _

theorem inUnit_tanh (p : Params) {x : F} (hx : isFinite x = true) : InUnit (tanh p x) := by
  obtain ⟨neg, m, e, rfl⟩ := exists_fin_of_isFinite hx
  rw [tanh]
  split
  · exact inUnit_zero neg
  · exact inUnit_ofMag _ _ (tanhMag_le p m e)

theorem val_tanh_pos (p : Params) (m : Nat) (e : Int) : 0 ≤ val (tanh p (.fin false m e)) := by
  rw [tanh]
  split
  · simp [val]
  · exact val_ofMag_nonneg _ ((tanhMag_le p m e).trans_lt (pow2Mag_lt_infMag _))

/-- Zero, or of the sign of its operand. -/
theorem val_tanh_nonneg (p : Params) {x : F} (hx : isFinite x = true) (h : 0 ≤ val x) : 0 ≤ val (tanh p x) := by
  obtain ⟨neg, m, e, rfl⟩ := exists_fin_of_isFinite hx
  cases neg with
  | false => exact val_tanh_pos p m e
  | true =>
    have hm : m = 0 := by simpa using mt val_fin_lt_zero_iff.mpr h.not_gt
    simp [tanh, hm, val]

/-- Of two numbers of sign +, in patterns. -/
theorem val_tanh_mono_pos (p : Params) {m k : Nat} {e d : Int} (hm : representable p.fmt (.fin false m e) = true)
    (hk : representable p.fmt (.fin false k d) = true) (h : val (.fin false m e) ≤ val (.fin false k d)) :
    val (tanh p (.fin false m e)) ≤ val (tanh p (.fin false k d)) := by
  have hle : (m : ℚ) * 2 ^ e ≤ k * 2 ^ d := by simpa [val] using h
  by_cases hm0 : m = 0
  · simpa [tanh, hm0, val] using val_tanh_pos p k d
  · have hk0 : k ≠ 0 := by
      rintro rfl
      have : (0 : ℚ) < m * 2 ^ e := by positivity
      rw [Nat.cast_zero, zero_mul] at hle
      exact hle.not_gt this
    simp only [tanh, hm0, hk0, if_false]
    exact val_ofMag_mono _ (tanhMag_mono p hm0 hk0 hm hk hle) ((tanhMag_le p k d).trans_lt (pow2Mag_lt_infMag _))

theorem tanh_zero (p : Params) (neg : Bool) : tanh p (.fin neg 0 0) = .fin neg 0 0 := rfl

/-- For all signs, since `tanh` is odd. -/
theorem val_tanh_mono (p : Params) {x y : F} (hx : isFinite x = true) (hy : isFinite y = true) (hrx : representable p.fmt x = true)
    (hry : representable p.fmt y = true) (h : val x ≤ val y) : val (tanh p x) ≤ val (tanh p y) := by
  obtain ⟨a, m, e, rfl⟩ := exists_fin_of_isFinite hx
  obtain ⟨b, k, d, rfl⟩ := exists_fin_of_isFinite hy
  have hodd (n : Nat) (c : Int) : val (tanh p (.fin true n c)) = -val (tanh p (.fin false n c)) := by
    rw [← val_negate, ← tanh_negate]
    rfl
  cases a with
  | false =>
    cases b with
    | false => exact val_tanh_mono_pos p hrx hry h
    | true =>
      have hm : 0 ≤ val (.fin false m e) := by rw [val_fin_pos]; positivity
      have hk : 0 ≤ val (.fin false k d) := by rw [val_fin_pos]; positivity
      rw [val_fin_neg] at h
      have hzero : val (.fin false 0 0) = 0 := val_zero
      have hm0 := val_tanh_mono_pos p hrx (zero_representable _) (by rw [hzero]; linarith)
      have hk0 := val_tanh_mono_pos p (m := k) (e := d) hry (zero_representable _) (by rw [hzero]; linarith)
      rw [tanh_zero, hzero] at hm0 hk0
      rw [hodd]
      linarith
  | true =>
    cases b with
    | false =>
      rw [hodd]
      exact (neg_nonpos.mpr (val_tanh_pos p m e)).trans (val_tanh_pos p k d)
    | true =>
      rw [val_fin_neg, val_fin_neg, neg_le_neg_iff] at h
      rw [hodd, hodd, neg_le_neg_iff]
      exact val_tanh_mono_pos p hry hrx h

/-- R95: never decreasing, up to `tanh(+inf) = 1`. -/
theorem tanh_mono (p : Params) {x y : F} (hx : isFinite x = true) (hrx : representable p.fmt x = true)
    (hry : representable p.fmt y = true) (h : le x y = true) : le (tanh p x) (tanh p y) = true := by
  obtain ⟨a, m, e, rfl⟩ := exists_fin_of_isFinite hx
  cases y with
  | nan => simp [le, lt, eq] at h
  | inf neg =>
    cases neg with
    | false => exact (inUnit_tanh p hx).le_one
    | true => simp [le, lt, eq] at h
  | fin b k d =>
    exact (le_iff_val (inUnit_tanh p hx).1 (inUnit_tanh p rfl).1).mpr
      (val_tanh_mono p hx rfl hrx hry ((le_iff_val hx rfl).mp h))

/-! ## `clip(1)` -/

/-- The quotient of a number and itself is rounded from the full significand, `2^(prec - 1)` units. -/
theorem roundQ_self (f : Format) (u : Underflow) {m : Nat} (hm : m ≠ 0) : roundQ f u false m m 0 = lit 1 := by
  have hlog : ilog2 m m 0 = 0 := by simp [ilog2]
  have hq : max ((0 : Int) - (prec f - 1 : Nat)) (minExp f) = -(prec f - 1 : Nat) := by cases f <;> decide
  have hk : roundHalfEven (m <<< (0 - -((prec f - 1 : Nat) : Int)).toNat) (m <<< (-((prec f - 1 : Nat) : Int) - 0).toNat) =
      2 ^ (prec f - 1) :=
    roundHalfEven_exact (by simpa using Nat.pos_of_ne_zero hm) (by simp [Nat.shiftLeft_eq])
  rw [roundQ, if_neg hm, hlog]
  dsimp only
  rw [hq, hk]
  cases f <;> cases u <;> decide

theorem saturated_one (p : Params) : saturated p (lit 1) = lit 1 := by
  obtain ⟨m, e, h, h0⟩ := tanh_one p
  simp [saturated, h, div, h0, roundQ_self]

theorem tanhPos (p : Params) : Safety.TanhPos p := by
  obtain ⟨m, e, h, h0⟩ := tanh_one p
  refine ⟨?_, by rw [h]; rfl⟩
  rw [h, lt_iff_val rfl rfl, val_zero, val_fin]
  simp only [signed, Bool.false_eq_true, if_false]
  positivity

/-- Settles O59: each property from the range, the order or the special value of its function. -/
theorem namedPropertiesOfNum : Obligations.NamedPropertiesOfNum := by
  intro p x hx
  have hcos := inUnit_cos p hx
  have htanh := inUnit_tanh p hx
  refine ⟨fun h => ?_, fun h => ⟨?_, htanh.le_one⟩, tanhPos p, saturated_one p, tanh_negate p x,
    fun y hrx hry h => tanh_mono p hx hrx hry h, hcos.minusOne_le, hcos.le_one, if_pos rfl, ?_, rfl, fun k => ?_⟩
  · obtain ⟨hunit, hpos⟩ := exp_of_neg p hx (by simpa using (lt_iff_val hx rfl).mp h)
    exact ⟨(le_iff_val rfl hunit.1).mpr (by simpa using hpos), hunit.le_one⟩
  · have hpos := val_tanh_nonneg p hx (by simpa using (le_iff_val rfl hx).mp h)
    exact (le_iff_val rfl htanh.1).mpr (by simpa using hpos)
  · rw [pow2, if_neg (by decide), if_pos rfl]
  · have hdraw : InUnit (draw p k) := inUnit_anyUnit _ _
    exact ⟨hdraw.minusOne_le, hdraw.le_one⟩

end Sys2Proof.Machine.Num
end

section
/-! A result of arithmetic is kept by adding a zero, in either underflow setting (R93). -/

namespace Sys2Proof.Machine.Num

/-- Not below the least normal number of the format. -/
def Normal (f : Format) (m : Nat) (e : Int) : Prop := minExp f + (prec f - 1 : Nat) ≤ (m.log2 : Int) + e

theorem mk_sign (neg : Bool) (m : Nat) (e : Int) : ∃ m' e', mk neg m e = .fin neg m' e' := by
  by_cases h : m = 0
  · exact ⟨0, 0, if_pos h⟩
  · obtain ⟨m', e', hmk, -⟩ := mk_ne_zero neg m e h
    exact ⟨m', e', hmk⟩

/-- Rounding keeps the sign. -/
theorem roundQ_sign (f : Format) (u : Underflow) (neg : Bool) (n d : Nat) (e : Int) :
    roundQ f u neg n d e = .inf neg ∨ ∃ m c, roundQ f u neg n d e = .fin neg m c := by
  unfold roundQ
  dsimp only
  split
  · exact .inr ⟨0, 0, rfl⟩
  · split
    · exact .inr ⟨0, 0, rfl⟩
    · split
      · exact .inl rfl
      · exact .inr (mk_sign _ _ _)

/-- With flush to zero a finite result that is no zero is normal. -/
theorem normal_of_roundQ_flush {f : Format} {neg : Bool} {n d m : Nat} {e c : Int}
    (h : roundQ f .flush neg n d e = .fin neg m c) (hm : m ≠ 0) : Normal f m c := by
  unfold roundQ at h
  dsimp only at h
  split at h
  · cases h
    exact absurd rfl hm
  · split at h
    · cases h
      exact absurd rfl hm
    next hk =>
      split at h
      · cases h
      · generalize hq : max (ilog2 n d e - (prec f - 1 : Nat)) (minExp f) = q at *
        generalize roundHalfEven (n <<< (e - q).toNat) (d <<< (q - e).toNat) = k at *
        have hfull : 2 ^ (prec f - 1) ≤ k := by simpa using hk
        have hk0 : k ≠ 0 := ((Nat.two_pow_pos _).trans_le hfull).ne'
        obtain ⟨m', j, hs, -, -, hlog⟩ := strip_spec k.log2 neg k q hk0 le_rfl
        rw [mk, if_neg hk0, hs] at h
        cases h
        have := (Nat.le_log2 hk0).mpr hfull
        unfold Normal
        omega

theorem log2_mul_two_pow {m : Nat} (hm : m ≠ 0) (j : Nat) : (m * 2 ^ j).log2 = m.log2 + j := by
  induction j with
  | zero => simp
  | succ j ih => rw [pow_succ', Nat.mul_left_comm, Nat.log2_two_mul (by positivity), ih, Nat.add_assoc]

theorem ilog2_integer {n : Nat} (hn : n ≠ 0) (e : Int) : ilog2 n 1 e = n.log2 + e := by
  have hle : 1 <<< n.log2 ≤ n := by
    rw [Nat.shiftLeft_eq, one_mul]
    exact Nat.log2_self_le hn
  simp [ilog2, hle, show Nat.log2 1 = 0 from by decide]

/-- A datum that the format holds is its own rounding: `roundQ_exact` over any lower power of two, in either underflow setting. -/
theorem roundQ_shift_exact (f : Format) (u : Underflow) (neg : Bool) {m : Nat} {e : Int} (j : Nat) (hm : m ≠ 0)
    (h : representable f (.fin neg m e) = true) (hu : u = .flush → Normal f m e) :
    roundQ f u neg (m * 2 ^ j) 1 (e - j) = .fin neg m e := by
  simp only [representable, hm, if_false, Bool.and_eq_true, beq_iff_eq, decide_eq_true_eq] at h
  obtain ⟨⟨⟨hodd, hlt⟩, he⟩, hmax⟩ := h
  have hlog : m.log2 < prec f := (Nat.log2_lt hm).mpr hlt
  have hlow : ilog2 (m * 2 ^ j) 1 (e - j) = m.log2 + e := by
    rw [ilog2_integer (by positivity), log2_mul_two_pow hm]
    push_cast
    omega
  rw [roundQ, if_neg (by positivity), hlow]
  set q := max ((m.log2 : Int) + e - (prec f - 1 : Nat)) (minExp f) with hq
  obtain ⟨i, hi⟩ := Int.eq_ofNat_of_zero_le (show 0 ≤ e - q by omega)
  have hk : roundHalfEven ((m * 2 ^ j) <<< (e - j - q).toNat) (1 <<< (q - (e - j)).toNat) = m * 2 ^ i := by
    refine roundHalfEven_exact (by simp [Nat.shiftLeft_eq]) ?_
    rw [Nat.shiftLeft_eq, Nat.shiftLeft_eq, one_mul, Nat.mul_left_comm, mul_assoc, ← pow_add, ← pow_add]
    congr 2
    omega
  have hkeep : ¬ (u = .flush ∧ m * 2 ^ i < 2 ^ (prec f - 1)) := by
    rintro ⟨hflush, hsub⟩
    have hnormal := hu hflush
    have hsub := (Nat.log2_lt (by positivity)).mpr hsub
    rw [Normal] at hnormal
    rw [log2_mul_two_pow hm] at hsub
    omega
  have hfits : ¬ maxLog f < ((m * 2 ^ i).log2 : Int) + q := by
    rw [log2_mul_two_pow hm]
    push_cast
    omega
  dsimp only
  rw [hk, if_neg hkeep, if_neg hfits, mk_shift neg m q i hodd]
  congr 1
  omega

/-- The sum with a zero is the number over a common power of two. -/
theorem add_fin_zero (p : Params) {m : Nat} (hm : m ≠ 0) (e : Int) (b : Bool) :
    ∃ j : Nat, add p (.fin false m e) (.fin b 0 0) = roundQ p.fmt p.underflow false (m * 2 ^ j) 1 (e - j) := by
  refine ⟨(e - min e 0).toNat, ?_⟩
  rw [show e - ((e - min e 0).toNat : Int) = min e 0 by omega]
  generalize hj : (e - min e 0).toNat = j
  have hsum : aligned false m e (min e 0) + aligned b 0 0 (min e 0) = ((m * 2 ^ j : Nat) : Int) := by
    cases b <;> simp [aligned, signed, Nat.shiftLeft_eq, hj]
  have hpos : m * 2 ^ j ≠ 0 := by positivity
  simp only [add, hsum]
  rw [if_neg (by exact_mod_cast hpos), decide_eq_false (by omega), Int.natAbs_natCast]

/-- A rounded result is kept by adding a zero. -/
theorem add_roundQ_zero (p : Params) (n : Nat) {d : Nat} (e : Int) (b : Bool) (hd : d ≠ 0) :
    add p (roundQ p.fmt p.underflow false n d e) (.fin b 0 0) = roundQ p.fmt p.underflow false n d e := by
  have hrep := roundQ_representable p.fmt p.underflow false n d e hd
  obtain h | ⟨m, c, h⟩ := roundQ_sign p.fmt p.underflow false n d e
  · rw [h]
    rfl
  · rw [h] at hrep ⊢
    by_cases hm : m = 0
    · obtain rfl : c = 0 := by simpa [representable, hm] using hrep
      simp [hm, add, aligned, signed]
    · obtain ⟨j, hadd⟩ := add_fin_zero p hm c b
      rw [hadd]
      exact roundQ_shift_exact _ _ _ j hm hrep fun hu => normal_of_roundQ_flush (hu ▸ h) hm

end Sys2Proof.Machine.Num
end

section
/-! The factor `alpha` of an envelope in WCD (R94, R116), and the update with a zero target (R112 corner cases 2 and 3). -/

namespace Sys2Proof.Machine.Num

open Claims (val overflowAt)

/-! ## Signs and finiteness -/

theorem positive_iff {x : F} : positive x = true ↔ ∃ m e, x = .fin false m e ∧ m ≠ 0 := by
  cases x with
  | fin neg m e =>
    have hpos : positive (.fin neg m e) = true ↔ 0 < val (.fin neg m e) := by
      rw [← val_zero, ← lt_iff_val rfl rfl]
      simp [positive, isFinite]
    have hpow : (0 : ℚ) < 2 ^ e := by positivity
    rw [hpos, val_fin, mul_pos_iff_of_pos_right hpow, Int.cast_pos]
    cases neg <;> simp [signed, Nat.pos_iff_ne_zero]
  | _ => simp [positive, isFinite]

/-- A positive number times a positive number is one of sign +, an overflow included. -/
theorem mul_positive_sign (p : Params) {x y : F} (hx : positive x = true) (hy : positive y = true) :
    mul p x y = .inf false ∨ ∃ m e, mul p x y = .fin false m e := by
  obtain ⟨m, e, rfl, -⟩ := positive_iff.mp hx
  obtain ⟨k, d, rfl, -⟩ := positive_iff.mp hy
  exact roundQ_sign ..

/-- The division of -1 by a number of sign +, a zero and an infinity included. -/
theorem minusOne_div_sign (p : Params) {y : F} (hy : y = .inf false ∨ ∃ m e, y = .fin false m e) :
    div p minusOne y = .inf true ∨ ∃ m e, div p minusOne y = .fin true m e := by
  obtain rfl | ⟨m, e, rfl⟩ := hy
  · exact .inr ⟨0, 0, rfl⟩
  · by_cases hm : m = 0
    · exact .inl (by simp [minusOne, div, hm])
    · rw [minusOne, div, if_neg hm]
      exact roundQ_sign ..

/-- R94, for operands of sign -, the zero and the infinity included: in [0, 1] and of sign +. -/
theorem exp_of_sign (p : Params) {x : F} (hx : x = .inf true ∨ ∃ m e, x = .fin true m e) :
    ∃ k d, exp p x = .fin false k d ∧ InUnit (.fin false k d) := by
  obtain rfl | ⟨m, e, rfl⟩ := hx
  · exact ⟨0, 0, rfl, inUnit_zero false⟩
  · by_cases hm : m = 0
    · exact ⟨1, 0, if_pos hm, inUnit_lit_one⟩
    · have hle := inMag_le (hi := pow2Mag p.fmt 0) (Config.exp p (.fin true m e))
      obtain ⟨k, d, hk, -⟩ := ofMag_finite p.fmt false _ (hle.trans_lt (pow2Mag_lt_infMag _))
      have hunit := inUnit_ofMag p.fmt false hle
      rw [hk] at hunit
      refine ⟨k, d, ?_, hunit⟩
      rw [← hk]
      simp [exp, hm, inMag]

/-! ## The complement of a factor -/

/-- A finite result with gradual underflow is finite in either setting. -/
theorem isFinite_roundQ {f : Format} {neg : Bool} {n d : Nat} {e : Int} (u : Underflow)
    (h : isFinite (roundQ f .gradual neg n d e) = true) : isFinite (roundQ f u neg n d e) = true := by
  unfold roundQ at h ⊢
  dsimp only at h ⊢
  split
  · rfl
  next hn =>
    rw [if_neg hn, if_neg (by simp)] at h
    split
    · rfl
    · exact h

/-- A sum below the overflow bound is finite. -/
theorem isFinite_add {p : Params} {x y : F} (hx : isFinite x = true) (hy : isFinite y = true)
    (h : |val x + val y| < overflowAt p.fmt) : isFinite (add p x y) = true := by
  have hround := ((add_rounded (p := { p with underflow := .gradual }) rfl hx hy).1 h).1
  obtain ⟨a, m, e, rfl⟩ := exists_fin_of_isFinite hx
  obtain ⟨b, k, d, rfl⟩ := exists_fin_of_isFinite hy
  simp only [add] at hround ⊢
  split
  · rfl
  next hs =>
    rw [if_neg hs] at hround
    exact isFinite_roundQ _ hround

theorem isFinite_one_sub (p : Params) {k : Nat} {d : Int} (h : InUnit (.fin false k d)) :
    isFinite (sub p (lit 1) (.fin false k d)) = true := by
  have hle := (abs_le.mp h.2).2
  have hnonneg : 0 ≤ val (.fin false k d) := by
    rw [val_fin_pos]
    positivity
  have hone : (1 : ℚ) < 2 ^ prec p.fmt := one_lt_pow₀ one_lt_two (by cases p.fmt <;> decide)
  refine isFinite_add (isFinite_lit 1) rfl (lt_of_le_of_lt ?_ (hone.trans_le (two_pow_prec_le_overflowAt p.fmt)))
  rw [val_negate, val_lit, Nat.cast_one, abs_le]
  constructor <;> linarith

/-! ## The update with target 0 -/

theorem mul_fin_zero (p : Params) (a b : Bool) (m : Nat) (e : Int) : mul p (.fin a m e) (.fin b 0 0) = .fin (a != b) 0 0 := by
  simp [mul, roundQ]

end Sys2Proof.Machine.Num

namespace Sys2Proof.Machine

/-- In WCD the factor is in [0, 1] and of sign +, whether or not the product or the quotient in it over- or underflows. -/
theorem alpha_inUnit (p : Params) {sr tc : F} (hsr : Num.positive sr = true) (htc : Num.positive tc = true) :
    ∃ k d, alpha p sr tc = .fin false k d ∧ Num.InUnit (.fin false k d) :=
  Num.exp_of_sign p (Num.minusOne_div_sign p (Num.mul_positive_sign p hsr htc))

/-- With target 0 the second term is a zero, and the update is the product with the factor. -/
theorem approach_zero (p : Params) (m k : Nat) (e d : Int) (h : Num.InUnit (.fin false k d)) :
    approach p (.fin false m e) (.fin false k d) Num.zero = Num.mul p (.fin false m e) (.fin false k d) := by
  obtain ⟨a, n, c, hsub⟩ := Num.exists_fin_of_isFinite (Num.isFinite_one_sub p h)
  rw [approach, hsub, Num.zero, Num.mul_fin_zero]
  exact Num.add_roundQ_zero p (m * k) (e + d) _ one_ne_zero

end Sys2Proof.Machine
end

section
/-! The ADSR commands: what a tick reads, computes and writes (R110 to R112), and the three commands that set the registers (R113 to R115). -/

namespace Sys2Proof.Machine

open Claims (Choice seen timeConstant beta envOut)
open Safety (paramOk)

/-! ## The phase transition (R111) -/

namespace Num

theorem lt_asymm {x y : F} (h : lt x y = true) : lt y x = false := by
  cases x <;> cases y
  case fin.fin =>
    rw [lt_iff_val rfl rfl] at h
    exact Bool.eq_false_iff.mpr fun hgt => h.not_gt ((lt_iff_val rfl rfl).mp hgt)
  all_goals simp_all [lt]

theorem eq_symm {x y : F} (h : eq x y = true) : eq y x = true := by
  cases x <;> cases y
  case fin.fin => exact (eq_iff_val rfl rfl).mpr ((eq_iff_val rfl rfl).mp h).symm
  all_goals simp_all [eq]

theorem not_lt_of_eq {x y : F} (h : eq x y = true) : lt x y = false := by
  cases x <;> cases y
  case fin.fin =>
    rw [eq_iff_val rfl rfl] at h
    exact Bool.eq_false_iff.mpr fun hlt => h.not_lt ((lt_iff_val rfl rfl).mp hlt)
  all_goals simp_all [eq, lt]

end Num

section
variable (p : Params) (phase : Phase) {out : F}

@[simp] theorem nextPhase_gate_off (out : F) : nextPhase p false phase out = .release := by simp [nextPhase]

theorem nextPhase_below (h : Num.lt out (Num.thresh p) = true) :
    nextPhase p true phase out = if phase = .decaySustain then .decaySustain else .attack := by
  cases phase <;> simp [nextPhase, h, Num.gt, Num.lt_asymm h]

theorem nextPhase_above (h : Num.gt out (Num.thresh p) = true) : nextPhase p true phase out = .decaySustain := by
  simp [nextPhase, h, Num.lt_asymm h]

/-- Neither below nor above: at the threshold, or a NaN. -/
theorem nextPhase_between (hlt : Num.lt out (Num.thresh p) = false) (hgt : Num.gt out (Num.thresh p) = false) :
    nextPhase p true phase out = phase := by
  simp [nextPhase, hlt, hgt]

end

theorem zero_lt_thresh (p : Params) : Num.lt Num.zero (Num.thresh p) = true := by
  unfold Num.thresh
  cases p.fmt <;> decide

/-! ## The tick -/

@[simp] theorem State.env_returnOne (s : State) (v : F) (e : Env) : (s.returnOne v).env e = s.env e := by cases e <;> rfl

theorem State.setEnv_env (s : State) (e : Env) : s.setEnv e (s.env e) = s := by cases e <;> rfl

theorem exec_envTick (e : Env) (s : State) : exec (.envTick e) s = .next ((envTick e s).2.returnOne (envTick e s).1) := rfl

/-- The registers of the envelope after a tick. -/
theorem envTick_env (e : Env) (s : State) : (envTick e s).2.env e =
    { gate := (s.env e).gate, phase := nextPhase s.par (s.env e).gate (s.env e).phase (s.env e).out, out := (envTick e s).1 } := by
  obtain ⟨t, -, ht⟩ := envTick_spec e s
  rw [ht, State.env_setEnv_self]

/-- Settles O20: each row of R111's table is an equation of `nextPhase`. -/
theorem phaseTransitionTable : Obligations.PhaseTransitionTable := by
  intro e s r th
  refine ⟨_, exec_envTick e s, ?_⟩
  simp only [State.env_returnOne, envTick_env]
  refine ⟨rfl, fun hgate => ?_, fun hgate h => ?_, fun hgate h => ?_, fun hgate h => ?_, fun hgate h => ?_⟩
  all_goals rw [show (s.env e).gate = _ from hgate]
  · exact nextPhase_gate_off ..
  · exact nextPhase_below _ _ h
  · exact nextPhase_between _ _ (Num.not_lt_of_eq h) (Num.not_lt_of_eq (Num.eq_symm h))
  · exact nextPhase_above _ _ h
  · rw [show (s.env e).out = _ from h]
    exact nextPhase_between _ _ rfl (by cases Num.thresh s.par <;> rfl)

/-! ## The output (R110, R112, R116) -/

theorem timeConstant_eq (store : Vector P 20) (e : Env) (ph : Phase) :
    timeConstant store e ph = Num.toF store[timeIdx e ph] := by
  cases e <;> cases ph <;> rfl

theorem timeIdx_ne_sustainIdx (e : Env) (ph : Phase) : timeIdx e ph ≠ sustainIdx e := by
  cases e <;> cases ph <;> decide

/-- The target is a constant, or the sustain level as read. -/
theorem readTarget_eq_beta {s : State} {e : Env} {store : Vector P 20} (h : (s.readParam (sustainIdx e)).1 = store[sustainIdx e])
    (ph : Phase) : (s.readTarget e ph).1 = beta store e ph := by
  cases ph with
  | attack => rfl
  | decaySustain =>
    rw [State.readTarget, State.readF, h]
    cases e <;> rfl
  | release => rfl

/-- The output of a tick, by the values that its two reads return. -/
theorem envTick_eq_envOut {e : Env} {s : State} {store : Vector P 20} {ph : Phase}
    (hph : ph = nextPhase s.par (s.env e).gate (s.env e).phase (s.env e).out)
    (htime : (s.readParam (timeIdx e ph)).1 = store[timeIdx e ph])
    (hlevel : ((s.readParam (timeIdx e ph)).2.readParam (sustainIdx e)).1 = store[sustainIdx e]) :
    (envTick e s).1 = envOut s.par s.sr.value (s.env e).out (timeConstant store e ph) (beta store e ph) := by
  subst hph
  rw [timeConstant_eq, ← htime, ← readTarget_eq_beta hlevel]
  rfl

/-- With no write in flight the tick changes the registers of its envelope alone. -/
theorem envTick_of_quiet (e : Env) {s : State} (h : s.quiet = true) : (envTick e s).2 = s.setEnv e
    { gate := (s.env e).gate, phase := nextPhase s.par (s.env e).gate (s.env e).phase (s.env e).out, out := (envTick e s).1 } := by
  have htarget (ph : Phase) : (s.readTarget e ph).2 = s := by
    cases ph <;> simp [State.readTarget, State.readF_of_quiet h]
  simp only [envTick, State.readF_of_quiet h, htarget]

/-- Choices for two parameters are part of a choice for all. -/
theorem exists_choice {s : State} {i j : Fin 20} (hij : i ≠ j) {a b : Nat} (ha : a ≤ (pending i s.inFlight).length)
    (hb : b ≤ (pending j s.inFlight).length) : ∃ c, Choice s c ∧ c i = a ∧ c j = b := by
  refine ⟨Function.update (Function.update (fun _ => 0) i a) j b, fun k => ?_, by simp [hij], by simp⟩
  by_cases hkj : k = j
  · simpa [hkj] using hb
  · by_cases hki : k = i
    · simpa [hki, hij] using ha
    · simp [hkj, hki]

theorem seen_getElem (s : State) (c : Fin 20 → Nat) (i : Fin 20) : (seen s c)[i] = (s.visible i).getD (c i) 0 := by
  simp [seen, State.visible]

/-- Under a race each of the two reads returns an old or a new value of its own parameter (R56, R58). -/
theorem envTick_reads (e : Env) (s : State) {ph : Phase}
    (hph : ph = nextPhase s.par (s.env e).gate (s.env e).phase (s.env e).out) :
    ∃ c, Choice s c ∧ (envTick e s).1 =
      envOut s.par s.sr.value (s.env e).out (timeConstant (seen s c) e ph) (beta (seen s c) e ph) := by
  have hne := timeIdx_ne_sustainIdx e ph
  obtain ⟨a, ha, htime⟩ := readParam_of_visible_eq (s := s) (i := timeIdx e ph) rfl
  obtain ⟨b, hb, hlevel⟩ := readParam_of_visible_eq (visible_readParam_other s hne.symm)
  obtain ⟨c, hc, rfl, rfl⟩ := exists_choice hne ha hb
  exact ⟨c, hc, envTick_eq_envOut hph (by rw [htime, seen_getElem]) (by rw [hlevel, seen_getElem])⟩

/-- Settles O21: `envTick_eq_envOut` with the stored values, or with those that the reads return under a race. -/
theorem envTickComputesTheNextOutput : Obligations.EnvTickComputesTheNextOutput := by
  intro e s ph o after
  refine ⟨fun hquiet => ?_, ?_⟩
  · have hout : (envTick e s).1 = o s.store :=
      envTick_eq_envOut rfl (by rw [State.readParam_of_quiet hquiet]) (by simp only [State.readParam_of_quiet hquiet])
    rw [exec_envTick, envTick_of_quiet e hquiet, hout, State.returnOne, State.setEnv_free]
    rfl
  · obtain ⟨c, hc, hout⟩ := envTick_reads e s rfl
    obtain ⟨t, hreads, ht⟩ := envTick_spec e s
    refine ⟨_, c, (envTick e s).2.free, exec_envTick e s, hc, ?_⟩
    rw [ht, hout, show t = _ from hreads]
    cases e <;> rfl

/-! ## A tick in Release, in WCD (R112 corner cases 2 and 3) -/

theorem isTime_releaseIdx (e : Env) : Safety.isTime (releaseIdx e) = true := by cases e <;> decide

/-- Whatever a read of a time constant returns is positive, if all that it may return are. -/
theorem positive_readF {s : State} {i : Fin 20} (htime : Safety.isTime i = true) (h : paramOk s i = true) :
    Num.positive (s.readF i).1 = true := by
  have hrange := List.all_eq_true.mp h _ (readParam_mem_visible s i)
  rwa [Safety.inRange, if_pos htime] at hrange

section
variable {e : Env} {s : State}

/-- A Release tick multiplies the output by the factor of the release time as read, also under a race. -/
theorem envTick_release {m : Nat} {x : Int} (hgate : (s.env e).gate = false) (hout : (s.env e).out = .fin false m x)
    (hsr : Num.positive s.sr.value = true) (htime : paramOk s (releaseIdx e) = true) :
    (envTick e s).1 = Num.mul s.par (.fin false m x) (alpha s.par s.sr.value (s.readF (releaseIdx e)).1) := by
  obtain ⟨k, d, halpha, hunit⟩ := alpha_inUnit s.par hsr (positive_readF (isTime_releaseIdx e) htime)
  have htick : (envTick e s).1 =
      approach s.par (s.env e).out (alpha s.par s.sr.value (s.readF (releaseIdx e)).1) Num.zero := by
    simp only [envTick, hgate, nextPhase_gate_off]
    rfl
  rw [htick, hout, halpha, approach_zero _ _ _ _ _ hunit]

/-- The same with no write in flight, in the terms of the rule. -/
theorem envTick_release_of_quiet {m : Nat} {x : Int} (hgate : (s.env e).gate = false) (hout : (s.env e).out = .fin false m x)
    (hquiet : s.quiet = true) (hsr : Num.positive s.sr.value = true) (htime : paramOk s (releaseIdx e) = true) :
    (envTick e s).1 = Num.mul s.par (.fin false m x)
      (Claims.alphaOf s.par s.sr.value (timeConstant s.store e .release)) := by
  rw [envTick_release hgate hout hsr htime, State.readF_of_quiet hquiet, timeConstant_eq]
  rfl

/-- From rest the product is the zero of sign +, whatever the factor. -/
theorem envTick_rest (hrest : s.env e = .rest) (hsr : Num.positive s.sr.value = true)
    (htime : paramOk s (releaseIdx e) = true) : (envTick e s).1 = Num.zero := by
  obtain ⟨k, d, halpha, -⟩ := alpha_inUnit s.par hsr (positive_readF (isTime_releaseIdx e) htime)
  rw [envTick_release (by rw [hrest]; rfl) (by rw [hrest]; rfl) hsr htime, halpha, Num.mul_zero_fin]
  rfl

end

/-- Settles O25: the output is the zero of sign + again, and with the gate off the phase is Release. -/
theorem envelopeAtRestStaysSilent : Obligations.EnvelopeAtRestStaysSilent := by
  intro e s hrest hsr htime
  refine ⟨_, exec_envTick e s, ?_, ?_⟩
  · rw [State.env_returnOne, envTick_env, envTick_rest hrest hsr htime, hrest]
    simp [EnvRegs.rest]
  · rw [envTick_rest hrest hsr htime]
    rfl

/-- Settles O26: the second term of R112 is a zero. -/
theorem releaseTickScalesTheOutput : Obligations.ReleaseTickScalesTheOutput := by
  intro e s m x hgate hout _ hquiet hsr htime
  refine ⟨_, exec_envTick e s, ?_, ?_⟩
  all_goals rw [State.env_returnOne, envTick_env]
  · simp [hgate]
  · exact envTick_release_of_quiet hgate hout hquiet hsr htime

/-! ## The commands that set registers (R113 to R115) -/

/-- GATE_ON and GATE_OFF twice. -/
theorem setGate_setEnv (e : Env) (b : Bool) (s : State) :
    setGate e b (s.setEnv e { s.env e with gate := b }) = s.setEnv e { s.env e with gate := b } := by
  cases e <;> rfl

theorem setGate_of_gate {e : Env} {b : Bool} {s : State} (h : (s.env e).gate = b) : setGate e b s = s := by
  subst h
  exact s.setEnv_env e

theorem paramOk_setEnv (s : State) (e : Env) (r : EnvRegs) (i : Fin 20) : paramOk (s.setEnv e r) i = paramOk s i := by
  simp [paramOk]

theorem quiet_setEnv (s : State) (e : Env) (r : EnvRegs) : (s.setEnv e r).quiet = s.quiet := by simp [State.quiet]

/-- Settles O22: the gate is the only field of the new registers that differs. -/
theorem gateOnSetsTheGateOnly : Obligations.GateOnSetsTheGateOnly := by
  refine ⟨fun e s => ⟨rfl, ?_, fun hgate => ?_, ⟨_, exec_envTick .., ?_⟩, fun hrest => ⟨_, _, rfl, ?_, exec_envTick .., ?_⟩⟩,
    decodeCmd_envGateOn⟩
  · exact congrArg Host.Outcome.next (setGate_setEnv e true s)
  · exact congrArg Host.Outcome.next (setGate_of_gate hgate)
  · simp [envTick_env]
  · simp [setGate, hrest, EnvRegs.rest, Num.zero]
  · simp [envTick_env, setGate, hrest, EnvRegs.rest, nextPhase_below _ _ (zero_lt_thresh s.par)]

/-- Settles O23: likewise, and with the gate off every tick is a Release tick. -/
theorem gateOffSetsTheGateOnly : Obligations.GateOffSetsTheGateOnly := by
  refine ⟨fun e s => ⟨rfl, ?_, _, exec_envTick .., ?_, ?_, fun hout hquiet hsr htime => ?_⟩, decodeCmd_envGateOff⟩
  · exact congrArg Host.Outcome.next (setGate_setEnv e false s)
  · simp [envTick_env]
  · simp [envTick_env]
  · have htick := envTick_release_of_quiet (e := e) (s := s.setEnv e { s.env e with gate := false }) (m := 1) (x := -1)
      (by simp) (by simp [hout, Num.half]) (by rwa [quiet_setEnv]) (by rwa [State.setEnv_sr]) (by rwa [paramOk_setEnv])
    rw [State.env_returnOne, envTick_env, htick, State.setEnv_par, State.setEnv_sr, State.setEnv_store]
    rfl

/-- Settles O24: the registers written are those of `EnvRegs.rest`, from which a tick is silent. -/
theorem retrigGivesTheRestState : Obligations.RetrigGivesTheRestState := by
  refine ⟨fun e s => ⟨rfl, ⟨_, rfl, ?_⟩, fun hrest => ?_, fun hsr htime => ?_⟩, decodeCmd_envRetrig⟩
  · cases e <;> rfl
  · exact congrArg Host.Outcome.next ((congrArg (s.setEnv e) hrest.symm).trans (s.setEnv_env e))
  · exact envelopeAtRestStaysSilent e _ (State.env_setEnv_self ..) (by rwa [State.setEnv_sr]) (by rwa [paramOk_setEnv])

end Sys2Proof.Machine
end

section
/-! The zero products and sums of the modulation formulas and of the generators at the argument 0 (R93). -/

namespace Sys2Proof.Machine.Num

open Claims (val Rounded overflowAt)

/-! ## Bounds -/

/-- A datum of the format is below the overflow bound: it is its own rounding, and no infinity. -/
theorem abs_val_lt_overflowAt {f : Format} {x : F} (hfin : isFinite x = true) (hrep : representable f x = true) :
    |val x| < overflowAt f := by
  obtain ⟨neg, m, e, rfl⟩ := exists_fin_of_isFinite hfin
  by_cases hm : m = 0
  · simpa [val, hm] using overflowAt_pos f
  · have hround : Rounded f (val (.fin neg m e)) (.fin neg m e) := by
      have h := roundQ_rounded f neg m e one_ne_zero
      rwa [roundQ_exact f neg m e hm hrep, Nat.cast_one, div_one, ← val_fin] at h
    by_contra hover
    exact F.noConfusion (hround.2 (not_lt.mp hover))

/-- Rounding does not leave an interval whose ends the format holds. -/
theorem val_mem_Icc_of_rounded {f : Format} {X : ℚ} {r a b : F} (h : Rounded f X r) (hX : |X| < overflowAt f)
    (ha : isFinite a = true) (hra : representable f a = true) (hb : isFinite b = true) (hrb : representable f b = true)
    (hmem : X ∈ Set.Icc (val a) (val b)) : val r ∈ Set.Icc (val a) (val b) := by
  obtain ⟨-, -, hnear⟩ := h.1 hX
  have hlow := (hnear a ha hra).1
  have hhigh := (hnear b hb hrb).1
  rw [abs_of_nonpos (sub_nonpos.mpr hmem.1), abs_le] at hlow
  rw [abs_of_nonneg (sub_nonneg.mpr hmem.2), abs_le] at hhigh
  constructor <;> linarith

theorem representable_lit_one (f : Format) : representable f (lit 1) = true := by cases f <;> decide

/-- The complement of a number in [0, 1] is in [0, 1]. -/
theorem one_sub_inUnit {p : Params} (hp : p.underflow = .gradual) {m : Nat} {e : Int} (h : InUnit (.fin false m e)) :
    InUnit (sub p (lit 1) (.fin false m e)) := by
  have hle : val (.fin false m e) ≤ 1 := (abs_le.mp h.2).2
  have hnonneg : 0 ≤ val (.fin false m e) := by
    rw [val_fin_pos]
    positivity
  have hmem : val (lit 1) - val (.fin false m e) ∈ Set.Icc (val zero) (val (lit 1)) := by
    simp [hle, hnonneg]
  have hbound : |val (lit 1) - val (.fin false m e)| < overflowAt p.fmt := by
    refine lt_of_le_of_lt ?_ (abs_val_lt_overflowAt (isFinite_lit 1) (representable_lit_one p.fmt))
    rw [abs_of_nonneg (by simpa using hle), abs_of_nonneg (by simp)]
    linarith
  obtain ⟨hlow, hhigh⟩ := val_mem_Icc_of_rounded (sub_rounded hp (isFinite_lit 1) rfl) hbound rfl (zero_representable _)
    (isFinite_lit 1) (representable_lit_one _) hmem
  simp only [val_zero, val_lit, Nat.cast_one] at hlow hhigh
  exact ⟨isFinite_one_sub p h, abs_le.mpr ⟨by linarith, hhigh⟩⟩

/-- A product with a factor in [-1, 1] does not overflow. -/
theorem isFinite_mul_of_inUnit {p : Params} (hp : p.underflow = .gradual) {x y : F} (hx : InUnit x)
    (hy : isFinite y = true) (hrep : representable p.fmt y = true) : isFinite (mul p x y) = true := by
  refine ((mul_rounded hp hx.1 hy).1 (lt_of_le_of_lt ?_ (abs_val_lt_overflowAt hy hrep))).1
  rw [abs_mul]
  exact mul_le_of_le_one_left (abs_nonneg _) hx.2

/-! ## Products and sums with a zero -/

/-- Only a zero, of either sign, has the value 0. -/
theorem val_fin_eq_zero_iff {neg : Bool} {m : Nat} {e : Int} : val (.fin neg m e) = 0 ↔ m = 0 := by
  have hpow : (2 : ℚ) ^ e ≠ 0 := by positivity
  cases neg <;> simp [val, hpow]

/-- A product of finite numbers with a zero among them is a zero. -/
theorem mul_eq_zero_of_val {p : Params} {x y : F} (hx : isFinite x = true) (hy : isFinite y = true)
    (h : val x = 0 ∨ val y = 0) : ∃ neg, mul p x y = .fin neg 0 0 := by
  obtain ⟨a, m, e, rfl⟩ := exists_fin_of_isFinite hx
  obtain ⟨b, k, d, rfl⟩ := exists_fin_of_isFinite hy
  have hprod : m * k = 0 := Nat.mul_eq_zero.mpr (h.imp val_fin_eq_zero_iff.mp val_fin_eq_zero_iff.mp)
  exact ⟨a != b, by simp [mul, hprod, roundQ]⟩

/-- With gradual underflow a datum of sign + is kept by adding a zero. -/
theorem add_zero_of_representable {p : Params} (hp : p.underflow = .gradual) {m : Nat} {e : Int}
    (hrep : representable p.fmt (.fin false m e) = true) (b : Bool) :
    add p (.fin false m e) (.fin b 0 0) = .fin false m e := by
  by_cases hm : m = 0
  · obtain rfl : e = 0 := by simpa [representable, hm] using hrep
    simp [hm, add, aligned, signed]
  · obtain ⟨j, hadd⟩ := add_fin_zero p hm e b
    rw [hadd]
    exact roundQ_shift_exact _ _ _ j hm hrep fun hflush => by simp [hp] at hflush

section
variable (p : Params) {x y : F}

theorem zero_mul_of_positive (hy : positive y = true) : mul p zero y = zero := by
  obtain ⟨m, e, rfl, -⟩ := positive_iff.mp hy
  exact mul_zero_fin p false false m e

theorem zero_div_of_positive (hy : positive y = true) : div p zero y = zero := by
  obtain ⟨m, e, rfl, hm⟩ := positive_iff.mp hy
  simp [zero, div, hm, roundQ]

/-- A finite quotient of positive numbers times +0. -/
theorem div_mul_zero (hx : positive x = true) (hy : positive y = true) (hfin : isFinite (div p x y) = true) :
    mul p (div p x y) zero = zero := by
  obtain ⟨m, e, rfl, -⟩ := positive_iff.mp hx
  obtain ⟨k, d, rfl, hk⟩ := positive_iff.mp hy
  rw [div, if_neg hk] at hfin ⊢
  obtain h | ⟨n, c, h⟩ := roundQ_sign p.fmt p.underflow (false != false) m k (e - d)
  · rw [h] at hfin
    cases hfin
  · rw [h]
    exact mul_fin_zero p false false n c

theorem positive_pi : positive (pi p) = true := by
  unfold pi
  cases p.fmt <;> decide

/-- `acos(1) = +0` (R97). -/
theorem acos_one : acos p (lit 1) = zero := if_pos (by decide)

theorem zero_add_half : add p zero half = half := by
  change roundQ p.fmt p.underflow false 1 1 (-1) = half
  cases p.fmt <;> cases p.underflow <;> decide

theorem floor_half : floor p half = zero := rfl

theorem one_add_one : add p (lit 1) (lit 1) = lit 2 := by
  rw [show lit 1 = .fin false 1 0 from by decide]
  change roundQ p.fmt p.underflow false 2 1 0 = lit 2
  cases p.fmt <;> cases p.underflow <;> decide

theorem two_div_two : div p (lit 2) (lit 2) = lit 1 := by
  rw [show lit 2 = .fin false 1 1 from by decide]
  exact roundQ_self p.fmt p.underflow one_ne_zero

theorem one_sub_zero : sub p (lit 1) zero = lit 1 := by
  rw [show lit 1 = .fin false 1 0 from by decide]
  change roundQ p.fmt p.underflow false 1 1 0 = .fin false 1 0
  cases p.fmt <;> cases p.underflow <;> decide

/-- `2/PI` is finite: `PI` is the odd significand times the power of two in either format (R91). -/
theorem isFinite_two_div_pi : isFinite (div p (lit 2) (pi p)) = true := by
  have htwo : lit 2 = .fin false 1 1 := by decide
  have hpi32 : ofMag .binary32 false (piMag .binary32) = .fin false 13176795 (-22) := by decide
  have hpi64 : ofMag .binary64 false (piMag .binary64) = .fin false 884279719003555 (-48) := by decide
  cases hf : p.fmt
  case binary32 =>
    rw [pi, hf, hpi32, htwo, div, hf]
    cases p.underflow <;> decide
  case binary64 =>
    rw [pi, hf, hpi64, htwo, div, hf]
    cases p.underflow <;> decide

end

end Sys2Proof.Machine.Num
end

section
/-! The VCO commands: the carried width (R138), the signals of a tick at the argument 0 (R130 to R136) and the mix (R139). -/

namespace Sys2Proof.Machine

open Claims (Choice seen width mixed val)

/-! ## VCO.MOD_PW -/

/-- With no write in flight VCO.MOD_PW writes the carried width alone. -/
theorem vcoModPw_of_quiet (cv : F) {s : State} (h : s.quiet = true) :
    vcoModPw cv s = s.setPw (width s.par (Num.toF s.store[pPulseWidth]) cv (Num.toF s.store[pPwModDepth])) := by
  simp only [vcoModPw, State.readF_of_quiet h]
  rfl

/-- Settles O28: the three reads return the stored values and change nothing. -/
theorem modPwComputesTheCarriedWidth : Obligations.ModPwComputesTheCarriedWidth := by
  intro cv s h
  exact congrArg Host.Outcome.next (vcoModPw_of_quiet (floatOperand cv) h)

/-- The second term of R138 is a zero if the cv or the depth is one, and a base of sign + is kept by adding it. -/
theorem width_of_zero_modulation {p : Params} (hp : p.underflow = .gradual) {m : Nat} {x : Int} {cv depth : F}
    (hrep : Num.representable p.fmt (.fin false m x) = true) (hunit : Num.InUnit (.fin false m x))
    (hcvRep : Num.representable p.fmt cv = true) (hcv : Num.isFinite cv = true) (hdepth : Num.isFinite depth = true)
    (hzero : val cv = 0 ∨ val depth = 0) : width p (.fin false m x) cv depth = .fin false m x := by
  have hsub := Num.one_sub_inUnit hp hunit
  have hfin := Num.isFinite_mul_of_inUnit hp hsub hcv hcvRep
  have hprod : val (Num.mul p (Num.sub p (Num.lit 1) (.fin false m x)) cv) = 0 ∨ val depth = 0 := by
    refine hzero.imp_left fun h => ?_
    obtain ⟨a, ha⟩ := Num.mul_eq_zero_of_val (p := p) hsub.1 hcv (.inr h)
    rw [ha, Num.val_fin_eq_zero_iff]
  obtain ⟨b, hb⟩ := Num.mul_eq_zero_of_val (p := p) hfin hdepth hprod
  exact (congrArg (Num.add p (.fin false m x)) hb).trans (Num.add_zero_of_representable hp hrep b)

theorem inUnit_of_safety {x : F} (hfin : Num.isFinite x = true) (h : Safety.inUnit x = true) : Num.InUnit x := by
  obtain ⟨hlow, hhigh⟩ := Bool.and_eq_true_iff.mp h
  rw [Num.le_iff_val rfl hfin, Num.val_zero] at hlow
  rw [Num.le_iff_val hfin (Num.isFinite_lit 1), Num.val_lit, Nat.cast_one] at hhigh
  exact ⟨hfin, abs_le.mpr ⟨by linarith, hhigh⟩⟩

/-- Settles O30: `width_of_zero_modulation` with the stored base and depth. -/
theorem zeroModulationKeepsTheBaseWidth : Obligations.ZeroModulationKeepsTheBaseWidth := by
  intro cv s m x hquiet hp hbase hunit hcv hdepth hzero
  have hrep : Num.representable s.par.fmt (.fin false m x) = true := hbase ▸ Num.toF_representable _ s.store[5]
  have hval : val (Num.toF cv) = 0 ∨ val (Num.toF s.store[6]) = 0 := by
    rwa [Num.eq_iff_val hcv rfl, Num.eq_iff_val hdepth rfl, Num.val_zero] at hzero
  rw [modPwComputesTheCarriedWidth cv s hquiet, hbase,
    width_of_zero_modulation hp hrep (inUnit_of_safety rfl hunit) (Num.toF_representable _ cv) hcv hdepth hval]

/-! ## The generators at the argument 0 -/

theorem mean_zero (p : Params) : mean p Num.zero Num.zero = Num.zero :=
  Num.zero_div_of_positive p (y := Num.lit 2) (by decide)

theorem mean_one (p : Params) : mean p (Num.lit 1) (Num.lit 1) = Num.lit 1 := by
  rw [mean, Num.one_add_one, Num.two_div_two]

/-- A width of 0 puts both evaluations at the same argument (R136). -/
theorem offset_zero (p : Params) : offset p Num.zero = Num.zero := Num.zero_mul_of_positive p (Num.positive_pi p)

section
variable {t : Tick} {x f : F}

/-- R130 at counter 0 and offset 0. -/
theorem targ_zero (hn : t.n = 0) (hsr : Num.positive t.sr = true)
    (hrate : Num.positive (Num.mul t.par (Num.mul t.par (Num.lit 2) (Num.pi t.par)) f) = true) :
    targ t Num.zero f = Num.zero := by
  rw [targ, hn, Num.zero_mul_of_positive _ hsr, Num.zero_div_of_positive _ hrate]
  rfl

/-- R131's example: `p` is 0, and so is `floor(0 + 0.5)`. -/
theorem genSaw_zero (hsr : Num.positive t.sr = true) (hf : Num.positive f = true) : genSaw t Num.zero f = Num.zero := by
  simp only [genSaw, Num.zero_mul_of_positive _ hf, Num.zero_div_of_positive _ hsr, Num.zero_add_half, Num.floor_half]
  rfl

theorem oscPhase_zero (hsr : Num.positive t.sr = true)
    (hrate : Num.positive (Num.mul t.par (Num.mul t.par (Num.lit 2) (Num.pi t.par)) f) = true)
    (hfin : Num.isFinite (Num.div t.par (Num.mul t.par (Num.mul t.par (Num.lit 2) (Num.pi t.par)) f) t.sr) = true) :
    oscPhase t Num.zero f = Num.zero :=
  Num.div_mul_zero _ hrate hsr hfin

/-- R132's example, `1 - (2/PI)*acos(1)`. -/
theorem genTri_of_oscPhase_zero (h : oscPhase t x f = Num.zero) : genTri t x f = Num.lit 1 := by
  have hcos : Num.cos t.par Num.zero = Num.lit 1 := rfl
  rw [genTri, h, hcos, Num.acos_one, Num.div_mul_zero _ (by decide) (Num.positive_pi _) (Num.isFinite_two_div_pi _), Num.one_sub_zero]

/-- R133's example, `sign(sin(0))`. -/
theorem genSq_of_oscPhase_zero (k : Nat) (h : oscPhase t x f = Num.zero) : genSq t k x f = Num.zero := by
  rw [genSq, h]
  rfl

end

/-- Settles O32: at width 0 both evaluations are at the argument 0, for `f` and for `f/2`. -/
theorem signalsAtCounterZero : Obligations.SignalsAtCounterZero := by
  intro p sr f k twoPi h hsr hf _ hrate hrateSub hfin hfinSub g
  let t : Tick := { par := p, n := 0, sr := sr }
  have hphase : oscPhase t Num.zero f = Num.zero := oscPhase_zero hsr hrate hfin
  have hphaseSub : oscPhase t Num.zero (halfFreq t f) = Num.zero := oscPhase_zero hsr hrateSub hfinSub
  have htarg : targ t Num.zero f = Num.zero := targ_zero rfl hsr hrate
  have htargSub : targ t Num.zero (halfFreq t f) = Num.zero := targ_zero rfl hsr hrateSub
  simp only [g, signals, offset_zero]
  refine ⟨?_, ?_, ?_, ?_⟩
  · rw [dualSaw, htarg, genSaw_zero hsr hf, mean_zero]
  · rw [dualTri, htarg, genTri_of_oscPhase_zero hphase, mean_one]
  · rw [dualSq, htarg, genSq_of_oscPhase_zero _ hphase, genSq_of_oscPhase_zero _ hphase, mean_zero]
  · rw [dualSub, genSub, genSub, htargSub, genSq_of_oscPhase_zero _ hphaseSub, genSq_of_oscPhase_zero _ hphaseSub, mean_zero]

/-! ## VCO.TICK -/

/-- The five mix levels of a store. -/
def levelsOf (store : Vector P 20) : Levels where
  saw := Num.toF store[pSawRate]
  tri := Num.toF store[pTriRate]
  square := Num.toF store[pSquareRate]
  sub := Num.toF store[pSubRate]
  noise := Num.toF store[pNoiseRate]

theorem readLevels_of_quiet {s : State} (h : s.quiet = true) : readLevels s = (levelsOf s.store, s) := by
  simp only [readLevels, State.readF_of_quiet h]
  rfl

/-- The state after one read of each of the parameters below `k`, in order. -/
def State.afterReads (s : State) : Nat → State
  | 0 => s
  | k + 1 => ((s.afterReads k).readParam (Fin.ofNat 20 k)).2

/-- The parameters from `k` on still show all of their values (R58). -/
theorem State.visible_afterReads (s : State) {k : Nat} {i : Fin 20} (h : k ≤ i.val) : (s.afterReads k).visible i = s.visible i := by
  induction k with
  | zero => rfl
  | succ k ih =>
    have hne : i ≠ Fin.ofNat 20 k := by
      rintro rfl
      rw [Fin.val_ofNat] at h
      omega
    exact (visible_readParam_other _ hne).trans (ih (by omega))

/-- Under a race each level is read old or new (R56): the levels are the first five parameters, read in order. -/
theorem readLevels_reads (s : State) : ∃ c, Choice s c ∧ (readLevels s).1 = levelsOf (seen s c) := by
  choose c hc hval using fun i : Fin 20 => readParam_of_visible_eq (s.visible_afterReads (le_refl i.val))
  have hread (i : Fin 20) : Num.toF (seen s c)[i] = ((s.afterReads i.val).readF i).1 := by
    rw [seen_getElem, ← hval, State.readF]
  refine ⟨c, hc, ?_⟩
  simp only [levelsOf, hread]
  rfl

theorem exec_vcoTick (f : P) {s : State} (h : s.n + 1 < 2 ^ s.par.cntW) :
    exec (.vcoTick f) s = .next ((vcoTick (floatOperand f) s).2.returnOne (vcoTick (floatOperand f) s).1) :=
  State.completeTick_next _ h

/-- The sample of a tick, by the values that its five reads return. -/
theorem vcoTick_eq_mixed (f : F) {s : State} {store : Vector P 20} (h : (readLevels (s.useFree 4)).1 = levelsOf store) :
    (vcoTick f s).1 = mixed s.par s.n s.free s.sr.value s.pw.value f store := by
  rw [vcoTick, h]
  rfl

/-- With no write in flight a tick counts, and uses four indices of free values. -/
theorem vcoTick_of_quiet (f : F) {s : State} (h : s.quiet = true) :
    vcoTick f s = (mixed s.par s.n s.free s.sr.value s.pw.value f s.store, (s.useFree 4).tickCount) := by
  have hlevels : readLevels (s.useFree 4) = (levelsOf s.store, s.useFree 4) := readLevels_of_quiet h
  rw [← vcoTick_eq_mixed f (congrArg Prod.fst hlevels), vcoTick, hlevels]

/-- Settles O31: `vcoTick_eq_mixed` with the stored levels, or with those that the reads return under a race. -/
theorem vcoTickComputesTheMix : Obligations.VcoTickComputesTheMix := by
  intro f s hcount v
  rw [exec_vcoTick f hcount]
  refine ⟨fun hquiet => ?_, ?_⟩
  · rw [vcoTick_of_quiet _ hquiet]
    rfl
  · obtain ⟨c, hc, hlevels⟩ := readLevels_reads (s.useFree 4)
    obtain ⟨t, hreads, ht⟩ := vcoTick_spec (floatOperand f) s
    refine ⟨_, c, t.free, rfl, hc, ?_⟩
    rw [vcoTick_eq_mixed _ hlevels, ht, show t = _ from hreads]
    rfl

end Sys2Proof.Machine
end

section
/-! Values in an interval from 0: products and sums that cannot overflow, in either underflow setting (R93). -/

namespace Sys2Proof.Machine.Num

open Claims (val overflowAt)

/-- A finite datum in the closed interval from 0 to `n`. -/
def UpTo (n : Nat) (x : F) : Prop := isFinite x = true ∧ val x ∈ Set.Icc (0 : ℚ) n

theorem upTo_lit (n : Nat) : UpTo n (lit n) := ⟨isFinite_lit n, by simp⟩

theorem upTo_half : UpTo 1 half := ⟨rfl, by norm_num [half, val]⟩

/-- The integers that occur as bounds in R156 are data of both formats. -/
theorem representable_lit_of_le (f : Format) {n : Nat} (h : n ≤ 21) : representable f (lit n) = true := by
  cases f <;> interval_cases n <;> decide

theorem lt_overflowAt_of_le (f : Format) {n : Nat} (h : n ≤ 21) : (n : ℚ) < overflowAt f := by
  simpa using abs_val_lt_overflowAt (isFinite_lit n) (representable_lit_of_le f h)

/-- The underflow setting matters for a result only where it is flushed to a zero. -/
theorem roundQ_eq_gradual_or_zero (f : Format) (u : Underflow) (neg : Bool) (n d : Nat) (e : Int) :
    roundQ f u neg n d e = roundQ f .gradual neg n d e ∨ roundQ f u neg n d e = .fin neg 0 0 := by
  cases u with
  | gradual => exact .inl rfl
  | flush =>
    unfold roundQ
    dsimp only
    split
    · exact .inl rfl
    · split
      · exact .inr rfl
      · exact .inl (by simp)

theorem mul_eq_gradual_or_zero (p : Params) {x y : F} (hx : isFinite x = true) (hy : isFinite y = true) :
    mul p x y = mul { p with underflow := .gradual } x y ∨ ∃ neg, mul p x y = .fin neg 0 0 := by
  obtain ⟨a, m, e, rfl⟩ := exists_fin_of_isFinite hx
  obtain ⟨b, k, d, rfl⟩ := exists_fin_of_isFinite hy
  exact (roundQ_eq_gradual_or_zero ..).imp_right fun h => ⟨_, h⟩

/-- The rounded product stays below every integer that bounds the exact one. -/
theorem upTo_mul (p : Params) {m n k : Nat} {x y : F} (hx : UpTo m x) (hy : UpTo n y) (hle : m * n ≤ k) (hk : k ≤ 21) :
    UpTo k (mul p x y) := by
  obtain ⟨hfinx, hx0, hxm⟩ := hx
  obtain ⟨hfiny, hy0, hyn⟩ := hy
  have hnonneg := mul_nonneg hx0 hy0
  have hprod : val x * val y ≤ k := (mul_le_mul hxm hyn hy0 (by positivity)).trans (by exact_mod_cast hle)
  have hbound : |val x * val y| < overflowAt p.fmt := by
    rw [abs_of_nonneg hnonneg]
    exact hprod.trans_lt (lt_overflowAt_of_le _ hk)
  obtain h | ⟨neg, h⟩ := mul_eq_gradual_or_zero p hfinx hfiny
  · have hround := mul_rounded (p := { p with underflow := .gradual }) rfl hfinx hfiny
    have hmem := val_mem_Icc_of_rounded hround hbound rfl (zero_representable _) (isFinite_lit k)
      (representable_lit_of_le _ hk) (by simpa using ⟨hnonneg, hprod⟩)
    rw [h]
    exact ⟨(hround.1 hbound).1, by simpa using hmem⟩
  · rw [h]
    exact ⟨rfl, by simp [val]⟩

/-- A sum that is not below 0, with a first term of sign +, has the sign +, a zero sum and an overflow included. -/
theorem add_sign_of_nonneg (p : Params) {m : Nat} {e : Int} {y : F} (hy : isFinite y = true)
    (h : 0 ≤ val (.fin false m e) + val y) :
    add p (.fin false m e) y = .inf false ∨ ∃ n c, add p (.fin false m e) y = .fin false n c := by
  obtain ⟨b, k, d, rfl⟩ := exists_fin_of_isFinite hy
  have hpow : (0 : ℚ) < 2 ^ min e d := by positivity
  rw [← aligned_val false m (min_le_left e d), ← aligned_val b k (min_le_right e d), ← add_mul, ← Int.cast_add,
    mul_nonneg_iff_of_pos_right hpow, Int.cast_nonneg_iff] at h
  simp only [add]
  split
  · exact .inr ⟨0, 0, rfl⟩
  · rw [decide_eq_false h.not_gt]
    exact roundQ_sign ..

/-- 1 and a number from 0 to 20 give a finite number of sign +. -/
theorem one_add_upTo (p : Params) {x : F} (hx : UpTo 20 x) : ∃ m e, add p (lit 1) x = .fin false m e := by
  obtain ⟨hfin, h0, h20⟩ := hx
  have hone : lit 1 = .fin false 1 0 := by decide
  have hnonneg : 0 ≤ val (lit 1) + val x := add_nonneg (by simp) h0
  have hfinite : isFinite (add p (lit 1) x) = true := by
    refine isFinite_add (isFinite_lit 1) hfin ?_
    rw [abs_of_nonneg hnonneg]
    refine lt_of_le_of_lt ?_ (lt_overflowAt_of_le p.fmt (le_refl 21))
    rw [val_lit]
    push_cast at h20 ⊢
    linarith
  rw [hone] at hnonneg hfinite ⊢
  obtain h | h := add_sign_of_nonneg p hfin hnonneg
  · rw [h] at hfinite
    cases hfinite
  · exact h

/-! ## Operations that do not leave the format's finite range -/

theorem isFinite_add_zero (p : Params) {x : F} (hfin : isFinite x = true) (hrep : representable p.fmt x = true) (b : Bool) :
    isFinite (add p x (.fin b 0 0)) = true :=
  isFinite_add hfin rfl (by simpa [val] using abs_val_lt_overflowAt hfin hrep)

theorem isFinite_sub_zero (p : Params) {x : F} (hfin : isFinite x = true) (hrep : representable p.fmt x = true) (b : Bool) :
    isFinite (sub p x (.fin b 0 0)) = true :=
  isFinite_add_zero p hfin hrep (!b)

theorem isFinite_div_two (p : Params) {x : F} (hfin : isFinite x = true) (hrep : representable p.fmt x = true) :
    isFinite (div p x (lit 2)) = true := by
  have hhalf : |val x / val (lit 2)| < overflowAt p.fmt := by
    refine lt_of_le_of_lt ?_ (abs_val_lt_overflowAt hfin hrep)
    rw [abs_div, val_lit]
    exact div_le_self (abs_nonneg _) (by norm_num)
  have hround := ((div_rounded (p := { p with underflow := .gradual }) rfl hfin (isFinite_lit 2) (by simp)).1 hhalf).1
  obtain ⟨a, m, e, rfl⟩ := exists_fin_of_isFinite hfin
  exact isFinite_roundQ p.underflow hround

end Sys2Proof.Machine.Num
end

section
/-! The VCF commands: the carried cutoff (R158), the ladder filter (R150 to R156, R159), and the cleared filter at a zero cutoff. -/

namespace Sys2Proof.Machine

open Claims (Choice seen cutoff coefficient ladderAfter drive gain saturated stageY average)

/-! ## VCF.MOD_FC -/

/-- With no write in flight VCF.MOD_FC writes the carried cutoff alone. -/
theorem vcfModFc_of_quiet (cv noteCV : F) {s : State} (h : s.quiet = true) :
    vcfModFc cv noteCV s = s.setFc (cutoff s.par s.sr.value (Num.toF s.store[pCutoff]) (Num.toF s.store[pCutoff]) cv
      (Num.toF s.store[pCutoffModDepth]) noteCV (Num.toF s.store[pKbdFollowDepth])) := by
  simp only [vcfModFc, State.readF_of_quiet h]
  rfl

/-- Settles O34: the four reads return the stored values and change nothing. -/
theorem modFcComputesTheCarriedCutoff : Obligations.ModFcComputesTheCarriedCutoff := by
  intro cv noteCV s h
  exact congrArg Host.Outcome.next (vcfModFc_of_quiet (floatOperand cv) (floatOperand noteCV) h)

/-! ## VCF.FILTER -/

/-- The filter registers after a sample with input `x` and resonance `k` (R156, R159). -/
def State.filtered (s : State) (x k : F) : FilterRegs :=
  ladderAfter s.par s.filt (drive s.par s.filt x k) (coefficient s.par s.fc.value s.sr.value)

/-- The value that the sample returns (R156). -/
def State.filterOut (s : State) (x k : F) : F := Num.mul s.par (gain s.par k) (s.filtered x k).d4

/-- A filter step by the value that its one read returns. -/
theorem vcfFilter_eq_filtered (x : F) (s : State) :
    vcfFilter x s = (s.filterOut x (s.readF pResonance).1, (s.readF pResonance).2.setFilt (s.filtered x (s.readF pResonance).1)) :=
  rfl

theorem exec_vcfFilter (x : P) (s : State) :
    exec (.vcfFilter x) s = .next ((vcfFilter (floatOperand x) s).2.returnOne (vcfFilter (floatOperand x) s).1) := rfl

/-- Under a race the resonance is read old or new (R56). -/
theorem readF_resonance (s : State) : ∃ c, Choice s c ∧ (s.readF pResonance).1 = Num.toF (seen s c)[13] := by
  obtain ⟨c, hc, hval⟩ := readParam_of_visible_eq (s := s) (i := pResonance) rfl
  obtain ⟨choice, hchoice, rfl, -⟩ := exists_choice (i := pResonance) (j := pCutoff) (by decide) hc (Nat.zero_le _)
  exact ⟨choice, hchoice, congrArg Num.toF (hval.trans (seen_getElem s choice pResonance).symm)⟩

/-- Settles O35: `vcfFilter_eq_filtered` with the stored resonance, or with the one that the read returns under a race. -/
theorem filterComputesTheLadder : Obligations.FilterComputesTheLadder := by
  intro x s r v old
  rw [exec_vcfFilter, vcfFilter_eq_filtered]
  refine ⟨fun hquiet => ?_, ?_⟩
  · rw [State.readF_of_quiet hquiet]
    rfl
  · obtain ⟨c, hc, hval⟩ := readF_resonance s
    refine ⟨_, c, (s.readF pResonance).2.free, rfl, hc, ?_⟩
    rw [hval, show (s.readF pResonance).2 = _ from s.readF_readsFrom pResonance]
    rfl

/-! ## The cleared filter at a zero cutoff (R159 corner case 3) -/

/-- The range of R35 for a parameter that is no time constant. -/
theorem upTo_of_inUnit {x : F} (h : Safety.inUnit x = true) : Num.UpTo 1 x := by
  obtain ⟨hlow, hhigh⟩ := Bool.and_eq_true_iff.mp h
  have hfin : Num.isFinite x = true := by
    cases x with
    | nan => exact hlow
    | inf neg => cases neg <;> contradiction
    | fin neg m e => rfl
  rw [Num.le_iff_val rfl hfin, Num.val_zero] at hlow
  rw [Num.le_iff_val hfin (Num.isFinite_lit 1), Num.val_lit] at hhigh
  exact ⟨hfin, hlow, hhigh⟩

/-- R150 at a zero cutoff: the argument of `tanh` is +0, and so is everything it is a factor of. -/
theorem coefficient_zero (p : Params) {sr : F} (hsr : Num.positive sr = true)
    (hrate : Num.positive (Num.mul p (Num.lit 2) sr) = true) : coefficient p Num.zero sr = Num.zero := by
  obtain ⟨m, e, hpi, -⟩ := Num.positive_iff.mp (Num.positive_pi p)
  obtain ⟨k, d, htwo, -⟩ := Num.positive_iff.mp hrate
  have harg : Num.mul p (Num.pi p) Num.zero = Num.zero := by
    rw [hpi]
    exact Num.mul_fin_zero p false false m e
  have hangle : Num.mul p (Num.mul p (Num.lit 2) sr) (Num.tanh p Num.zero) = Num.zero := by
    rw [htwo]
    exact Num.mul_fin_zero p false false k d
  have hden : Num.add p (Num.lit 1) Num.zero = Num.lit 1 := by
    have hsum := Num.add_roundQ_zero p 1 0 false one_ne_zero
    rwa [Num.roundQ_self p.fmt p.underflow one_ne_zero] at hsum
  simp only [coefficient, harg, Num.zero_div_of_positive _ hsr, hangle, Num.zero_div_of_positive _ hrate, hden]
  exact Num.zero_div_of_positive p (by decide)

/-- With a zero coefficient and cleared registers the first term of `y'` is a zero, of the sign of `v`, and the sum is +0 (R152). -/
theorem stageY_cleared (p : Params) {x : F} (hfin : Num.isFinite x = true) (hrep : Num.representable p.fmt x = true) :
    stageY p { y := Num.zero, u := Num.zero } x Num.zero = Num.zero := by
  have hv := Num.isFinite_sub_zero p (Num.isFinite_sub_zero p hfin hrep false) (Num.sub_representable p _ _) false
  obtain ⟨a, m, e, hv⟩ := Num.exists_fin_of_isFinite hv
  have hu : Claims.stageU p { y := Num.zero, u := Num.zero } x Num.zero = .fin (false != a) 0 0 :=
    (congrArg (Num.mul p Num.zero) hv).trans (Num.mul_zero_fin p a false m e)
  rw [stageY, hu]
  cases a <;> rfl

/-- The input of stage 1 is finite, those of the others are +0: the outputs of the stages before them are (R154). -/
theorem ladderAfter_cleared (p : Params) {x : F} (hfin : Num.isFinite x = true) (hrep : Num.representable p.fmt x = true)
    (i : Fin 4) : (ladderAfter p .cleared x Num.zero).st[i].y = Num.zero := by
  have hmean : Num.isFinite (average p x Num.zero) = true :=
    Num.isFinite_div_two p (Num.isFinite_add_zero p hfin hrep false) (Num.add_representable p _ _)
  have hfirst := stageY_cleared p hmean (Num.div_representable p _ _)
  have hsilent := stageY_cleared p (x := Num.zero) rfl (Num.zero_representable _)
  have hzero : average p Num.zero Num.zero = Num.zero := mean_zero p
  fin_cases i <;> simp [ladderAfter, FilterRegs.cleared, hfirst, hzero, hsilent]

/-- The feedback from the cleared `d[4]` is a zero (R156). -/
theorem drive_cleared (p : Params) {x k : F} (hx : Num.isFinite (saturated p x) = true) (hk : Num.UpTo 1 k) :
    Num.isFinite (drive p .cleared x k) = true := by
  obtain ⟨a, m, e, hfb⟩ := Num.exists_fin_of_isFinite (Num.upTo_mul p hk (Num.upTo_lit 14) le_rfl (by decide)).1
  rw [drive, hfb, show FilterRegs.cleared.d4 = .fin false 0 0 from rfl, Num.mul_fin_zero]
  exact Num.isFinite_sub_zero p hx (Num.div_representable p _ _) _

/-- R156 for a resonance in range. -/
theorem gain_of_upTo (p : Params) {k : F} (hk : Num.UpTo 1 k) : ∃ m e, gain p k = .fin false m e :=
  Num.one_add_upTo p <| Num.upTo_mul p (Num.upTo_mul p Num.upTo_half hk le_rfl (by decide)) (Num.upTo_lit 20) le_rfl (by decide)

/-- Settles O36: the coefficient is +0, the ladder's output is +0, and the gain is a finite factor of sign +. -/
theorem zeroCutoffFreezesTheClearedFilter : Obligations.ZeroCutoffFreezesTheClearedFilter := by
  intro x s hquiet hclear hfc hsr hrate hres hclip
  have hk := upTo_of_inUnit hres
  have hcoeff : coefficient s.par s.fc.value s.sr.value = Num.zero := by
    rw [hfc]
    exact coefficient_zero s.par hsr hrate
  have hy := ladderAfter_cleared s.par (drive_cleared s.par hclip hk) (Num.sub_representable s.par _ _)
  obtain ⟨m, e, hgain⟩ := gain_of_upTo s.par hk
  refine ⟨hcoeff, _, (filterComputesTheLadder x s).1 hquiet, ?_⟩
  simp only [hclear, hcoeff]
  refine ⟨?_, hy, hy 1, hy 2, hy 3⟩
  have hout : (ladderAfter s.par .cleared (drive s.par .cleared (Num.toF x) (Num.toF s.store[13])) Num.zero).d4 =
      .fin false 0 0 := hy 3
  rw [hout, hgain, Num.mul_fin_zero]
  rfl

end Sys2Proof.Machine
end

section
/-! NOTE_ON, NOTE_OFF and EVT: the held note, the gates and the retrigger (R173 to R178). -/

namespace Sys2Proof.Machine

/-! ## NOTE_ON (R174) -/

section
variable {n : Byte} (b2 : Byte) {s : State}

/-- Another note than the held one restarts both envelopes from rest. -/
theorem exec_noteOn_of_ne (h : n ≠ s.note) : exec (.noteOn n b2) s = .next
    { s with note := n, amp := { EnvRegs.rest with gate := true }, mod := { EnvRegs.rest with gate := true } } := by
  simp only [exec, execNoteOn, if_pos h]
  rfl

theorem exec_noteOn_of_eq (h : n = s.note) : exec (.noteOn n b2) s = .next
    { s with amp := { s.amp with gate := true }, mod := { s.mod with gate := true } } := by
  subst h
  rw [exec_noteOn_held]
  rfl

/-- A retrigger of envelopes at rest changes nothing: the held note makes no difference. -/
theorem exec_noteOn_of_rest (hamp : s.amp = .rest) (hmod : s.mod = .rest) : exec (.noteOn n b2) s = .next
    { s with note := n, amp := { EnvRegs.rest with gate := true }, mod := { EnvRegs.rest with gate := true } } := by
  by_cases h : n = s.note
  · rw [exec_noteOn_of_eq b2 h, hamp, hmod, h]
  · exact exec_noteOn_of_ne b2 h

/-- Whatever was held, the note is held afterwards and both gates are on. -/
theorem exec_noteOn_holds (n : Byte) (s : State) :
    ∃ t, exec (.noteOn n b2) s = .next t ∧ t.note = n ∧ t.amp.gate = true ∧ t.mod.gate = true :=
  ⟨_, rfl, setGates_note true _, rfl, rfl⟩

/-! ## NOTE_OFF (R175) -/

theorem exec_noteOff_of_eq (h : n = s.note) : exec (.noteOff n b2) s = .next (setGates false s) :=
  congrArg Host.Outcome.next (if_pos h)

theorem exec_noteOff_of_ne (h : n ≠ s.note) : exec (.noteOff n b2) s = .next s :=
  congrArg Host.Outcome.next (if_neg h)

end

/-- Settles O44: the new note is the held one or is not; from rest both cases give one state. -/
theorem noteOnSetsTheHeldNote : Obligations.NoteOnSetsTheHeldNote := by
  intro n b2 s
  refine ⟨exec_noteOn_of_ne b2, exec_noteOn_of_eq b2, fun hamp hmod k => ?_⟩
  rw [exec_noteOn_of_rest b2 hamp hmod, exec_noteOn_of_rest (s := { s with note := k }) b2 hamp hmod]

/-- Settles O45: the note is the held one or is not. -/
theorem noteOffReleasesTheHeldNoteOnly : Obligations.NoteOffReleasesTheHeldNoteOnly :=
  fun _ b2 _ => ⟨exec_noteOff_of_eq b2, exec_noteOff_of_ne b2⟩

/-- Settles O47: each NOTE_ON leaves its own note held, and a NOTE_OFF acts on the held note alone and keeps it. -/
theorem oneNoteIsHeld : Obligations.OneNoteIsHeld := by
  intro n n' b2 s hne
  obtain ⟨t, ht, htn, -⟩ := exec_noteOn_holds b2 n s
  obtain ⟨u, hu, hun, hamp, hmod⟩ := exec_noteOn_holds b2 n' t
  have hvn : (setGates false u).note = n' := (setGates_note false u).trans hun
  exact ⟨t, u, setGates false u, ht, htn, hu, hun, hamp, hmod, exec_noteOff_of_ne b2 (hun ▸ hne),
    exec_noteOff_of_eq b2 hun.symm, hvn, rfl, rfl, exec_noteOff_of_ne b2 (hvn ▸ hne)⟩

/-! ## EVT (R173) -/

/-- Settles O46: the message decodes to MIDI_IGN, which changes nothing. -/
theorem otherStatusIsIgnored : Obligations.OtherStatusIsIgnored := by
  intro b0 b1 b2 s hon hoff
  have hform := decodeMidiBytes_midiIgn hon hoff b1 b2
  refine ⟨rfl, ?_, (decodeMidi_packMidi b0 b1 b2).trans hform⟩
  rw [exec_evt, hform]
  rfl

/-- Settles O7: EVT is its decoded form, whose next state is known for the held note and for another. -/
theorem eventAppliesItsDecodedForm : Obligations.EventAppliesItsDecodedForm := by
  intro b0 b1 b2 s
  refine ⟨exec_evt b0 b1 b2 s, ?_, ?_, fun hon hoff => (otherStatusIsIgnored b0 b1 b2 s hon hoff).2.1, fun a x d1 rest => ?_⟩
  · rintro rfl
    rw [exec_evt, decodeMidiBytes_noteOn]
    split
    next h => exact exec_noteOn_of_eq b2 h
    next h => exact exec_noteOn_of_ne b2 h
  · rintro rfl
    rw [exec_evt, decodeMidiBytes_noteOff]
    split
    next h => exact exec_noteOff_of_eq b2 h
    next h => exact exec_noteOff_of_ne b2 h
  · have hword := decodeCmd_evt a d1 _ (setWidth_append_packMidi x b0 b1 b2)
    rw [step_of_command rfl]
    exact congrArg (exec · _) hword

end Sys2Proof.Machine
end

section
/-! The pitch of the 256 notes (R170): exact at the two operands where `pow2` is known, and finite and positive at every one (R99). -/

namespace Sys2Proof.Machine.Num

/-! ## The two notes whose pitch is exact (R99) -/

section
variable (p : Params)

/-- Note 69 is 0 octaves from `A4_NOTE`. -/
theorem pitchOperand_a4 : pitchOperand p 69 = zero := by
  have hnote : u2f p 69 = a4Note := by
    unfold u2f
    cases p.fmt <;> decide
  rw [pitchOperand, hnote, show a4Note = .fin false 69 0 from by decide, sub_self_fin]
  exact zero_div_of_positive p (by decide)

/-- Note 81 is one octave above. -/
theorem pitchOperand_octave : pitchOperand p 81 = lit 1 := by
  have hnote : u2f p 81 = .fin false 81 0 := by
    unfold u2f
    cases p.fmt <;> decide
  have hsub : sub p (.fin false 81 0) a4Note = semis := by
    rw [show a4Note = .fin false 69 0 from by decide]
    change roundQ p.fmt p.underflow false 12 1 0 = semis
    cases p.fmt <;> cases p.underflow <;> decide
  rw [pitchOperand, hnote, hsub, show semis = .fin false 3 2 from by decide]
  exact roundQ_self p.fmt p.underflow three_ne_zero

theorem pow2_zero : pow2 p zero = lit 1 := if_pos rfl

theorem pow2_one : pow2 p (lit 1) = lit 2 := by
  rw [pow2, if_neg (by decide), if_pos rfl]

end

theorem mul_one_a4Hz (p : Params) : mul p (lit 1) a4Hz = lit 440 := by
  rw [show lit 1 = .fin false 1 0 from by decide, show a4Hz = .fin false 55 3 from by decide]
  change roundQ p.fmt p.underflow false 55 1 3 = lit 440
  cases p.fmt <;> cases p.underflow <;> decide

theorem mul_two_a4Hz (p : Params) : mul p (lit 2) a4Hz = lit 880 := by
  rw [show lit 2 = .fin false 1 1 from by decide, show a4Hz = .fin false 55 3 from by decide]
  change roundQ p.fmt p.underflow false 55 1 4 = lit 880
  cases p.fmt <;> cases p.underflow <;> decide

theorem toP_lit_440 (code : Nat) : toP code (lit 440) = 0x43DC0000 := by
  rw [show lit 440 = .fin false 55 3 from by decide, toP_fin code _ _ _ (by decide)]
  decide

theorem toP_lit_880 (code : Nat) : toP code (lit 880) = 0x445C0000 := by
  rw [show lit 880 = .fin false 55 4 from by decide, toP_fin code _ _ _ (by decide)]
  decide

/-! ## Every note (R170) -/

/-- At a pitch operand `pow2` is 1, 2, or a value whose product with 440 is finite and positive. -/
theorem positive_pow2_pitchOperand (p : Params) {n : Nat} (h : n < 256) :
    positive (mul p (pow2 p (pitchOperand p n)) a4Hz) = true := by
  have hone : positive (mul p (lit 1) a4Hz) = true := by
    rw [mul_one_a4Hz]
    decide
  have hpitch : ((List.range 256).any fun k => pitchOperand p n = pitchOperand p k) = true :=
    List.any_eq_true.mpr ⟨n, List.mem_range.mpr h, decide_eq_true rfl⟩
  unfold pow2
  split
  · exact hone
  · split
    · rw [mul_two_a4Hz]
      decide
    · dsimp only
      rw [hpitch, Bool.true_and]
      split
      · exact hone
      next hy => simpa using hy

end Sys2Proof.Machine.Num

namespace Sys2Proof.Machine

theorem pitch_a4 (p : Params) : pitch p 69 = Num.lit 440 := by
  rw [pitch, show (69 : Byte).toNat = 69 from rfl, Num.pitchOperand_a4, Num.pow2_zero, Num.mul_one_a4Hz]

theorem pitch_octave (p : Params) : pitch p 81 = Num.lit 880 := by
  rw [pitch, show (81 : Byte).toNat = 81 from rfl, Num.pitchOperand_octave, Num.pow2_one, Num.mul_two_a4Hz]

/-- Settles O40: a note number is below 256. -/
theorem pitchIsFiniteAndPositive : Obligations.PitchIsFiniteAndPositive :=
  fun p n => Num.positive_pow2_pitchOperand p n.isLt

/-- The literals of R5 are those of R170. -/
theorem pitch_eq_pitchOf (p : Params) (n : Byte) : pitch p n = Claims.pitchOf p n := rfl

theorem exec_p2f (n : Byte) (s : State) : exec (.p2f n) s = .next (s.returnOne (pitch s.par n)) := rfl

/-- Settles O38: P2F returns the pitch, and returning a value writes the result port alone. -/
theorem p2fComputesThePitch : Obligations.P2fComputesThePitch := by
  intro n s
  rw [exec_p2f, pitch_eq_pitchOf]
  rfl

/-- Settles O39: both pitches are integers that a port value holds. -/
theorem pitchIsExactAtA4AndItsOctave : Obligations.PitchIsExactAtA4AndItsOctave := by
  intro s
  refine ⟨⟨_, exec_p2f 69 s, ?_⟩, ⟨_, exec_p2f 81 s, ?_⟩⟩
  · rw [State.returnOne_res, pitch_a4, Num.toP_lit_440]
  · rw [State.returnOne_res, pitch_octave, Num.toP_lit_880]

end Sys2Proof.Machine
end

section
/-! RENDER: the operations of a sample (R172) and the silence of a voice whose amplitude envelope is at rest. -/

namespace Sys2Proof.Machine

open Claims (Reg)

theorem exec_render (inL inR : P) {s : State} (h : s.n + 1 < 2 ^ s.par.cntW) :
    exec (.render inL inR) s = .next ((sampleOf s).state.returnStereo (renderSample s)) :=
  State.completeTick_next _ h

/-- Settles O41: `sampleOf` makes the operations in this order. -/
theorem renderComposesTheSample : Obligations.RenderComposesTheSample := by
  intro inL inR s h a m sPw sFc x y o
  have hsample : sampleOf s = { amp := a.1, filtered := y.1, state := y.2 } := by
    simp only [sampleOf, noteF, pitch_eq_pitchOf, a, m, sPw, sFc, x, y]
  rw [exec_render inL inR h]
  simp only [renderSample, hsample, State.returnStereo, o]

/-! ## The amplitude envelope at rest (R172 corner case 1) -/

/-- An envelope none of whose registers is written is the same. -/
theorem WritesOnly.env {rs : List Reg} {s t : State} (h : WritesOnly rs s t) {e : Env}
    (hr : ∀ r ∈ [.gate e, .phase e, .out e], r ∉ rs) : t.env e = s.env e := by
  have hgate : (t.env e).gate = (s.env e).gate := h.same (.gate e) (hr _ (by simp))
  have hphase : (t.env e).phase = (s.env e).phase := h.same (.phase e) (hr _ (by simp))
  have hout : (t.env e).out = (s.env e).out := h.same (.out e) (hr _ (by simp))
  change EnvRegs.mk (t.env e).gate (t.env e).phase (t.env e).out = s.env e
  rw [hgate, hphase, hout]

/-- Of the operations of a sample only the amplitude envelope's tick writes that envelope (R172). -/
theorem sampleOf_env_amp (s : State) : (sampleOf s).state.env .amp = (envTick .amp s).2.env .amp := by
  obtain ⟨x, t, hst, ht⟩ := sampleOf_writes s
  calc (sampleOf s).state.env .amp = (vcfFilter x t).2.env .amp := by rw [hst]
    _ = t.env .amp := (vcfFilter_writesOnly (rs := [.filter]) (.head _) x t).env (by simp)
    _ = (envTick .mod (envTick .amp s).2).2.env .amp := ht.env (by simp)
    _ = (envTick .amp s).2.env .amp := (envTick_writesOnly .mod _).env (by decide)

/-- In WCD a tick from rest is a tick to rest (R112 corner case 3). -/
theorem envTick_env_rest {e : Env} {s : State} (hrest : s.env e = .rest) (hsr : Num.positive s.sr.value = true)
    (htime : Safety.paramOk s (releaseIdx e) = true) : (envTick e s).2.env e = .rest := by
  rw [envTick_env, envTick_rest hrest hsr htime, hrest]
  simp [EnvRegs.rest]

theorem toP_zero (code : Nat) (neg : Bool) : Num.toP code (.fin neg 0 0) = if neg then 0x80000000 else 0 := by
  cases neg <;> rfl

/-- Settles O43: the factor `a` is the zero of the next rest state, and a finite number times a zero is a zero. -/
theorem renderAtRestIsSilent : Obligations.RenderAtRestIsSilent := by
  intro inL inR s hrest hsr hcount htime
  refine ⟨_, exec_render inL inR hcount, ?_, ?_⟩
  · rw [State.returnStereo_amp]
    exact (sampleOf_env_amp s).trans (envTick_env_rest (e := .amp) hrest hsr htime)
  · have hamp : (sampleOf s).amp = .fin false 0 0 := envTick_rest (e := .amp) hrest hsr htime
    rw [State.returnStereo_res, renderSample, hamp]
    cases hy : (sampleOf s).filtered with
    | nan | inf _ => exact .inr (.inr rfl)
    | fin neg m e =>
      rw [Num.mul_fin_zero, toP_zero]
      cases neg
      · exact .inl rfl
      · exact .inr (.inl rfl)

end Sys2Proof.Machine
end

section
/-! The host interface: NOP, SETSR, and PWR and PRD of an index that exists, whatever is in flight (R190 to R194, R57). -/

namespace Sys2Proof.Machine

/-! ## A whole write (R193) -/

section
variable {i : Byte} (h : i.toNat < 20) (v : P) (s : State)
include h

/-- The new pattern is stored, and every write to the index that has begun has landed before it (R57, log 15). -/
theorem State.writeParam_of_lt : s.writeParam i v =
    { s with store := s.store.set i.toNat v,
             inFlight := land ⟨i.toNat, h⟩ (pending ⟨i.toNat, h⟩ s.inFlight).length s.inFlight } := dif_pos h

/-- No write is pending to the index, and the pending writes to the others are the same (R58). -/
theorem State.pending_writeParam (j : Fin 20) :
    pending j (s.writeParam i v).inFlight = if j = ⟨i.toNat, h⟩ then [] else pending j s.inFlight := by
  rw [State.writeParam_of_lt h]
  split
  next hj => rw [hj, pending_land_self, List.drop_length]
  next hj => exact pending_land_other hj _ _

/-- The next read of the index returns the new pattern and has no side effect. -/
theorem State.readParam_writeParam_self :
    (s.writeParam i v).readParam ⟨i.toNat, h⟩ = (v, s.writeParam i v) := by
  rw [State.readParam_of_pending_nil (by rw [State.pending_writeParam h, if_pos rfl]), State.writeParam_of_lt h]
  simp

end

/-! ## The statements about the host interface -/

/-- Settles O11: `land` makes the pending writes to the index take effect and keeps every index and value in flight. -/
theorem parameterWriteStoresItsPattern : Obligations.ParameterWriteStoresItsPattern := by
  intro i v s h
  refine ⟨s.writeParam i v, rfl, ?_, s.pending_writeParam h v, ?_⟩
  · rw [State.writeParam_of_lt h]
  · rw [State.writeParam_of_lt h]
    exact land_map_key ..

/-- Settles O16: after PWR nothing is pending to the index, so PRD returns what is stored. -/
theorem writeIsReadBack : Obligations.WriteIsReadBack := by
  intro i v s h
  refine ⟨s.writeParam i v, _, rfl, exec_prd h _, ?_⟩
  rw [State.readParam_writeParam_self h, State.returnPattern_res]

/-- Settles O8: opcode 0 and every reserved opcode decode to NOP, and taking the event clears the result port. -/
theorem nopDoesNothing : Obligations.NopDoesNothing := by
  refine fun s rest => ⟨rfl, fun op a d1 d0 hop => ?_, ?_⟩
  · rcases hop with rfl | hreserved
    · exact decodeCmd_nop a d1 d0
    · exact decodeCmd_of_reserved a d1 d0 hreserved
  · have hnop : decodeCmd 0 = .nop := decodeCmd_nop 0 0 0
    rw [step_of_command rfl, hnop]
    rfl

/-- Settles O10: `setSr` writes one register, opcode 2 decodes to SETSR of `d0`, and the conversion of 44100 is a closed computation. -/
theorem setsrWritesTheSampleRateOnly : Obligations.SetsrWritesTheSampleRateOnly :=
  fun v _ => ⟨rfl, fun a d1 => decodeCmd_setsr a d1 v, by decide⟩

/-- Settles O13: PRD is one read event, which returns the stored pattern when nothing is pending to the index. -/
theorem parameterReadReturnsTheStoredPattern : Obligations.ParameterReadReturnsTheStoredPattern := by
  intro i s h hnil
  rw [exec_prd h, State.readParam_of_pending_nil hnil]
  rfl

end Sys2Proof.Machine
end
